-- ==== Sys2Proof/Word.lean ====
section
/-! DEFINITION. The word types of the engine (spec/00_scope.md R9, spec/30_encoding.md R80, spec/20_memory.md R50). -/

namespace Sys2Proof

/-- A parameter register or an immediate: 32 bits (R21, R82). -/
abbrev Word := BitVec 32

/-- A byte address, `AW` = 32 bits; addition wraps modulo 2^32 (R9, R55). -/
abbrev Addr := BitVec 32

/-- A sample, a result, a memory location: 8 bits (R9, R50). -/
abbrev Byte := BitVec 8

/-- A mantissa: 16 bits, read as two's complement (R9, R101). -/
abbrev Mant := BitVec 16

/-- A command word, `CW` = 64 bits (R9, R80). -/
abbrev CmdWord := BitVec 64

end Sys2Proof
end

