-- ==== Sys2Proof/Config.lean ====
section
/-! DEFINITION. The implementation parameters (spec/00_scope.md R9; MEMMAP, spec/20_memory.md R67), as a record of plain
data that the machine carries and no step changes (log entry 1), and the free values: constants without a body. -/

namespace Sys2Proof

/-- A range of byte addresses: `base`, `base + 1`, … , `base + size - 1`. -/
structure AddrRange where
  base : Nat
  size : Nat
  deriving DecidableEq, Repr

/-- A set of byte addresses, as the union of ranges. -/
abbrev AddrSet := List AddrRange

/-- `MERGE_STRATEGY`: how CONV.V recombines its even and odd accumulator banks (R9, R139). -/
inductive MergeStrategy where
  | interleave
  | promote
  deriving DecidableEq, Repr

/-- The implementation parameters of R9 that are not fixed widths. `MAX_LOGN` is the constant `maxLogn`. -/
structure Config where
  /-- `TAPS_MAX`: capacity of the tap table, even, 2 to 65536. -/
  tapsMax : Nat
  /-- `INTERPOLATE_SHIFT`: the fixed shift of the reduction, 1 to 14. -/
  interpolateShift : Nat
  /-- `CONVF_LOAD_BYTES` for the block widths 8, 2 and 1. -/
  load8 : Nat
  load2 : Nat
  load1 : Nat
  hasConvF : Bool
  hasRedv256 : Bool
  hasRedv128 : Bool
  merge : MergeStrategy
  /-- `MEMMAP`: the addresses backed by readable storage (R67). -/
  readable : AddrSet
  /-- `MEMMAP`: the addresses backed by writable storage (R67). -/
  writable : AddrSet
  /-- Addresses at which the memory port never answers (spec/93_implementation_defined.md U12, log entry 4). -/
  silent : AddrSet
  deriving DecidableEq, Repr

/-- `MAX_LOGN`, fixed by the spec (R9). -/
abbrev maxLogn : Nat := 6

/-- All 2^32 byte addresses. -/
def AddrSet.all : AddrSet := [{ base := 0, size := 2 ^ 32 }]

/-- The parameter values the spec's examples use (R9). `interpolateShift := 12` is PRESUMED: the spec marks it as general
knowledge, not in its source (log entry 2). MEMMAP is the spec's special case "all addresses" (log entry 3). -/
def Config.default : Config where
  tapsMax := 256
  interpolateShift := 12
  load8 := 16
  load2 := 8
  load1 := 4
  hasConvF := true
  hasRedv256 := true
  hasRedv128 := true
  merge := .interleave
  readable := AddrSet.all
  writable := AddrSet.all
  silent := []

/-- The constraints the spec puts on the parameters (R9, R124, R155). -/
abbrev Config.wf (c : Config) : Prop :=
  (2 ≤ c.tapsMax ∧ c.tapsMax ≤ 65536 ∧ c.tapsMax % 2 = 0) ∧
  (1 ≤ c.interpolateShift ∧ c.interpolateShift ≤ 14) ∧
  (8 ≤ c.load8 ∧ 2 ≤ c.load2 ∧ 1 ≤ c.load1)

/-- FREE VALUE: what the n-th read of a never-written `OFF[i]` gives (R38, log entry 5). -/
opaque Config.freeOff (n : Nat) : Word

/-- FREE VALUE: what the n-th read of a never-written `MANT[i]` gives (R38, log entry 5). -/
opaque Config.freeMant (n : Nat) : Mant

/-- FREE VALUE: the byte at an address that nothing has written (U2, R242, log entry 9). -/
opaque Config.unwrittenByte (a : Addr) : Byte

end Sys2Proof
end

