-- ==== Sys2Proof/Syntax.lean ====
section
/-! DEFINITION. The nine commands (spec/30_encoding.md R84), one constructor per row of spec/opcode_table.json. -/

namespace Sys2Proof

/-- The parameter registers by name, `P[0]` to `P[11]` in this order (spec/10_state.md R21). -/
inductive Param where
  | outBase
  | outStride
  | inBase
  | inStride
  | rectLeft
  | rectTop
  | rectWidth
  | rectHeight
  | ne
  | nnz
  | outOffset
  | exponent
  deriving DecidableEq, Repr

/-- A command with its operands (R83). -/
inductive Instr where
  /-- SETCAP L (R191). -/
  | setcap (l : BitVec 3)
  /-- SETP k, V (R194). -/
  | setp (k : Param) (v : Word)
  /-- SETOFF i, V (R196). -/
  | setoff (i : Nat) (v : Word)
  /-- SETMANT i, V (R197). -/
  | setmant (i : Nat) (v : Mant)
  /-- SETMANT2 i, V0, V1 (R198). -/
  | setmant2 (i : Nat) (v0 v1 : Mant)
  /-- CONV.V (R130). -/
  | convV
  /-- CONV.F (R150). -/
  | convF
  /-- REDV.256 (R170). -/
  | redv256
  /-- REDV.128 (R171). -/
  | redv128
  deriving DecidableEq, Repr

/-- Which command, without its operands: the content of `SEQ.OP` (spec/10_state.md R29). -/
inductive Command where
  | setcap
  | setp
  | setoff
  | setmant
  | setmant2
  | convV
  | convF
  | redv256
  | redv128
  deriving DecidableEq, Repr

def Instr.command : Instr → Command
  | .setcap _ => .setcap
  | .setp _ _ => .setp
  | .setoff _ _ => .setoff
  | .setmant _ _ => .setmant
  | .setmant2 _ _ _ => .setmant2
  | .convV => .convV
  | .convF => .convF
  | .redv256 => .redv256
  | .redv128 => .redv128

end Sys2Proof
end

