-- ==== Sys2Proof/WellFormed.lean ====
section
/-! DEFINITION. Which instructions are legal commands of a build (spec/30_encoding.md R85, R86 case 2). -/

namespace Sys2Proof

/-- The legal values of a `SETP` (R85, R195): only `NNZ` and `EXPONENT` are checked. -/
def Param.legal (cfg : Config) (k : Param) (v : Word) : Bool :=
  match k with
  | .nnz => decide (v.toNat ≤ cfg.tapsMax)
  | .exponent => decide (v.toNat ≤ 31)
  | .outBase => true
  | .outStride => true
  | .inBase => true
  | .inStride => true
  | .rectLeft => true
  | .rectTop => true
  | .rectWidth => true
  | .rectHeight => true
  | .ne => true
  | .outOffset => true

/-- The instruction is a legal command of the build (R85, R86). -/
def Instr.wf (cfg : Config) (i : Instr) : Bool :=
  match i with
  | .setcap l => decide (l.toNat ≤ maxLogn)
  | .setp k v => k.legal cfg v
  | .setoff n _ => decide (n < cfg.tapsMax)
  | .setmant n _ => decide (n < cfg.tapsMax)
  | .setmant2 n _ _ => decide (n < cfg.tapsMax) && decide (n % 2 = 0)
  | .convV => true
  | .convF => cfg.hasConvF
  | .redv256 => cfg.hasRedv256
  | .redv128 => cfg.hasRedv128

end Sys2Proof
end

