-- ==== Sys2Proof/Decode.lean ====
section
/-! DEFINITION. Command words to instructions and back (spec/30_encoding.md R82 to R87). Decoding is a total function of
the word and the implementation parameters (R87); it rejects by the two decode causes of R86. -/

namespace Sys2Proof

/-- The two ways a word fails to be a legal command (R86, R210 codes 1 and 2). -/
inductive DecodeError where
  | illegalCommand
  | illegalOperand
  deriving DecidableEq, Repr

/-- What decoding a word gives. -/
inductive Decoded where
  | legal (i : Instr)
  | illegal (e : DecodeError)
  deriving DecidableEq, Repr

/-- Register number `k` of a parameter register (R21). -/
def Param.num : Param → Nat
  | .outBase => 0
  | .outStride => 1
  | .inBase => 2
  | .inStride => 3
  | .rectLeft => 4
  | .rectTop => 5
  | .rectWidth => 6
  | .rectHeight => 7
  | .ne => 8
  | .nnz => 9
  | .outOffset => 10
  | .exponent => 11

/-- The parameter register numbered `k`, for `k <= 11` (R21, R85). -/
def Param.ofNum : Nat → Option Param
  | 0 => some .outBase
  | 1 => some .outStride
  | 2 => some .inBase
  | 3 => some .inStride
  | 4 => some .rectLeft
  | 5 => some .rectTop
  | 6 => some .rectWidth
  | 7 => some .rectHeight
  | 8 => some .ne
  | 9 => some .nnz
  | 10 => some .outOffset
  | 11 => some .exponent
  | _ => none

/-- The opcode of a command (R84). -/
def Command.opcode : Command → BitVec 8
  | .setcap => 0x01#8
  | .setp => 0x02#8
  | .setoff => 0x03#8
  | .setmant => 0x04#8
  | .setmant2 => 0x05#8
  | .convV => 0x10#8
  | .convF => 0x11#8
  | .redv256 => 0x12#8
  | .redv128 => 0x13#8

/-- The command of an opcode; every other value of `op` is undefined (R84). -/
def Command.ofOpcode (op : BitVec 8) : Option Command :=
  match op.toNat with
  | 0x01 => some .setcap
  | 0x02 => some .setp
  | 0x03 => some .setoff
  | 0x04 => some .setmant
  | 0x05 => some .setmant2
  | 0x10 => some .convV
  | 0x11 => some .convF
  | 0x12 => some .redv256
  | 0x13 => some .redv128
  | _ => none

/-- The build contains the command (R86 case 2). -/
def Config.builds (cfg : Config) : Command → Bool
  | .convF => cfg.hasConvF
  | .redv256 => cfg.hasRedv256
  | .redv128 => cfg.hasRedv128
  | .setcap => true
  | .setp => true
  | .setoff => true
  | .setmant => true
  | .setmant2 => true
  | .convV => true

/-- Bits 63:56 (R82). -/
def opField (w : CmdWord) : BitVec 8 := w.extractLsb' 56 8

/-- Bits 55:48 (R82). -/
def rsvField (w : CmdWord) : BitVec 8 := w.extractLsb' 48 8

/-- Bits 47:32 (R82). -/
def idxField (w : CmdWord) : BitVec 16 := w.extractLsb' 32 16

/-- Bits 31:0 (R82). -/
def immField (w : CmdWord) : BitVec 32 := w.extractLsb' 0 32

/-- Format F (R82): the word made of its four fields. -/
def formatF (op rsv : BitVec 8) (idx : BitVec 16) (imm : BitVec 32) : CmdWord :=
  op ++ rsv ++ idx ++ imm

/-- `SETP` operands (R85, R195). -/
def decodeSetp (cfg : Config) (idx : BitVec 16) (imm : BitVec 32) : Option Instr :=
  match Param.ofNum idx.toNat with
  | none => none
  | some k =>
    if k = .nnz ∧ cfg.tapsMax < imm.toNat then none
    else if k = .exponent ∧ 31 < imm.toNat then none
    else some (.setp k imm)

/-- A command that takes no operand: `idx = 0` and `imm = 0` (R85). -/
def decodeBare (i : Instr) (idx : BitVec 16) (imm : BitVec 32) : Option Instr :=
  if idx = 0#16 ∧ imm = 0#32 then some i else none

/-- The operands of a command from `idx` and `imm` (R83), under the constraints of R85; `none` where one fails. -/
def decodeOperands (cfg : Config) (c : Command) (idx : BitVec 16) (imm : BitVec 32) : Option Instr :=
  match c with
  | .setcap =>
    if idx = 0#16 ∧ imm.extractLsb' 3 29 = 0#29 ∧ (imm.extractLsb' 0 3).toNat ≤ maxLogn then
      some (.setcap (imm.extractLsb' 0 3))
    else none
  | .setp => decodeSetp cfg idx imm
  | .setoff => if idx.toNat < cfg.tapsMax then some (.setoff idx.toNat imm) else none
  | .setmant =>
    if idx.toNat < cfg.tapsMax ∧ imm.extractLsb' 16 16 = 0#16 then
      some (.setmant idx.toNat (imm.extractLsb' 0 16))
    else none
  | .setmant2 =>
    if idx.toNat < cfg.tapsMax ∧ idx.toNat % 2 = 0 then
      some (.setmant2 idx.toNat (imm.extractLsb' 0 16) (imm.extractLsb' 16 16))
    else none
  | .convV => decodeBare .convV idx imm
  | .convF => decodeBare .convF idx imm
  | .redv256 => decodeBare .redv256 idx imm
  | .redv128 => decodeBare .redv128 idx imm

/-- Decode, the four tests of R86 in their order. -/
def decode (cfg : Config) (w : CmdWord) : Decoded :=
  match Command.ofOpcode (opField w) with
  | none => .illegal .illegalCommand
  | some c =>
    if cfg.builds c = false then .illegal .illegalCommand
    else if rsvField w ≠ 0#8 then .illegal .illegalCommand
    else
      match decodeOperands cfg c (idxField w) (immField w) with
      | none => .illegal .illegalOperand
      | some i => .legal i

/-- The `idx` field of an instruction (R83). -/
def Instr.idx : Instr → BitVec 16
  | .setcap _ => 0#16
  | .setp k _ => BitVec.ofNat 16 k.num
  | .setoff i _ => BitVec.ofNat 16 i
  | .setmant i _ => BitVec.ofNat 16 i
  | .setmant2 i _ _ => BitVec.ofNat 16 i
  | .convV => 0#16
  | .convF => 0#16
  | .redv256 => 0#16
  | .redv128 => 0#16

/-- The `imm` field of an instruction (R83); a packed pair holds the lower-numbered tap in the low half. -/
def Instr.imm : Instr → BitVec 32
  | .setcap l => l.setWidth 32
  | .setp _ v => v
  | .setoff _ v => v
  | .setmant _ v => v.setWidth 32
  | .setmant2 _ v0 v1 => v1 ++ v0
  | .convV => 0#32
  | .convF => 0#32
  | .redv256 => 0#32
  | .redv128 => 0#32

/-- The command word of an instruction (R82 to R84), `rsv` zero. -/
def encode (i : Instr) : CmdWord :=
  formatF i.command.opcode 0#8 i.idx i.imm

/-- The instruction the decoder reads from a word given as a number, for the default parameters; a command is one word of
64 bits, so a larger number is no command. -/
def decodeTableWord (nbits w : Nat) : Option Instr :=
  if 2 ^ 64 ≤ w % 2 ^ nbits then none
  else
    match decode Config.default (BitVec.ofNat 64 (w % 2 ^ nbits)) with
    | .legal i => some i
    | .illegal _ => none

end Sys2Proof
end

