-- ==== Sys2Proof/Machine/Arith.lean ====
section
/-! DEFINITION. The integer arithmetic of the datapath (spec/00_scope.md R10, R11; spec/40_tap_model_and_primitives.md
R103 to R115): exact integers, narrowed explicitly at the end. -/

namespace Sys2Proof.Machine

/-- `wrap32(v)`: the signed 32-bit value with the same low 32 bits (R10). -/
def wrap32 (v : Int) : Int := v.bmod (2 ^ 32)

/-- `umod32(v)`: `v mod 2^32`, as an address or a register pattern (R10). -/
def umod32 (v : Int) : BitVec 32 := BitVec.ofInt 32 v

/-- `sra(a, k)`: floor of `a / 2^k` (R11, R113). -/
def sra (a : Int) (k : Nat) : Int := a / (2 ^ k : Int)

/-- `sat16(v)` (R11). -/
def sat16 (v : Int) : Int := min 32767 (max (-32768) v)

/-- `clamp_u8(v)` (R11, R114). -/
def clampU8 (v : Int) : Int := min 255 (max 0 v)

/-- The result byte of a value: `clamp_u8`, stored as one byte (R114, R119). -/
def toByte (v : Int) : Byte := BitVec.ofInt 8 (clampU8 v)

/-- `bias(e) = (1 << e) >> 1` (R103). -/
def bias (e : Nat) : Int := (((1 <<< e) >>> 1 : Nat) : Int)

/-- `pack(m0, m1)`: the lower-numbered tap in the low half (R106, R26). -/
def pack (m0 m1 : Mant) : BitVec 32 := m1 ++ m0

/-- `unpack(pw)` (R106). -/
def unpack (pw : BitVec 32) : Mant × Mant := (pw.extractLsb' 0 16, pw.extractLsb' 16 16)

/-- `mac32` (R111). -/
def mac32 (a m0 s0 m1 s1 : Int) : Int := wrap32 (a + m0 * s0 + m1 * s1)

/-- `mac32_1(a, m, s) = mac32(a, m, s, 0, 0)` (R111, R106). -/
def mac32Single (a m s : Int) : Int := mac32 a m s 0 0

/-- `pmac16` (R112): the pair sum is exact before its saturation. -/
def pmac16 (a m0 s0 m1 s1 : Int) : Int := sat16 (a + sat16 (m0 * s0 + m1 * s1))

/-- `pmac16_1(a, m, s) = pmac16(a, m, s, 0, 0)` (R112, R106). -/
def pmac16Single (a m s : Int) : Int := pmac16 a m s 0 0

/-- `out_conv(a, e, off)`: the exact sum, then the clamp (R115). -/
def outConv (a : Int) (e : Nat) (off : Int) : Byte := toByte (sra a e + off)

/-- `out_red(a)` for the shift `sh` = `INTERPOLATE_SHIFT` (R115). -/
def outRed (sh : Nat) (a : Int) : Byte := toByte (sra a sh)

/-- `REDV_BIAS` = bias(INTERPOLATE_SHIFT) (R9, R103). -/
def redvBias (cfg : Config) : Int := bias cfg.interpolateShift

/-- The even-numbered entries of a list of lanes: bank `E` (spec/41_conv_vector.md R139). -/
def evenLanes {α : Type} : List α → List α
  | [] => []
  | [a] => [a]
  | a :: _ :: rest => a :: evenLanes rest

/-- The odd-numbered entries of a list of lanes: bank `O` (R139). -/
def oddLanes {α : Type} : List α → List α
  | [] => []
  | [_] => []
  | _ :: b :: rest => b :: oddLanes rest

/-- The two banks interleaved back into lane order (R139). -/
def interleave {α : Type} : List α → List α → List α
  | [], _ => []
  | a :: _, [] => [a]
  | a :: es, b :: os => a :: b :: interleave es os

/-- The merge of the even and odd accumulators before the output stage, by strategy; `promote` keeps no banks (R139). -/
def mergeLanes {α : Type} (m : MergeStrategy) (lanes : List α) : List α :=
  match m with
  | .interleave => interleave (evenLanes lanes) (oddLanes lanes)
  | .promote => lanes

end Sys2Proof.Machine
end

