-- ==== Sys2Proof/Machine/State.lean ====
section
/-! DEFINITION. The state of one engine instance (spec/10_state.md R20 to R38), with the memory, the command stream, the
reset input and the implementation parameters it works beside (log entries 1, 9, 10, 12), and the reasons a step can stop. -/

namespace Sys2Proof.Machine

/-- The parameter registers `P[0]` to `P[11]` (R21), 32 bits each. -/
structure Params where
  outBase : Word
  outStride : Word
  inBase : Word
  inStride : Word
  rectLeft : Word
  rectTop : Word
  /-- Stored and never read (R23). -/
  rectWidth : Word
  rectHeight : Word
  ne : Word
  nnz : Word
  outOffset : Word
  exponent : Word
  deriving DecidableEq, Repr

/-- The capability register `CAP` (R24). -/
structure Cap where
  valid : Bool
  logn : BitVec 3
  deriving DecidableEq, Repr

/-- One entry of the tap table (R25). `offWritten` and `mantWritten` say that a command has written the half since reset; a
half that none has written holds an unspecified value (R38, log entry 5). -/
structure Tap where
  off : Word
  offWritten : Bool
  mant : Mant
  mantWritten : Bool
  deriving DecidableEq, Repr

/-- The fault record `FAULT` (R27). -/
structure FaultRecord where
  halted : Bool
  cause : BitVec 4
  info : BitVec 64
  deriving DecidableEq, Repr

/-- The sequencer `SEQ` (R29). Counters are natural numbers: nothing wraps (R30 (c)). -/
structure Seq where
  busy : Bool
  op : Command
  r : Nat
  /-- The row coordinate, a 32-bit two's-complement pattern (R29, R135). -/
  y : BitVec 32
  x : Nat
  w : Nat
  i : Nat
  deriving DecidableEq, Repr

/-- The accumulator lanes `ACC[c]` of the current block (R31): signed 32-bit for `CONV.V` and `REDV.*`, signed 16-bit for
`CONV.F`. -/
inductive AccFile where
  | wide (lanes : List (BitVec 32))
  | narrow (lanes : List (BitVec 16))
  deriving DecidableEq, Repr

/-- The two kinds of access the memory port carries (spec/20_memory.md R56). -/
inductive AccessKind where
  | read
  | write
  deriving DecidableEq, Repr

/-- One access issued on the memory port: `R addr xlen` or `W addr xlen` of the spec's access logs. -/
structure Access where
  kind : AccessKind
  addr : Addr
  len : Nat
  deriving DecidableEq, Repr

/-- Memory as pairs of address and byte, addresses strictly rising; a byte that is not listed has not been written
(log entry 9). -/
abbrev Memory := List Host.Cell

/-- The whole state: the engine's (R20) and what stands beside it. -/
structure State where
  /-- The implementation parameters: constant for the life of an instance (R20, log entry 1). -/
  cfg : Config
  params : Params
  cap : Cap
  taps : List Tap
  fault : FaultRecord
  seq : Seq
  acc : AccFile
  /-- The data memory of spec/20_memory.md R50: the platform's. -/
  mem : Memory
  /-- The words the host holds for the command port, the presented one first (spec/30_encoding.md R81, log entry 10). -/
  cmds : List CmdWord
  /-- The reset input: `none` released; `some k`, the host asserts it after `k` more memory accesses
  (spec/70_reset_and_hazards.md R240, R241, log entry 12). -/
  resetAfter : Option Nat
  /-- How many free values the reads of never-written tap halves have used (log entry 5). -/
  free : Nat
  /-- The accesses issued so far, newest first (log entry 13). -/
  bus : List Access
  deriving DecidableEq, Repr

/-- The reasons the machine stops for good. -/
inductive Fault where
  /-- The memory port never answers an access, so the operation never retires and `busy` stays 1
  (spec/93_implementation_defined.md U12: stuck). Raised by an access of an operation command. Safe: the hardware does
  nothing more either. -/
  | portNeverAnswers
  deriving DecidableEq, Repr

/-- The reasons the model gives a step no meaning. -/
inductive Refusal where
  /-- An instruction without a meaning yet: raised by no arm of this model. Safe. -/
  | notModelled (mnemonic : String)
  /-- A step that begins with `SEQ.BUSY` = 1, in the middle of an operation: the model runs a command whole (R8), so no run
  reaches such a state (log entry 15). Raised by `step` only. Safe. -/
  | operationInProgress
  deriving DecidableEq, Repr

/-- An entry of the tap table that no command has written since reset (R37, R38); the two zeros are placeholders that no
operation reads (log entry 6). -/
def Tap.unwritten : Tap where
  off := 0
  offWritten := false
  mant := 0
  mantWritten := false

/-- `P[0]` to `P[11]` after reset: 0 each (R37). -/
def Params.reset : Params where
  outBase := 0
  outStride := 0
  inBase := 0
  inStride := 0
  rectLeft := 0
  rectTop := 0
  rectWidth := 0
  rectHeight := 0
  ne := 0
  nnz := 0
  outOffset := 0
  exponent := 0

/-- `CAP` after reset (R37). -/
def Cap.reset : Cap where
  valid := false
  logn := 0

/-- `FAULT` after reset (R37). -/
def FaultRecord.reset : FaultRecord where
  halted := false
  cause := 0
  info := 0

/-- `SEQ` after reset: `BUSY` is 0 (R37); the other fields are unspecified and never read before written, and the values
here are a DESIGN CHOICE (log entry 7). -/
def Seq.reset : Seq where
  busy := false
  op := .setcap
  r := 0
  y := 0
  x := 0
  w := 0
  i := 0

/-- `ACC` after reset: no value outside a block (R31); a DESIGN CHOICE (log entry 7). -/
def AccFile.reset : AccFile := .wide []

/-- The machine right after reset (R37), with the default parameters, no memory written, no word presented, the reset
input released. -/
def State.reset : State where
  cfg := Config.default
  params := Params.reset
  cap := Cap.reset
  taps := List.replicate Config.default.tapsMax Tap.unwritten
  fault := FaultRecord.reset
  seq := Seq.reset
  acc := AccFile.reset
  mem := []
  cmds := []
  resetAfter := none
  free := 0
  bus := []

end Sys2Proof.Machine
end

