-- ==== Sys2Proof/Machine/Ops.lean ====
section
/-! DEFINITION. The shared operations: memory bytes, the two accesses of the memory port (spec/20_memory.md), fault entry
(spec/60_exceptions.md R218), reset (spec/70_reset_and_hazards.md R240, R241), retire (spec/30_encoding.md R81), the
registers and the tap table (spec/10_state.md). Taking a fault is a next state; its only return is reset (R221). -/

namespace Sys2Proof.Machine

/-! ### Memory as data -/

/-- The byte written at a key, if any. -/
def Memory.read? : Memory → Nat → Option Byte
  | [], _ => none
  | (k, b) :: m, a => if k = a then some b else Memory.read? m a

/-- The memory with one byte written, in canonical form. -/
def Memory.write : Memory → Nat → Byte → Memory
  | [], a, b => [(a, b)]
  | (k, c) :: m, a, b =>
    if a < k then (a, b) :: (k, c) :: m
    else if a = k then (a, b) :: m
    else (k, c) :: Memory.write m a b

/-- Every key lies at or above `lo` and below 2^32, and the keys rise strictly. -/
def Memory.wfFrom (lo : Nat) : Memory → Bool
  | [] => true
  | (k, _) :: m => decide (lo ≤ k) && decide (k < 2 ^ 32) && Memory.wfFrom (k + 1) m

/-- The canonical form: addresses of the space (R50), strictly rising. No entry equals what an unlisted address reads as,
because an unlisted address holds no written value (log entry 9). -/
def Memory.wf (m : Memory) : Bool := Memory.wfFrom 0 m

/-- The byte at an address: the one last written there, or the free value of an address nothing has written (R60, U2). -/
def State.byteAt (s : State) (a : Addr) : Byte :=
  (Memory.read? s.mem a.toNat).getD (Config.unwrittenByte a)

/-- One byte stored. -/
def State.storeByte (s : State) (a : Addr) (b : Byte) : State :=
  { s with mem := Memory.write s.mem a.toNat b }

/-- The address of byte `j` of an access at `a`, modulo 2^32 (R13, R55). -/
def byteAddr (a : Addr) (j : Nat) : Addr := a + BitVec.ofNat 32 j

/-- The addresses of an access of `n` bytes at `a`, in ascending order (R57, R59). -/
def span (a : Addr) (n : Nat) : List Addr := (List.range n).map (byteAddr a)

/-- The bytes `b[0], b[1], …` stored at `a`, `a + 1`, … in this order (R13, R59). -/
def storeBytes (a : Addr) : List Byte → State → State
  | [], s => s
  | b :: bs, s => storeBytes (a + 1#32) bs (s.storeByte a b)

/-! ### Fault entry, retire, reset -/

/-- The causes of a fault (R210). -/
inductive Cause where
  | illegalCommand
  | illegalOperand
  | capUnset
  | capRewrite
  | busRead
  | busWrite
  deriving DecidableEq, Repr

/-- The code of a cause (R210). -/
def Cause.code : Cause → BitVec 4
  | .illegalCommand => 1
  | .illegalOperand => 2
  | .capUnset => 3
  | .capRewrite => 4
  | .busRead => 5
  | .busWrite => 6

/-- The cause a decode error raises (R86). -/
def causeOfDecode : DecodeError → Cause
  | .illegalCommand => .illegalCommand
  | .illegalOperand => .illegalOperand

/-- Fault entry: `raise <Fault>(info)`, one atomic step that changes nothing else (R218). -/
def State.raise (c : Cause) (info : BitVec 64) (s : State) : State :=
  { s with
    fault := { halted := true, cause := c.code, info := info }
    seq := { s.seq with busy := false } }

/-- Retire: the command is done and `SEQ.BUSY` returns to 0 (R81). -/
def State.retire (s : State) : State :=
  { s with seq := { s.seq with busy := false } }

/-- The reset input asserted and released (R240, R241): the engine's state takes its reset values; memory and what the
host holds stay (R242, log entry 12). In the middle of an operation memory keeps exactly the bytes of the accesses performed,
R241's outcome on the hardware, and not the `any value` that U16 recommends to a model (DESIGN CHOICE, log entry 27). -/
def State.engineReset (s : State) : State :=
  { s with
    params := Params.reset
    cap := Cap.reset
    taps := List.replicate s.cfg.tapsMax Tap.unwritten
    fault := FaultRecord.reset
    seq := Seq.reset
    acc := AccFile.reset
    resetAfter := none }

/-! ### What an operation does next -/

/-- The result of a part of a command: it goes on with a value and a state, or the command ends early (fault entry, reset,
or a memory port that never answers). -/
inductive Flow (α : Type) where
  | go (a : α) (s : State)
  | stop (o : Host.Outcome State Fault Refusal)

/-- One part after another. -/
def Flow.andThen {α β : Type} (f : Flow α) (k : α → State → Flow β) : Flow β :=
  match f with
  | .go a s => k a s
  | .stop o => .stop o

/-- A part for each element of a list, in order. -/
def Flow.each {β : Type} : List β → (β → State → Flow Unit) → State → Flow Unit
  | [], _, s => .go () s
  | b :: bs, body, s => (body b s).andThen fun _ s' => Flow.each bs body s'

/-- The end of a command: it retires, or has ended early. -/
def Flow.finish (f : Flow Unit) : Host.Outcome State Fault Refusal :=
  match f with
  | .go _ s => .next s.retire
  | .stop o => o

/-! ### The memory port -/

/-- Membership in a set of addresses. -/
def AddrRange.has (r : AddrRange) (a : Addr) : Bool :=
  decide (r.base ≤ a.toNat) && decide (a.toNat < r.base + r.size)

def addrIn (set : AddrSet) (a : Addr) : Bool := set.any fun r => AddrRange.has r a

/-- `Readable` for a read, `Writable` for a write (R67, R68). -/
def backing (cfg : Config) : AccessKind → AddrSet
  | .read => cfg.readable
  | .write => cfg.writable

/-- Every byte of the access lies in the set the access needs (R68). -/
def Access.backed (cfg : Config) (x : Access) : Bool :=
  (span x.addr x.len).all (addrIn (backing cfg x.kind))

/-- The memory port answers the access, with data or with an error (U12). -/
def Access.answered (cfg : Config) (x : Access) : Bool :=
  !(span x.addr x.len).any (addrIn cfg.silent)

/-- The bus fault of an access (R210 codes 5 and 6). -/
def busCause : AccessKind → Cause
  | .read => .busRead
  | .write => .busWrite

/-- The access is on the port: it is logged, and one access of the reset input's delay has passed. -/
def State.logAccess (x : Access) (s : State) : State :=
  { s with bus := x :: s.bus, resetAfter := s.resetAfter.map (· - 1) }

/-- Issue an access. Where the reset input is asserted, the operation is abandoned and nothing is issued (R241); the accesses
before it stay performed, so the output range holds known bytes (log entry 27). A refused access raises `BusFault` with its
start address (R215, R216). -/
def issue (x : Access) (s : State) : Flow Unit :=
  if s.resetAfter = some 0 then .stop (.next s.engineReset)
  else if x.answered s.cfg = false then .stop (.fault .portNeverAnswers)
  else if x.backed s.cfg = false then
    .stop (.next ((s.logAccess x).raise (busCause x.kind) (x.addr.setWidth 64)))
  else .go () (s.logAccess x)

/-- `MemRead(addr, n)` (R13, R108). -/
def memRead (a : Addr) (n : Nat) (s : State) : Flow (List Byte) :=
  (issue { kind := .read, addr := a, len := n } s).andThen fun _ s1 => .go ((span a n).map s1.byteAt) s1

/-- `MemWrite(addr, n, b)`, `n` the number of bytes of `b` (R13, R109). -/
def memWrite (a : Addr) (bs : List Byte) (s : State) : Flow Unit :=
  (issue { kind := .write, addr := a, len := bs.length } s).andThen fun _ s1 => .go () (storeBytes a bs s1)

/-! ### Registers and the tap table -/

/-- `P[k]` (R12, R21). -/
def Params.get (p : Params) : Param → Word
  | .outBase => p.outBase
  | .outStride => p.outStride
  | .inBase => p.inBase
  | .inStride => p.inStride
  | .rectLeft => p.rectLeft
  | .rectTop => p.rectTop
  | .rectWidth => p.rectWidth
  | .rectHeight => p.rectHeight
  | .ne => p.ne
  | .nnz => p.nnz
  | .outOffset => p.outOffset
  | .exponent => p.exponent

/-- `P[k] <- v` (R12, R21). -/
def Params.set (p : Params) (k : Param) (v : Word) : Params :=
  match k with
  | .outBase => { p with outBase := v }
  | .outStride => { p with outStride := v }
  | .inBase => { p with inBase := v }
  | .inStride => { p with inStride := v }
  | .rectLeft => { p with rectLeft := v }
  | .rectTop => { p with rectTop := v }
  | .rectWidth => { p with rectWidth := v }
  | .rectHeight => { p with rectHeight := v }
  | .ne => { p with ne := v }
  | .nnz => { p with nnz := v }
  | .outOffset => { p with outOffset := v }
  | .exponent => { p with exponent := v }

/-- Entry `i` of the tap table; an entry the table does not have counts as never written (log entry 26). -/
def State.tapAt (s : State) (i : Nat) : Tap := (s.taps[i]?).getD Tap.unwritten

/-- `OFF[i] <- v` (R25, R196). -/
def State.writeOff (s : State) (i : Nat) (v : Word) : State :=
  { s with taps := s.taps.set i { s.tapAt i with off := v, offWritten := true } }

/-- `MANT[i] <- v` (R25, R197). -/
def State.writeMant (s : State) (i : Nat) (v : Mant) : State :=
  { s with taps := s.taps.set i { s.tapAt i with mant := v, mantWritten := true } }

/-- A read of `OFF[i]`: the value written, or a fresh free value (R38, log entry 5). -/
def readOff (i : Nat) (s : State) : Word × State :=
  if (s.tapAt i).offWritten then ((s.tapAt i).off, s)
  else (Config.freeOff s.free, { s with free := s.free + 1 })

/-- A read of `MANT[i]`: the value written, or a fresh free value (R38, log entry 5). -/
def readMant (i : Nat) (s : State) : Mant × State :=
  if (s.tapAt i).mantWritten then ((s.tapAt i).mant, s)
  else (Config.freeMant s.free, { s with free := s.free + 1 })

/-- A read of the packed word `MANTW[w]` (R26). -/
def readMantw (w : Nat) (s : State) : BitVec 32 × State :=
  let m0 := readMant (2 * w) s
  let m1 := readMant (2 * w + 1) m0.2
  (pack m0.1 m1.1, m1.2)

/-- A read of the mantissa pair of taps `i` and `i + 1`, `i` even: `unpack(MANTW[i >> 1])` (R106). -/
def readMantPair (i : Nat) (s : State) : (Mant × Mant) × State :=
  let pw := readMantw (i / 2) s
  (unpack pw.1, pw.2)

end Sys2Proof.Machine
end

