-- ==== Sys2Proof/Machine/Operands.lean ====
section
/-! DEFINITION. What an operation takes from the parameter registers and the tap table: signed readings, the address
functions (spec/20_memory.md R51 to R54), the lane count, the row count, the split of a row into blocks. -/

namespace Sys2Proof.Machine

/-! ### Parameters as they are read -/

/-- `e` = P[EXPONENT], unsigned (R21, R102). -/
def Params.e (p : Params) : Nat := p.exponent.toNat

/-- `nnz` = P[NNZ], unsigned (R21). -/
def Params.tapCount (p : Params) : Nat := p.nnz.toNat

/-- `ne` = P[NE], unsigned (R21, R136). -/
def Params.columns (p : Params) : Nat := p.ne.toNat

/-- `off` = sext_32(P[OUT_OFFSET]) (R104). -/
def Params.off (p : Params) : Int := p.outOffset.toInt

/-- `rows` = max(sext_32(P[RECT_HEIGHT]), 0) (R130, R135). -/
def Params.rows (p : Params) : Nat := p.rectHeight.toInt.toNat

/-- `y` of row `r`: wrap32(sext_32(P[RECT_TOP]) + r), as a pattern (R130, R135). -/
def Params.rowY (p : Params) (r : Nat) : BitVec 32 := p.rectTop + BitVec.ofNat 32 r

/-- The lane count `N` = 2^CAP.LOGN (R24, R192). -/
def Cap.lanes (c : Cap) : Nat := 2 ^ c.logn.toNat

/-! ### Addresses -/

/-- `address(B, S, x, y)`, all modulo 2^32 (R51). -/
def regionAddr (base stride : Word) (x : BitVec 32) (y : BitVec 32) : Addr := base + y * stride + x

/-- `A_in(y, x)` (R52). -/
def aIn (p : Params) (y : BitVec 32) (x : Nat) : Addr :=
  regionAddr p.inBase p.inStride (p.rectLeft + BitVec.ofNat 32 x) y

/-- `A_out(y, x)` (R53): the left edge does not enter. -/
def aOut (p : Params) (y : BitVec 32) (x : Nat) : Addr :=
  regionAddr p.outBase p.outStride (BitVec.ofNat 32 x) y

/-- `A_red(x, r)` (R54). -/
def aRed (p : Params) (x r : Nat) : Addr := p.inBase + BitVec.ofNat 32 r * p.inStride + BitVec.ofNat 32 x

/-- `A_redout(x)` (R54). -/
def aRedOut (p : Params) (x : Nat) : Addr := p.outBase + BitVec.ofNat 32 x

/-! ### The split of a row into blocks -/

/-- A block: its first column and its width. -/
structure Block where
  x : Nat
  w : Nat
  deriving DecidableEq, Repr

/-- `count` blocks of width `w` at columns `x`, `x + w`, … -/
def blocksFrom (x w count : Nat) : List Block :=
  (List.range count).map fun k => { x := x + k * w, w := w }

/-- The blocks of a row of `CONV.V`: floor(ne / N) of width `N`, then ne mod N of width 1 (R132). -/
def blocksV (n ne : Nat) : List Block :=
  blocksFrom 0 n (ne / n) ++ blocksFrom (ne / n * n) 1 (ne % n)

/-- The blocks of a row of `CONV.F` and `REDV.*`: width 8, then 2, then 1 (R152, R172). -/
def blocks821 (ne : Nat) : List Block :=
  blocksFrom 0 8 (ne / 8) ++ blocksFrom (ne / 8 * 8) 2 (ne % 8 / 2) ++ blocksFrom (ne / 2 * 2) 1 (ne % 2)

end Sys2Proof.Machine
end

