-- ==== Sys2Proof/Machine/Kernel.lean ====
section
/-! DEFINITION. The block procedures of the four operation commands, written once: `block32`
(spec/41_conv_vector.md R133), `block16` (spec/42_conv_fixed.md R153), `blockR` (spec/43_reducev.md R173). They share the
order of reads, the pairing of taps and the one write; a kernel says what differs. -/

namespace Sys2Proof.Machine

/-- Which block procedure runs. -/
inductive Kernel where
  /-- `block32`: 32-bit wrapping accumulators, offsets from the tap table. -/
  | conv32
  /-- `block16`: 16-bit saturating accumulators, wide loads. -/
  | conv16
  /-- `blockR`: 32-bit wrapping accumulators, rows spaced by the input stride. -/
  | redv
  deriving DecidableEq, Repr

/-- Bytes fetched per tap by a block of width `w` (R56; `CONVF_LOAD_BYTES`, R155). -/
def Kernel.loadBytes (cfg : Config) (k : Kernel) (w : Nat) : Nat :=
  match k with
  | .conv32 => w
  | .conv16 => if w = 8 then cfg.load8 else if w = 2 then cfg.load2 else cfg.load1
  | .redv => w

/-- The accumulator at the start of a block (R133, R153, R173). -/
def Kernel.init (cfg : Config) (p : Params) (k : Kernel) : Int :=
  match k with
  | .conv32 => bias p.e
  | .conv16 => sat16 (bias p.e)
  | .redv => redvBias cfg

/-- One tap pair of one lane (R111, R112). -/
def Kernel.mac (k : Kernel) (a m0 s0 m1 s1 : Int) : Int :=
  match k with
  | .conv32 => mac32 a m0 s0 m1 s1
  | .conv16 => pmac16 a m0 s0 m1 s1
  | .redv => mac32 a m0 s0 m1 s1

/-- The final odd tap of one lane (R111, R112). -/
def Kernel.macSingle (k : Kernel) (a m s : Int) : Int :=
  match k with
  | .conv32 => mac32Single a m s
  | .conv16 => pmac16Single a m s
  | .redv => mac32Single a m s

/-- The lanes as signed integers. -/
def AccFile.values : AccFile → List Int
  | .wide lanes => lanes.map BitVec.toInt
  | .narrow lanes => lanes.map BitVec.toInt

/-- Signed integers into the lanes of the kernel's width (R31). -/
def Kernel.accFile (k : Kernel) (vals : List Int) : AccFile :=
  match k with
  | .conv32 => .wide (vals.map (BitVec.ofInt 32))
  | .conv16 => .narrow (vals.map (BitVec.ofInt 16))
  | .redv => .wide (vals.map (BitVec.ofInt 32))

/-- The result byte of a final accumulator (R115). -/
def Kernel.out (cfg : Config) (p : Params) (k : Kernel) (a : Int) : Byte :=
  match k with
  | .conv32 => outConv a p.e p.off
  | .conv16 => outConv a p.e p.off
  | .redv => outRed cfg.interpolateShift a

/-- The destination of the block's write (R53, R54). -/
def Kernel.dst (p : Params) (k : Kernel) (y : BitVec 32) (x : Nat) : Addr :=
  match k with
  | .conv32 => aOut p y x
  | .conv16 => aOut p y x
  | .redv => aRedOut p x

/-- The source address of tap `i` for the block at column `x` (R52, R54); the convolutions read `OFF[i]`. -/
def Kernel.tapSrc (p : Params) (k : Kernel) (y : BitVec 32) (x i : Nat) (s : State) : Addr × State :=
  match k with
  | .conv32 => (aIn p y x + (readOff i s).1, (readOff i s).2)
  | .conv16 => (aIn p y x + (readOff i s).1, (readOff i s).2)
  | .redv => (aRed p x i, s)

/-- A sample widened without change of value (R110). -/
def sample (b : Byte) : Int := (b.toNat : Int)

/-- The lanes after a tap pair; lane `c` uses byte `c` of each load, and bytes past the last lane are ignored (R57, R153). -/
def Kernel.macLanes (k : Kernel) (m0 m1 : Mant) (lanes : List Int) (v0 v1 : List Byte) : List Int :=
  List.zipWith (fun a (s : Byte × Byte) => k.mac a m0.toInt (sample s.1) m1.toInt (sample s.2)) lanes (List.zip v0 v1)

/-- The lanes after the final odd tap. -/
def Kernel.macLanesSingle (k : Kernel) (m : Mant) (lanes : List Int) (v : List Byte) : List Int :=
  List.zipWith (fun a s => k.macSingle a m.toInt (sample s)) lanes v

/-- The state as a tap step leaves it: the lanes and the next tap index (R30 (b)). -/
def State.afterTaps (s : State) (acc : AccFile) (i : Nat) : State :=
  { s with acc := acc, seq := { s.seq with i := i } }

/-- One tap pair: two reads, the lower tap first, then the accumulate (R133, R153, R173). -/
def tapPair (k : Kernel) (p : Params) (y : BitVec 32) (b : Block) (i : Nat) (s : State) : Flow Unit :=
  let a0 := k.tapSrc p y b.x i s
  (memRead a0.1 (k.loadBytes s.cfg b.w) a0.2).andThen fun v0 s1 =>
    let a1 := k.tapSrc p y b.x (i + 1) s1
    (memRead a1.1 (k.loadBytes s.cfg b.w) a1.2).andThen fun v1 s2 =>
      let m := readMantPair i s2
      .go () (m.2.afterTaps (k.accFile (k.macLanes m.1.1 m.1.2 s.acc.values v0 v1)) (i + 2))

/-- The final odd tap, handled singly (R133, R153, R173). -/
def tapSingle (k : Kernel) (p : Params) (y : BitVec 32) (b : Block) (i : Nat) (s : State) : Flow Unit :=
  let a0 := k.tapSrc p y b.x i s
  (memRead a0.1 (k.loadBytes s.cfg b.w) a0.2).andThen fun v0 s1 =>
    let m := readMant i s1
    .go () (m.2.afterTaps (k.accFile (k.macLanesSingle m.1 s.acc.values v0)) (i + 1))

/-- The taps of a block from tap `i` on, `n` of them: pairs while two remain, then one (R107). -/
def runTaps (k : Kernel) (p : Params) (y : BitVec 32) (b : Block) : Nat → Nat → State → Flow Unit
  | 0, _, s => .go () s
  | 1, i, s => tapSingle k p y b i s
  | n + 2, i, s => (tapPair k p y b i s).andThen fun _ s' => runTaps k p y b n (i + 2) s'

/-- The state at the start of a block: the sequencer at its first tap and every lane at the rounding bias. -/
def State.beginBlock (s : State) (k : Kernel) (p : Params) (b : Block) : State :=
  { s with
    seq := { s.seq with x := b.x, w := b.w, i := 0 }
    acc := k.accFile (List.replicate b.w (k.init s.cfg p)) }

/-- The result bytes of a block from its final accumulators; `CONV.V` merges its two banks first (R139). -/
def Kernel.results (cfg : Config) (p : Params) (k : Kernel) (acc : AccFile) : List Byte :=
  match k with
  | .conv32 => (mergeLanes cfg.merge acc.values).map (k.out cfg p)
  | .conv16 => acc.values.map (k.out cfg p)
  | .redv => acc.values.map (k.out cfg p)

/-- `x` by `w` after a block (R30 (b)). -/
def State.endBlock (s : State) (b : Block) : State :=
  { s with seq := { s.seq with x := b.x + b.w } }

/-- One block: all its reads, then its one write (R61, R133, R153, R173). -/
def runBlock (k : Kernel) (p : Params) (y : BitVec 32) (b : Block) (s : State) : Flow Unit :=
  (runTaps k p y b p.tapCount 0 (s.beginBlock k p b)).andThen fun _ s1 =>
    (memWrite (k.dst p y b.x) (k.results s1.cfg p s1.acc) s1).andThen fun _ s2 => .go () (s2.endBlock b)

/-- The sequencer at the start of a row (R29). -/
def State.beginRow (s : State) (p : Params) (r : Nat) : State :=
  { s with seq := { s.seq with r := r, y := p.rowY r, x := 0 } }

/-- `r` by 1 after a row (R30 (b)). -/
def State.endRow (s : State) (r : Nat) : State :=
  { s with seq := { s.seq with r := r + 1 } }

/-- One row: its blocks left to right (R132, R152). -/
def runRow (k : Kernel) (p : Params) (blocks : List Block) (r : Nat) (s : State) : Flow Unit :=
  (Flow.each blocks (runBlock k p (p.rowY r)) (s.beginRow p r)).andThen fun _ s1 => .go () (s1.endRow r)

/-- An operation initialises the whole sequencer position before it reads any of it (R29); `y` is the row coordinate it begins
with. -/
def State.beginOperation (s : State) (y : BitVec 32) : State :=
  { s with seq := { s.seq with r := 0, y := y, x := 0, w := 0, i := 0 } }

/-- A convolution: its rows top to bottom (R130, R150), with the parameters it had at acceptance (R36). -/
def runConvolution (k : Kernel) (blocks : List Block) (s : State) : Host.Outcome State Fault Refusal :=
  (Flow.each (List.range s.params.rows) (runRow k s.params blocks) (s.beginOperation (s.params.rowY 0))).finish

/-- The reduction: one output row, no row loop (R170 to R173). It reads no `RECT_*` register (R54), so it has no row
coordinate; `SEQ.r` and `SEQ.y` are 0 (DESIGN CHOICE, log entry 8). -/
def runReduction (s : State) : Host.Outcome State Fault Refusal :=
  (Flow.each (blocks821 s.params.columns) (runBlock .redv s.params 0) (s.beginOperation 0)).finish

end Sys2Proof.Machine
end

