-- ==== Sys2Proof/Machine/Conv.lean ====
section
/-! DEFINITION. The convolution commands (spec/41_conv_vector.md, spec/42_conv_fixed.md). -/

namespace Sys2Proof.Machine

/-- CONV.V: `CapUnset` before any access where no capability code is latched, else the convolution in blocks of
`N` = 2^CAP.LOGN columns and a one-column tail (R130, R213). -/
def execConvV (s : State) : Host.Outcome State Fault Refusal :=
  if s.cap.valid = false then .next (s.raise .capUnset (encode .convV))
  else runConvolution .conv32 (blocksV s.cap.lanes s.params.columns) s

/-- CONV.F: the convolution in blocks of 8, 2, 1 columns with saturating 16-bit accumulators; `CAP` is not read (R150). -/
def execConvF (s : State) : Host.Outcome State Fault Refusal :=
  runConvolution .conv16 (blocks821 s.params.columns) s

end Sys2Proof.Machine
end

