-- ==== Sys2Proof/Machine/Redv.lean ====
section
/-! DEFINITION. The vertical reduction commands (spec/43_reducev.md). The two organisations differ only in which physical
registers hold the accumulators, which nothing can observe (R171, spec/10_state.md R32). -/

namespace Sys2Proof.Machine

/-- REDV.256 (R170). -/
def execRedv256 (s : State) : Host.Outcome State Fault Refusal := runReduction s

/-- REDV.128: identical to REDV.256, word for word (R171). -/
def execRedv128 (s : State) : Host.Outcome State Fault Refusal := runReduction s

end Sys2Proof.Machine
end

