-- ==== Sys2Proof/Machine/Setup.lean ====
section
/-! DEFINITION. The setup commands (spec/44_dispatch_and_setup.md): each retires after its single state write and makes no
memory access (R199). -/

namespace Sys2Proof.Machine

/-- SETCAP L: latch the capability code once; the same code again is a no-op, another one is `CapRewrite` (R191). The word
recorded is the command's own encoding (log entry 17). -/
def execSetcap (l : BitVec 3) (s : State) : Host.Outcome State Fault Refusal :=
  if s.cap.valid = false then .next { s with cap := { valid := true, logn := l } }.retire
  else if s.cap.logn = l then .next s.retire
  else .next (s.raise .capRewrite (encode (.setcap l)))

/-- SETP k, V: `P[k] <- V` (R194). -/
def execSetp (k : Param) (v : Word) (s : State) : Host.Outcome State Fault Refusal :=
  .next { s with params := s.params.set k v }.retire

/-- SETOFF i, V: `OFF[i] <- sext_32(imm)` (R196). -/
def execSetoff (i : Nat) (v : Word) (s : State) : Host.Outcome State Fault Refusal :=
  .next (s.writeOff i v).retire

/-- SETMANT i, V: `MANT[i] <- sext_16(imm[15:0])` (R197). -/
def execSetmant (i : Nat) (v : Mant) (s : State) : Host.Outcome State Fault Refusal :=
  .next (s.writeMant i v).retire

/-- SETMANT2 i, V0, V1: `(MANT[i], MANT[i+1]) <- unpack(imm)` (R198). -/
def execSetmant2 (i : Nat) (v0 v1 : Mant) (s : State) : Host.Outcome State Fault Refusal :=
  .next ((s.writeMant i v0).writeMant (i + 1) v1).retire

end Sys2Proof.Machine
end

