-- ==== Sys2Proof/Machine/Dispatch.lean ====
section
/-! DEFINITION. One arm per command (spec/30_encoding.md R84). -/

namespace Sys2Proof.Machine

def exec (i : Instr) (s : State) : Host.Outcome State Fault Refusal :=
  match i with
  | .setcap l => Sys2Proof.Machine.execSetcap l s
  | .setp k v => Sys2Proof.Machine.execSetp k v s
  | .setoff n v => Sys2Proof.Machine.execSetoff n v s
  | .setmant n v => Sys2Proof.Machine.execSetmant n v s
  | .setmant2 n v0 v1 => Sys2Proof.Machine.execSetmant2 n v0 v1 s
  | .convV => Sys2Proof.Machine.execConvV s
  | .convF => Sys2Proof.Machine.execConvF s
  | .redv256 => Sys2Proof.Machine.execRedv256 s
  | .redv128 => Sys2Proof.Machine.execRedv128 s

end Sys2Proof.Machine
end

