-- ==== Sys2Proof/Machine/Flags.lean ====
section
/-! DEFINITION. The status flags and the handshake output (spec/10_state.md R28, spec/30_encoding.md R81). The engine has no
condition codes, and no arithmetic sets a flag. -/

namespace Sys2Proof.Machine

/-- What the status port carries (R28). -/
structure StatusPort where
  busy : Bool
  halted : Bool
  capValid : Bool
  capLogn : BitVec 3
  faultCause : BitVec 4
  faultInfo : BitVec 64
  deriving DecidableEq, Repr

/-- The status port is driven from the state; reading it has no side effect (R28). -/
def State.status (s : State) : StatusPort where
  busy := s.seq.busy
  halted := s.fault.halted
  capValid := s.cap.valid
  capLogn := s.cap.logn
  faultCause := s.fault.cause
  faultInfo := s.fault.info

/-- `cmd_ready` = 1 exactly when `SEQ.BUSY` = 0 and `FAULT.HALTED` = 0 (R81). -/
def State.cmdReady (s : State) : Bool := !s.seq.busy && !s.fault.halted

end Sys2Proof.Machine
end

