-- ==== Sys2Proof/Machine/Port.lean ====
section
/-! DEFINITION. The command port between commands (spec/30_encoding.md R81, R86): what the engine finds when a step
begins. -/

namespace Sys2Proof.Machine

/-- What a step begins with. -/
inductive Arrival where
  /-- The reset input is asserted (R240). -/
  | reset
  /-- `SEQ.BUSY` = 1: no word is accepted (R81). -/
  | inProgress
  /-- No word is accepted: none is presented, or the engine is halted (R81). -/
  | idle
  /-- A word is accepted that spells no legal command (R86). -/
  | illegal (c : Cause) (w : CmdWord)
  /-- A word is accepted that is the command `i`. -/
  | command (i : Instr)
  deriving DecidableEq, Repr

/-- The presented word at acceptance: decoded (R81, R86, R87). -/
def arrivalOfWord (cfg : Config) (w : CmdWord) : Arrival :=
  match decode cfg w with
  | .illegal e => .illegal (causeOfDecode e) w
  | .legal i => .command i

/-- What the engine finds: the reset input first, then the handshake (R81), then the presented word. -/
def arrival (s : State) : Arrival :=
  if s.resetAfter = some 0 then .reset
  else if s.seq.busy then .inProgress
  else if s.cmdReady = false then .idle
  else
    match s.cmds with
    | [] => .idle
    | w :: _ => arrivalOfWord s.cfg w

/-- The state with the presented word taken from the port. -/
def State.takeWord (s : State) : State := { s with cmds := s.cmds.tail }

/-- Acceptance of a legal command: the word is taken, `SEQ.BUSY` becomes 1 and `SEQ.OP` says which command runs (R81,
R29). -/
def State.accept (i : Instr) (s : State) : State :=
  { s with
    cmds := s.cmds.tail
    seq := { s.seq with busy := true, op := i.command } }

/-- The state with a word presented on the command port ahead of what the host holds. -/
def State.present (s : State) (w : CmdWord) : State := { s with cmds := w :: s.cmds }

end Sys2Proof.Machine
end

