-- ==== Sys2Proof/Machine/Step.lean ====
section
/-! DEFINITION. One step of the machine: one command, whole (spec/00_scope.md R8), or what stands in its place. -/

namespace Sys2Proof.Machine

/-- One step: a reset, an idle wait, a fault at decode (R211), or a command from acceptance to retire. -/
def step (s : State) : Host.Outcome State Fault Refusal :=
  match arrival s with
  | .reset => .next s.engineReset
  | .inProgress => .refused .operationInProgress
  | .idle => .next s
  | .illegal c w => .next (s.takeWord.raise c w)
  | .command i => exec i (s.accept i)

/-- The state with the word `w` presented on the command port, where `step` takes its next command (log entry 10). -/
def State.withFetchWord (s : State) (nbits w : Nat) : State :=
  s.present (BitVec.ofNat 64 (w % 2 ^ nbits))

end Sys2Proof.Machine
end

