-- ==== Sys2Proof/Machine/Assembler.lean ====
section
/-! DEFINITION. The assembler's lines (spec/30_encoding.md R88) and the pseudo-commands (R89), from operands that are
integers to command words. Not used by the machine: words reach it on the command port. The text of a line (spaces,
comments, number bases) is left out (log entry 23). -/

namespace Sys2Proof.Machine

/-- A line with its operands. `SETP` takes the register number; a name stands for its number (R88, R21). -/
inductive AsmLine where
  | setcap (l : Nat)
  | setp (k : Nat) (v : Int)
  | setoff (i : Nat) (v : Int)
  | setmant (i : Nat) (v : Int)
  | setmant2 (i : Nat) (v0 v1 : Int)
  | convV
  | convF
  | redv256
  | redv128
  /-- settap I, OFFSET, MANT (R89). -/
  | settap (i : Nat) (offset mant : Int)
  /-- setin BASE, STRIDE (R89). -/
  | setin (base stride : Int)
  /-- setout BASE, STRIDE (R89). -/
  | setout (base stride : Int)
  /-- setrect L, T, W, H (R89). -/
  | setrect (l t w h : Int)
  /-- setq E, OFFSET (R89). -/
  | setq (e offset : Int)
  deriving DecidableEq, Repr

/-- The word of one command line: `op`, `idx`, `imm` as the table of R88 gives them. -/
def asmWord (c : Command) (idx : Nat) (imm : BitVec 32) : CmdWord :=
  formatF c.opcode 0#8 (BitVec.ofNat 16 idx) imm

def asmSetp (k : Param) (v : Int) : CmdWord := asmWord .setp k.num (umod32 v)

def asmSetoff (i : Nat) (v : Int) : CmdWord := asmWord .setoff i (umod32 v)

def asmSetmant (i : Nat) (v : Int) : CmdWord := asmWord .setmant i ((BitVec.ofInt 16 v).setWidth 32)

/-- The words a line assembles to, in order (R88, R89). -/
def AsmLine.words : AsmLine → List CmdWord
  | .setcap l => [asmWord .setcap 0 (BitVec.ofNat 32 l)]
  | .setp k v => [asmWord .setp k (umod32 v)]
  | .setoff i v => [asmSetoff i v]
  | .setmant i v => [asmSetmant i v]
  | .setmant2 i v0 v1 => [asmWord .setmant2 i (BitVec.ofInt 16 v1 ++ BitVec.ofInt 16 v0)]
  | .convV => [asmWord .convV 0 0#32]
  | .convF => [asmWord .convF 0 0#32]
  | .redv256 => [asmWord .redv256 0 0#32]
  | .redv128 => [asmWord .redv128 0 0#32]
  | .settap i offset mant => [asmSetoff i offset, asmSetmant i mant]
  | .setin base stride => [asmSetp .inBase base, asmSetp .inStride stride]
  | .setout base stride => [asmSetp .outBase base, asmSetp .outStride stride]
  | .setrect l t w h => [asmSetp .rectLeft l, asmSetp .rectTop t, asmSetp .rectWidth w, asmSetp .rectHeight h]
  | .setq e offset => [asmSetp .exponent e, asmSetp .outOffset offset]

/-- An offset the syntax accepts (R88). -/
def offsetInRange (v : Int) : Bool := decide (-(2 ^ 31) ≤ v) && decide (v < 2 ^ 31)

/-- A mantissa the syntax accepts (R88). -/
def mantInRange (v : Int) : Bool := decide (-32768 ≤ v) && decide (v ≤ 32767)

/-- The operand ranges the syntax states (R88); an index is at most what `idx` holds. -/
def AsmLine.inRange : AsmLine → Bool
  | .setcap _ => true
  | .setp k _ => decide (k < 2 ^ 16)
  | .setoff i v => decide (i < 2 ^ 16) && offsetInRange v
  | .setmant i v => decide (i < 2 ^ 16) && mantInRange v
  | .setmant2 i v0 v1 => decide (i < 2 ^ 16) && mantInRange v0 && mantInRange v1
  | .convV => true
  | .convF => true
  | .redv256 => true
  | .redv128 => true
  | .settap i offset mant => decide (i < 2 ^ 16) && offsetInRange offset && mantInRange mant
  | .setin _ _ => true
  | .setout _ _ => true
  | .setrect _ _ _ _ => true
  | .setq _ _ => true

end Sys2Proof.Machine
end

