-- ==== Sys2Proof/Safety.lean ====
section
/-! DEFINITION. The terms claims use: the spec's closed forms of an operation (its accesses, its result bytes), the premises
a result claim carries (spec/70_reset_and_hazards.md R243 to R246), and the invariant of the machine. Nothing here is used
by the machine itself. -/

namespace Sys2Proof.Machine

/-! ### Taps and samples as the contracts name them -/

/-- `OFF[i]` as stored (R25). -/
def State.offAt (s : State) (i : Nat) : Word := (s.tapAt i).off

/-- `MANT[i]` as a signed integer (R101). -/
def State.mantAt (s : State) (i : Nat) : Int := (s.tapAt i).mant.toInt

/-- The source address of tap `i` for column `x`: `A_src(y, x, i)` (R52), or `A_red(x, i)` (R54). -/
def State.srcAddr (s : State) (k : Kernel) (y : BitVec 32) (x i : Nat) : Addr :=
  match k with
  | .conv32 => aIn s.params y x + s.offAt i
  | .conv16 => aIn s.params y x + s.offAt i
  | .redv => aRed s.params x i

/-- `source_byte(x, i)` or `sample_at(x, i)` as an integer (R131, R174). -/
def State.tapSample (s : State) (k : Kernel) (y : BitVec 32) (x i : Nat) : Int :=
  sample (s.byteAt (s.srcAddr k y x i))

/-- The sum over `i < P[NNZ]` of `MANT[i]` times the sample of tap `i` (R131, R174). -/
def State.weightedSum (s : State) (k : Kernel) (y : BitVec 32) (x : Nat) : Int :=
  ((List.range s.params.tapCount).map fun i => s.mantAt i * s.tapSample k y x i).sum

/-- `conv32(y, x)` (R131). -/
def State.conv32 (s : State) (y : BitVec 32) (x : Nat) : Byte :=
  outConv (wrap32 (bias s.params.e + s.weightedSum .conv32 y x)) s.params.e s.params.off

/-- The loop of `conv16` (R151): `n` taps remain from tap `i` on, `a` is the accumulator. -/
def State.conv16Loop (s : State) (y : BitVec 32) (x : Nat) : Nat → Nat → Int → Int
  | 0, _, a => a
  | 1, i, a => sat16 (a + sat16 (s.mantAt i * s.tapSample .conv16 y x i))
  | n + 2, i, a =>
    State.conv16Loop s y x n (i + 2)
      (sat16 (a + sat16 (s.mantAt i * s.tapSample .conv16 y x i + s.mantAt (i + 1) * s.tapSample .conv16 y x (i + 1))))

/-- `conv16(y, x)` (R151). -/
def State.conv16 (s : State) (y : BitVec 32) (x : Nat) : Byte :=
  outConv (s.conv16Loop y x s.params.tapCount 0 (sat16 (bias s.params.e))) s.params.e s.params.off

/-- `redv(x)` (R174). -/
def State.redv (s : State) (x : Nat) : Byte :=
  outRed s.cfg.interpolateShift (wrap32 (redvBias s.cfg + s.weightedSum .redv 0 x))

/-- The architectural value of a column under a kernel. -/
def State.column (s : State) (k : Kernel) (y : BitVec 32) (x : Nat) : Byte :=
  match k with
  | .conv32 => s.conv32 y x
  | .conv16 => s.conv16 y x
  | .redv => s.redv x

/-- The sum over `i < P[NNZ]` of |MANT[i]| * 255 (R105). -/
def State.mantWeight (s : State) : Int :=
  ((List.range s.params.tapCount).map fun i => |s.mantAt i| * 255).sum

/-- `INV32` for the bias `b` (R105). -/
abbrev State.inv32 (s : State) (b : Int) : Prop := s.mantWeight + b ≤ 2147483647

/-- `INV16` for the bias `b` (R105). -/
abbrev State.inv16 (s : State) (b : Int) : Prop := s.mantWeight + b ≤ 32767

/-! ### The accesses of an operation, in order -/

/-- The accesses of one block: one read per tap, ascending, then the one write (R61, R133, R153, R173). -/
def State.blockAccesses (s : State) (k : Kernel) (y : BitVec 32) (b : Block) : List Access :=
  (List.range s.params.tapCount).map
      (fun i => { kind := .read, addr := s.srcAddr k y b.x i, len := k.loadBytes s.cfg b.w }) ++
    [{ kind := .write, addr := k.dst s.params y b.x, len := b.w }]

/-- Every row with every block of a row, rows first (R61, R132). -/
def placed (ys : List (BitVec 32)) (blocks : List Block) : List (BitVec 32 × Block) :=
  ys.flatMap fun y => blocks.map fun b => (y, b)

/-- The accesses of an operation over the rows `ys`. -/
def State.accessesOf (s : State) (k : Kernel) (ys : List (BitVec 32)) (blocks : List Block) : List Access :=
  (placed ys blocks).flatMap fun b => s.blockAccesses k b.1 b.2

/-- The row coordinates of an operation: a convolution's rows top to bottom (R130); the reduction has one row and no row
coordinate, and 0 stands for it (R172). -/
def State.rowsOf (s : State) (k : Kernel) : List (BitVec 32) :=
  match k with
  | .conv32 => (List.range s.params.rows).map s.params.rowY
  | .conv16 => (List.range s.params.rows).map s.params.rowY
  | .redv => [0]

/-- The blocks of a row: at the latched lane count (R132), or the fixed split (R152, R172). -/
def State.blocksOf (s : State) (k : Kernel) : List Block :=
  match k with
  | .conv32 => blocksV s.cap.lanes s.params.columns
  | .conv16 => blocks821 s.params.columns
  | .redv => blocks821 s.params.columns

/-- The accesses of an operation, in order. -/
def State.accesses (s : State) (k : Kernel) : List Access := s.accessesOf k (s.rowsOf k) (s.blocksOf k)

/-- The kernel of an operation command. -/
def kernelOf : Instr → Option Kernel
  | .setcap _ => none
  | .setp _ _ => none
  | .setoff _ _ => none
  | .setmant _ _ => none
  | .setmant2 _ _ _ => none
  | .convV => some .conv32
  | .convF => some .conv16
  | .redv256 => some .redv
  | .redv128 => some .redv

/-- The byte addresses the writes among some accesses cover. -/
def writtenBytes (l : List Access) : List Addr :=
  l.flatMap fun x => match x.kind with | .read => [] | .write => span x.addr x.len

/-- The byte addresses the reads among some accesses cover. -/
def readBytes (l : List Access) : List Addr :=
  l.flatMap fun x => match x.kind with | .read => span x.addr x.len | .write => []

/-! ### Premises -/

/-- The platform performs the access: it answers and refuses no byte (R68). -/
def Access.granted (cfg : Config) (x : Access) : Bool := x.answered cfg && x.backed cfg

/-- The platform performs every one of some accesses (R245). -/
abbrev State.grants (s : State) (l : List Access) : Prop := ∀ x ∈ l, x.granted s.cfg = true

/-- Every address is backed for reads and writes and answers: the platform of the software's view (R68). -/
abbrev State.platformGrantsAll (s : State) : Prop :=
  ∀ a : Addr, addrIn s.cfg.readable a = true ∧ addrIn s.cfg.writable a = true ∧ addrIn s.cfg.silent a = false

/-- A capability code is latched where the kernel needs one (R213, R243 (a)). -/
abbrev State.codeLatched (s : State) (k : Kernel) : Prop := k = .conv32 → s.cap.valid = true

/-- The tap halves the kernel reads have been written (R38, R243 (c)). -/
abbrev State.tapsWritten (s : State) (k : Kernel) : Prop :=
  ∀ i < s.params.tapCount, (k ≠ .redv → (s.tapAt i).offWritten = true) ∧ (s.tapAt i).mantWritten = true

/-- No source byte of a result is a destination byte (R66, R246). -/
abbrev State.sourcesKept (s : State) (k : Kernel) : Prop :=
  ∀ y ∈ s.rowsOf k, ∀ x < s.params.columns, ∀ i < s.params.tapCount, ∀ y' ∈ s.rowsOf k, ∀ x' < s.params.columns,
    s.srcAddr k y x i ≠ k.dst s.params y' x'

/-- Every output byte has one column (R60: "each output byte written exactly once"). -/
abbrev State.outputsDistinct (s : State) (k : Kernel) : Prop :=
  ∀ y ∈ s.rowsOf k, ∀ x < s.params.columns, ∀ y' ∈ s.rowsOf k, ∀ x' < s.params.columns,
    k.dst s.params y x = k.dst s.params y' x' → y = y' ∧ x = x'

/-- The premise of a claim about result bytes (R66). -/
abbrev State.separate (s : State) (k : Kernel) : Prop := s.sourcesKept k ∧ s.outputsDistinct k

/-- The address is a destination of the operation. -/
def State.outputs (s : State) (k : Kernel) (a : Addr) : Prop :=
  ∃ y ∈ s.rowsOf k, ∃ x < s.params.columns, k.dst s.params y x = a

/-- The engine takes the word `w` from the port at this step: it is presented, and the engine is ready (R81). -/
abbrev State.takes (s : State) (w : CmdWord) : Prop :=
  s.resetAfter ≠ some 0 ∧ s.seq.busy = false ∧ s.fault.halted = false ∧ s.cmds.head? = some w

/-! ### Encodings as the spec's tables name them -/

/-- The constraints of R85 on the fields of a word, by opcode; an opcode that the table does not have has none to meet. -/
abbrev operandsLegal (cfg : Config) (op idx imm : Nat) : Prop :=
  if op = 0x01 then idx = 0 ∧ imm / 8 = 0 ∧ imm % 8 ≤ maxLogn
  else if op = 0x02 then idx ≤ 11 ∧ (idx = 9 → imm ≤ cfg.tapsMax) ∧ (idx = 11 → imm ≤ 31)
  else if op = 0x03 then idx < cfg.tapsMax
  else if op = 0x04 then idx < cfg.tapsMax ∧ imm / 2 ^ 16 = 0
  else if op = 0x05 then idx < cfg.tapsMax ∧ idx % 2 = 0
  else idx = 0 ∧ imm = 0

/-- The opcodes of R84. -/
def definedOpcodes : List Nat := [0x01, 0x02, 0x03, 0x04, 0x05, 0x10, 0x11, 0x12, 0x13]

/-- The build lacks the variant of the opcode (R86 case 2). -/
abbrev variantAbsent (cfg : Config) (op : Nat) : Prop :=
  (op = 0x11 ∧ cfg.hasConvF = false) ∨ (op = 0x12 ∧ cfg.hasRedv256 = false) ∨ (op = 0x13 ∧ cfg.hasRedv128 = false)

/-- The `mask` column of R84, for the default parameters. -/
def opcodeMask : Command → CmdWord
  | .setcap => 0xFFFFFFFFFFFFFFF8#64
  | .setp => 0xFFFFFFF000000000#64
  | .setoff => 0xFFFFFF0000000000#64
  | .setmant => 0xFFFFFF00FFFF0000#64
  | .setmant2 => 0xFFFFFF0100000000#64
  | .convV => 0xFFFFFFFFFFFFFFFF#64
  | .convF => 0xFFFFFFFFFFFFFFFF#64
  | .redv256 => 0xFFFFFFFFFFFFFFFF#64
  | .redv128 => 0xFFFFFFFFFFFFFFFF#64

/-- The `match` column of R84. -/
def opcodeMatch : Command → CmdWord
  | .setcap => 0x0100000000000000#64
  | .setp => 0x0200000000000000#64
  | .setoff => 0x0300000000000000#64
  | .setmant => 0x0400000000000000#64
  | .setmant2 => 0x0500000000000000#64
  | .convV => 0x1000000000000000#64
  | .convF => 0x1100000000000000#64
  | .redv256 => 0x1200000000000000#64
  | .redv128 => 0x1300000000000000#64

/-! ### The invariant -/

/-- What every state of a run keeps: legal parameters, canonical memory, a tap table of `TAPS_MAX` entries, the limits
`SETP` checks (R195), a legal capability code (R24), a fault record that is empty unless the engine is halted (R27, R210),
no command in progress between steps (R81). -/
structure State.Inv (s : State) : Prop where
  cfg_wf : s.cfg.wf
  mem_wf : Memory.wf s.mem = true
  taps_length : s.taps.length = s.cfg.tapsMax
  nnz_le : s.params.nnz.toNat ≤ s.cfg.tapsMax
  exponent_le : s.params.exponent.toNat ≤ 31
  logn_le : s.cap.logn.toNat ≤ maxLogn
  cap_unset : s.cap.valid = false → s.cap.logn = 0#3
  fault_empty : s.fault.halted = false → s.fault = FaultRecord.reset
  fault_cause : s.fault.halted = true → 1 ≤ s.fault.cause.toNat ∧ s.fault.cause.toNat ≤ 6
  idle : s.seq.busy = false

end Sys2Proof.Machine
end

