-- ==== Sys2Proof/Certificates/Slice0/Obligations.lean ====
section
/-! DEFINITION. The statements for the provers. Each docstring names the rules of spec/ it formalises. -/

open Sys2Proof Sys2Proof.Machine

/-! ### Encoding -/

/-- Words written out bit by bit from R82 to R84 decode to the commands they stand for, one or more of each family, and the
illegal words of spec/95_test_vectors.md section 3 do not. -/
def Obligations.SpecWordsDecode : Prop :=
  decode Config.default 0b0000000100000000000000000000000000000000000000000000000000000010#64 = .legal (.setcap 2#3) ∧
  decode Config.default 0b0000001000000000000000000000100000000000000000000000000000000101#64 = .legal (.setp .ne 5#32) ∧
  decode Config.default 0x03000000FFFFFFFF#64 = .legal (.setoff 0 (BitVec.ofInt 32 (-1))) ∧
  decode Config.default 0x040000030000FFCE#64 = .legal (.setmant 3 (BitVec.ofInt 16 (-50))) ∧
  decode Config.default 0x05000002FFCEFF9C#64 = .legal (.setmant2 2 (BitVec.ofInt 16 (-100)) (BitVec.ofInt 16 (-50))) ∧
  decode Config.default 0x1000000000000000#64 = .legal .convV ∧
  decode Config.default 0x1100000000000000#64 = .legal .convF ∧
  decode Config.default 0x1200000000000000#64 = .legal .redv256 ∧
  decode Config.default 0x1300000000000000#64 = .legal .redv128 ∧
  decode Config.default 0#64 = .illegal .illegalCommand ∧
  decode Config.default 0x0201000C00000000#64 = .illegal .illegalCommand ∧
  decode Config.default 0x0200000C00000000#64 = .illegal .illegalOperand ∧
  decode Config.default 0x0100000000000007#64 = .illegal .illegalOperand

/-- Decode and encode agree on every legal command of every build: no operand bit is dropped (R82 to R86). -/
def Obligations.DecodeOfEncode : Prop :=
  ∀ (cfg : Config) (i : Instr), cfg.wf → i.wf cfg = true → decode cfg (encode i) = .legal i

/-- Every word that decodes is the encoding of the instruction it decodes to, which is well formed: a command has one word
(R82 to R85), so the word a fault records (R210 codes 3 and 4) is determined by the instruction. -/
def Obligations.EncodeOfDecode : Prop :=
  ∀ (cfg : Config) (w : CmdWord) (i : Instr), decode cfg w = .legal i → encode i = w ∧ i.wf cfg = true

/-- The four decode tests of R86 in their order, on the fields of R82 as numbers, with the constraints of R85; a word that
passes them decodes to an instruction with exactly its fields. -/
def Obligations.DecodeFollowsTheFourTests : Prop :=
  ∀ (cfg : Config) (w : CmdWord) (op rsv idx imm : Nat),
    op = w.toNat / 2 ^ 56 → rsv = w.toNat / 2 ^ 48 % 2 ^ 8 → idx = w.toNat / 2 ^ 32 % 2 ^ 16 → imm = w.toNat % 2 ^ 32 →
      (op ∉ definedOpcodes → decode cfg w = .illegal .illegalCommand) ∧
      (op ∈ definedOpcodes → variantAbsent cfg op → decode cfg w = .illegal .illegalCommand) ∧
      (op ∈ definedOpcodes → ¬ variantAbsent cfg op → rsv ≠ 0 → decode cfg w = .illegal .illegalCommand) ∧
      (op ∈ definedOpcodes → ¬ variantAbsent cfg op → rsv = 0 → ¬ operandsLegal cfg op idx imm →
        decode cfg w = .illegal .illegalOperand) ∧
      (op ∈ definedOpcodes → ¬ variantAbsent cfg op → rsv = 0 → operandsLegal cfg op idx imm →
        ∃ i : Instr, decode cfg w = .legal i ∧ i.command.opcode.toNat = op ∧ i.idx.toNat = idx ∧ i.imm.toNat = imm)

/-- The mask and match columns of the opcode table select the command of a legal word, and no word meets two rows (R84, for
the default parameters the columns are written for). -/
def Obligations.MaskAndMatchSelectTheCommand : Prop :=
  (∀ (w : CmdWord) (i : Instr), decode Config.default w = .legal i →
    w &&& opcodeMask i.command = opcodeMatch i.command) ∧
  (∀ (w : CmdWord) (c d : Command), w &&& opcodeMask c = opcodeMatch c → w &&& opcodeMask d = opcodeMatch d → c = d)

/-- Each command line assembles to the one word the table of R88 gives, as a number `op * 2^56 + idx * 2^32 + imm` (R82), for
operands in the ranges the table states; signed operands in two's complement at the field's width. -/
def Obligations.AssemblerLinesEncode : Prop :=
  (∀ l < 2 ^ 32, (AsmLine.setcap l).words.map BitVec.toInt = [0x01 * 2 ^ 56 + (l : Int)]) ∧
  (∀ (k : Nat) (v : Int), (AsmLine.setp k v).inRange = true →
    (AsmLine.setp k v).words.map BitVec.toInt = [0x02 * 2 ^ 56 + k * 2 ^ 32 + v % 2 ^ 32]) ∧
  (∀ (i : Nat) (v : Int), (AsmLine.setoff i v).inRange = true →
    (AsmLine.setoff i v).words.map BitVec.toInt = [0x03 * 2 ^ 56 + i * 2 ^ 32 + v % 2 ^ 32]) ∧
  (∀ (i : Nat) (v : Int), (AsmLine.setmant i v).inRange = true →
    (AsmLine.setmant i v).words.map BitVec.toInt = [0x04 * 2 ^ 56 + i * 2 ^ 32 + v % 2 ^ 16]) ∧
  (∀ (i : Nat) (v0 v1 : Int), (AsmLine.setmant2 i v0 v1).inRange = true →
    (AsmLine.setmant2 i v0 v1).words.map BitVec.toInt =
      [0x05 * 2 ^ 56 + i * 2 ^ 32 + (v1 % 2 ^ 16 * 2 ^ 16 + v0 % 2 ^ 16)]) ∧
  AsmLine.convV.words.map BitVec.toInt = [0x10 * 2 ^ 56] ∧ AsmLine.convF.words.map BitVec.toInt = [0x11 * 2 ^ 56] ∧
  AsmLine.redv256.words.map BitVec.toInt = [0x12 * 2 ^ 56] ∧ AsmLine.redv128.words.map BitVec.toInt = [0x13 * 2 ^ 56]

/-- R89: each pseudo-command expands to the listed commands in the listed order. -/
def Obligations.PseudoCommandsExpand : Prop :=
  (∀ (i : Nat) (o m : Int), i < 256 → offsetInRange o = true → mantInRange m = true →
    (AsmLine.settap i o m).words.map (decode Config.default) =
      [.legal (.setoff i (BitVec.ofInt 32 o)), .legal (.setmant i (BitVec.ofInt 16 m))]) ∧
  (∀ b s : Int, (AsmLine.setin b s).words.map (decode Config.default) =
    [.legal (.setp .inBase (BitVec.ofInt 32 b)), .legal (.setp .inStride (BitVec.ofInt 32 s))]) ∧
  (∀ b s : Int, (AsmLine.setout b s).words.map (decode Config.default) =
    [.legal (.setp .outBase (BitVec.ofInt 32 b)), .legal (.setp .outStride (BitVec.ofInt 32 s))]) ∧
  (∀ l t w h : Int, (AsmLine.setrect l t w h).words.map (decode Config.default) =
    [.legal (.setp .rectLeft (BitVec.ofInt 32 l)), .legal (.setp .rectTop (BitVec.ofInt 32 t)),
     .legal (.setp .rectWidth (BitVec.ofInt 32 w)), .legal (.setp .rectHeight (BitVec.ofInt 32 h))]) ∧
  (∀ e o : Int, 0 ≤ e → e ≤ 31 → (AsmLine.setq e o).words.map (decode Config.default) =
    [.legal (.setp .exponent (BitVec.ofInt 32 e)), .legal (.setp .outOffset (BitVec.ofInt 32 o))])

/-! ### The command port, faults, reset -/

/-- A step runs the decoded command: a word presented to a ready engine that decodes to `i` is taken from the port, `SEQ.BUSY`
becomes 1, `SEQ.OP` names the command, and the step is `exec i` from there (R81, R29). -/
def Obligations.StepRunsTheDecodedCommand : Prop :=
  ∀ (s : State) (w : CmdWord) (i : Instr), s.takes w → decode s.cfg w = .legal i →
    step s = Sys2Proof.Machine.exec i { s with cmds := s.cmds.tail, seq := { s.seq with busy := true, op := i.command } }

/-- R81: `cmd_ready` is 1 exactly when the engine is idle and not halted; a word is accepted exactly when it is presented and
`cmd_ready` is 1; an accepted command is executed with `SEQ.BUSY` = 1, whole, and `SEQ.BUSY` is 0 again when the step is over;
words are taken one at a time, in their order; a word presented to a halted engine is never accepted. That the words the host
holds stay in a step that resets is the model's choice (log entry 12), no rule of the spec. -/
def Obligations.CommandPortProtocol : Prop :=
  ∀ s : State,
    (s.cmdReady = true ↔ s.seq.busy = false ∧ s.fault.halted = false) ∧
    (∀ (w : CmdWord) (i : Instr), s.resetAfter ≠ some 0 → s.cmdReady = true → s.cmds.head? = some w →
      decode s.cfg w = .legal i →
      step s =
        Sys2Proof.Machine.exec i { s with cmds := s.cmds.tail, seq := { s.seq with busy := true, op := i.command } }) ∧
    (∀ t : State, step s = .next t → t.seq.busy = false ∧ (s.cmdReady = false → t.cmds = s.cmds) ∧
      (s.cmdReady = true → s.resetAfter ≠ some 0 → t.cmds = s.cmds.tail)) ∧
    (s.resetAfter ≠ some 0 → s.seq.busy = false → s.fault.halted = true → step s = .next s)

/-- R86, R211: an illegal word halts the engine with cause 1 or 2 and the word as `FAULT.INFO`, by the four tests in their
order, and changes nothing else; every other word is executed. -/
def Obligations.IllegalWordHaltsWithoutEffect : Prop :=
  ∀ (s : State) (w : CmdWord) (op rsv idx imm : Nat), s.takes w →
    op = w.toNat / 2 ^ 56 → rsv = w.toNat / 2 ^ 48 % 2 ^ 8 → idx = w.toNat / 2 ^ 32 % 2 ^ 16 → imm = w.toNat % 2 ^ 32 →
      (op ∉ definedOpcodes ∨ variantAbsent s.cfg op ∨ rsv ≠ 0 →
        step s = .next { s with
          cmds := s.cmds.tail
          fault := { halted := true, cause := 1#4, info := w }
          seq := { s.seq with busy := false } }) ∧
      (op ∈ definedOpcodes → ¬ variantAbsent s.cfg op → rsv = 0 → ¬ operandsLegal s.cfg op idx imm →
        step s = .next { s with
          cmds := s.cmds.tail
          fault := { halted := true, cause := 2#4, info := w }
          seq := { s.seq with busy := false } }) ∧
      (op ∈ definedOpcodes → ¬ variantAbsent s.cfg op → rsv = 0 → operandsLegal s.cfg op idx imm →
        ∃ i : Instr, encode i = w ∧
          step s =
            Sys2Proof.Machine.exec i { s with cmds := s.cmds.tail, seq := { s.seq with busy := true, op := i.command } })

/-- R221: no step of a halted engine changes anything, but the reset input, which clears `FAULT` and the rest. -/
def Obligations.OnlyResetLeavesTheHalt : Prop :=
  ∀ s t : State, step s = .next t → s.fault.halted = true →
    t = s ∨
    (s.resetAfter = some 0 ∧ t.fault = { halted := false, cause := 0#4, info := 0#64 } ∧ t.cap.valid = false ∧
      (∀ k : Param, t.params.get k = 0#32) ∧ t.seq.busy = false ∧
      (∀ i : Nat, (t.tapAt i).offWritten = false ∧ (t.tapAt i).mantWritten = false))

/-- The reset input puts every piece of state the spec gives a reset value into it, marks every tap half never written, and
leaves memory alone; the engine is then ready; `State.reset` has the same values (R37, R240, R242). What the host holds at
the port stays (log entry 12). -/
def Obligations.ResetRestoresTheResetValues : Prop :=
  (∀ s : State, s.resetAfter = some 0 → ∃ t, step s = .next t ∧
    (∀ k : Param, t.params.get k = 0#32) ∧ t.cap = { valid := false, logn := 0#3 } ∧
    t.fault = { halted := false, cause := 0#4, info := 0#64 } ∧ t.seq.busy = false ∧ t.cmdReady = true ∧
    t.taps.length = s.cfg.tapsMax ∧
    (∀ i : Nat, (t.tapAt i).offWritten = false ∧ (t.tapAt i).mantWritten = false) ∧
    t.mem = s.mem ∧ t.cfg = s.cfg ∧ t.cmds = s.cmds ∧ t.resetAfter = none) ∧
  ((∀ k : Param, State.reset.params.get k = 0#32) ∧ State.reset.cap = { valid := false, logn := 0#3 } ∧
    State.reset.fault = { halted := false, cause := 0#4, info := 0#64 } ∧ State.reset.seq.busy = false ∧
    (∀ i : Nat, (State.reset.tapAt i).offWritten = false ∧ (State.reset.tapAt i).mantWritten = false))

/-- The only refusal of a step is that of a step begun in the middle of an operation with the reset input not asserted; every
other step of every instruction ends in a next state or in a memory port that never answers. This is the model's choice (log
entry 15), no rule of the spec. -/
def Obligations.OnlyABusyStepIsRefused : Prop :=
  (∀ (s : State) (r : Refusal),
    step s = .refused r ↔ s.seq.busy = true ∧ s.resetAfter ≠ some 0 ∧ r = .operationInProgress) ∧
  (∀ (i : Instr) (s : State), (∃ t, Sys2Proof.Machine.exec i s = .next t) ∨
    ((kernelOf i).isSome = true ∧ Sys2Proof.Machine.exec i s = .fault .portNeverAnswers))

/-! ### The setup commands -/

/-- SETCAP (R191, R214): the first one latches the code; the same code again changes nothing; another code halts the engine
with cause 4 and the word, `CAP` unchanged. Each case is the whole next state. -/
def Obligations.SetcapLatchesOnce : Prop :=
  ∀ (s : State) (l : BitVec 3),
    (s.cap.valid = false →
      Sys2Proof.Machine.exec (.setcap l) s =
        .next { s with cap := { valid := true, logn := l }, seq := { s.seq with busy := false } }) ∧
    (s.cap.valid = true → s.cap.logn = l →
      Sys2Proof.Machine.exec (.setcap l) s = .next { s with seq := { s.seq with busy := false } }) ∧
    (s.cap.valid = true → s.cap.logn ≠ l →
      Sys2Proof.Machine.exec (.setcap l) s =
        .next { s with
          fault := { halted := true, cause := 4#4, info := BitVec.ofNat 64 (0x0100000000000000 + l.toNat) }
          seq := { s.seq with busy := false } })

/-- SETP (R194): `P[k]` becomes `V`, every other register and everything else is unchanged. -/
def Obligations.SetpWritesOneRegister : Prop :=
  ∀ (s : State) (k : Param) (v : Word), ∃ t, Sys2Proof.Machine.exec (.setp k v) s = .next t ∧
    t.params.get k = v ∧ (∀ k' : Param, k' ≠ k → t.params.get k' = s.params.get k') ∧
    t = { s with params := t.params, seq := { s.seq with busy := false } }

/-- R195: `SETP` checks `NNZ` against `TAPS_MAX` and `EXPONENT` against 31, and no other value. -/
def Obligations.SetpChecksOnlyNnzAndExponent : Prop :=
  ∀ (cfg : Config) (v : Word),
    (decode cfg (encode (.setp .nnz v)) =
      if v.toNat ≤ cfg.tapsMax then .legal (.setp .nnz v) else .illegal .illegalOperand) ∧
    (decode cfg (encode (.setp .exponent v)) =
      if v.toNat ≤ 31 then .legal (.setp .exponent v) else .illegal .illegalOperand) ∧
    (∀ k : Param, k ≠ .nnz → k ≠ .exponent → decode cfg (encode (.setp k v)) = .legal (.setp k v))

/-- SETOFF (R196): `OFF[i]` becomes `V` and counts as written; `MANT[i]`, every other entry and everything else are
unchanged. -/
def Obligations.SetoffWritesOneOffset : Prop :=
  ∀ (s : State) (i : Nat) (v : Word), s.taps.length = s.cfg.tapsMax → (Instr.setoff i v).wf s.cfg = true →
    ∃ t, Sys2Proof.Machine.exec (.setoff i v) s = .next t ∧
      t.tapAt i = { s.tapAt i with off := v, offWritten := true } ∧ (∀ j : Nat, j ≠ i → t.tapAt j = s.tapAt j) ∧
      t.taps.length = s.taps.length ∧ t = { s with taps := t.taps, seq := { s.seq with busy := false } }

/-- SETMANT (R197): `MANT[i]` becomes `V` and counts as written; `OFF[i]`, every other entry and everything else are
unchanged. -/
def Obligations.SetmantWritesOneMantissa : Prop :=
  ∀ (s : State) (i : Nat) (v : Mant), s.taps.length = s.cfg.tapsMax → (Instr.setmant i v).wf s.cfg = true →
    ∃ t, Sys2Proof.Machine.exec (.setmant i v) s = .next t ∧
      t.tapAt i = { s.tapAt i with mant := v, mantWritten := true } ∧ (∀ j : Nat, j ≠ i → t.tapAt j = s.tapAt j) ∧
      t.taps.length = s.taps.length ∧ t = { s with taps := t.taps, seq := { s.seq with busy := false } }

/-- SETMANT2 (R198): exactly SETMANT of the lower half at `i` and then of the upper half at `i + 1`; `MANTW[i >> 1]` then
reads as the command's immediate; offsets and every other entry are unchanged. -/
def Obligations.SetmantPairIsTwoSetmants : Prop :=
  ∀ (s : State) (i : Nat) (v0 v1 : Mant), s.cfg.wf → s.taps.length = s.cfg.tapsMax →
    (Instr.setmant2 i v0 v1).wf s.cfg = true →
    ∃ t u, Sys2Proof.Machine.exec (.setmant2 i v0 v1) s = .next t ∧
      Sys2Proof.Machine.exec (.setmant i v0) s = .next u ∧
      Sys2Proof.Machine.exec (.setmant (i + 1) v1) u = .next t ∧
      t.mantAt i = v0.toInt ∧ t.mantAt (i + 1) = v1.toInt ∧
      readMantw (i / 2) t = (BitVec.ofNat 32 (v1.toNat * 2 ^ 16 + v0.toNat), t) ∧
      (∀ j : Nat, t.offAt j = s.offAt j ∧ (t.tapAt j).offWritten = (s.tapAt j).offWritten) ∧
      (∀ j : Nat, j ≠ i → j ≠ i + 1 → t.tapAt j = s.tapAt j) ∧
      t = { s with taps := t.taps, seq := { s.seq with busy := false } }

/-- Every setup command retires in its one step, makes no memory access, and raises nothing but SETCAP's `CapRewrite`
(R199). -/
def Obligations.SetupCommandsRetireWithoutAccess : Prop :=
  ∀ (s : State) (i : Instr), kernelOf i = none →
    ∃ t, Sys2Proof.Machine.exec i s = .next t ∧ t.seq.busy = false ∧ t.mem = s.mem ∧ t.bus = s.bus ∧
      t.cfg = s.cfg ∧ t.cmds = s.cmds ∧ t.acc = s.acc ∧ t.free = s.free ∧ t.resetAfter = s.resetAfter ∧
      (t.fault = s.fault ∨
        (t.fault.cause = 4#4 ∧ ∃ l : BitVec 3, i = .setcap l ∧ s.cap.valid = true ∧ s.cap.logn ≠ l))

/-! ### Rules of the whole machine -/

/-- Who writes what, over every step with the reset input released: only SETP writes a parameter register (R22), only SETCAP
writes `CAP` (R24), only SETOFF, SETMANT and SETMANT2 write the tap table (R25), only the operation commands access memory
(R50); a step takes at most one word. -/
def Obligations.EachKindOfStateHasItsWriters : Prop :=
  ∀ s t : State, step s = .next t → s.resetAfter = none →
    t.cfg = s.cfg ∧ t.resetAfter = none ∧ (t.cmds = s.cmds ∨ t.cmds = s.cmds.tail) ∧
    (t.params ≠ s.params →
      ∃ w k v, s.takes w ∧ decode s.cfg w = .legal (.setp k v) ∧ t.params = s.params.set k v) ∧
    (t.cap ≠ s.cap →
      ∃ w l, s.takes w ∧ decode s.cfg w = .legal (.setcap l) ∧ s.cap.valid = false ∧ t.cap = { valid := true, logn := l }) ∧
    (t.taps ≠ s.taps →
      ∃ w i, s.takes w ∧ decode s.cfg w = .legal i ∧
        (i.command = .setoff ∨ i.command = .setmant ∨ i.command = .setmant2)) ∧
    (t.bus ≠ s.bus ∨ t.mem ≠ s.mem →
      ∃ w i, s.takes w ∧ decode s.cfg w = .legal i ∧ (kernelOf i).isSome = true)

/-- `CAP` is write-once: once valid, no step changes it but one with a reset (R24, R250). -/
def Obligations.CapIsWriteOnce : Prop :=
  ∀ s t : State, step s = .next t → s.cap.valid = true → t.cap = s.cap ∨ s.resetAfter.isSome = true

/-- The frame of the operation commands, for every state with the reset input released, taps written or not: no parameter,
tap, capability or configuration changes (R22, R36), the fault record changes only by a bus fault or `CapUnset`, and no byte
of memory outside the destinations of the columns changes (R109). -/
def Obligations.OperationFrame : Prop :=
  ∀ (s t : State) (i : Instr) (k : Kernel), kernelOf i = some k → s.resetAfter = none →
    Sys2Proof.Machine.exec i s = .next t →
    t.cfg = s.cfg ∧ t.params = s.params ∧ t.cap = s.cap ∧ t.taps = s.taps ∧ t.cmds = s.cmds ∧ t.resetAfter = none ∧
    t.seq.op = s.seq.op ∧ t.seq.busy = false ∧
    (t.fault = s.fault ∨ (t.fault.halted = true ∧ (t.fault.cause = 3#4 ∨ t.fault.cause = 5#4 ∨ t.fault.cause = 6#4))) ∧
    (∀ a : Addr, ¬ s.outputs k a → t.byteAt a = s.byteAt a)

/-! ### The operation commands -/

/-- R213: CONV.V without a latched code halts with cause 3 and its word, before any memory access. -/
def Obligations.ConvVWithoutCodeHalts : Prop :=
  ∀ s : State, s.cap.valid = false →
    Sys2Proof.Machine.exec .convV s =
      .next { s with
        fault := { halted := true, cause := 3#4, info := 0x1000000000000000#64 }
        seq := { s.seq with busy := false } }

/-- The operation commands complete and retire on every state, taps written or not, whose platform performs every access,
after exactly `rows * blocks_per_row * (nnz + 1)` accesses (R140, R158, R177). -/
def Obligations.OperationsCompleteAfterTheirAccesses : Prop :=
  ∀ s : State, s.resetAfter = none → s.platformGrantsAll →
    (s.cap.valid = true → ∃ t, Sys2Proof.Machine.exec .convV s = .next t ∧ t.seq.busy = false ∧ t.fault = s.fault ∧
      t.bus.length = s.bus.length + s.params.rows *
        (s.params.columns / 2 ^ s.cap.logn.toNat + s.params.columns % 2 ^ s.cap.logn.toNat) * (s.params.tapCount + 1)) ∧
    (∃ t, Sys2Proof.Machine.exec .convF s = .next t ∧ t.seq.busy = false ∧ t.fault = s.fault ∧
      t.bus.length = s.bus.length + s.params.rows *
        (s.params.columns / 8 + s.params.columns % 8 / 2 + s.params.columns % 2) * (s.params.tapCount + 1)) ∧
    (∃ t, Sys2Proof.Machine.exec .redv256 s = .next t ∧ t.seq.busy = false ∧ t.fault = s.fault ∧
      t.bus.length = s.bus.length +
        (s.params.columns / 8 + s.params.columns % 8 / 2 + s.params.columns % 2) * (s.params.tapCount + 1)) ∧
    (∃ t, Sys2Proof.Machine.exec .redv128 s = .next t ∧ t.seq.busy = false ∧ t.fault = s.fault ∧
      t.bus.length = s.bus.length +
        (s.params.columns / 8 + s.params.columns % 8 / 2 + s.params.columns % 2) * (s.params.tapCount + 1))

/-- R251: where the memory port answers every access, with data or with an error, every accepted command retires or faults:
one step ends it, whatever the state, with the engine idle. -/
def Obligations.EveryCommandEndsWhereThePortAnswers : Prop :=
  ∀ (s : State) (i : Instr), (∀ x : Access, x.answered s.cfg = true) →
    ∃ t, Sys2Proof.Machine.exec i s = .next t ∧ t.seq.busy = false

/-- R131: CONV.V stores `conv32(y, x)`, evaluated on memory as it was at acceptance, at `A_out(y, x)` for every row and
column, and changes nothing else a later command can see. Premises: the taps have been written (R38), the platform performs
every access (R245), no source byte is a destination byte (R66), each destination belongs to one column (R60), and the reset
input is released. -/
def Obligations.ConvVStoresConv32 : Prop :=
  ∀ s : State, s.cfg.wf → s.cap.valid = true → s.resetAfter = none → s.tapsWritten .conv32 →
    s.grants (s.accesses .conv32) → s.separate .conv32 →
    ∃ t, Sys2Proof.Machine.exec .convV s = .next t ∧
      (∀ r < s.params.rows, ∀ x < s.params.columns,
        t.byteAt (aOut s.params (s.params.rowY r) x) = s.conv32 (s.params.rowY r) x) ∧
      (∀ a : Addr, (∀ r < s.params.rows, ∀ x < s.params.columns, aOut s.params (s.params.rowY r) x ≠ a) →
        t.byteAt a = s.byteAt a) ∧
      t.cfg = s.cfg ∧ t.params = s.params ∧ t.cap = s.cap ∧ t.taps = s.taps ∧ t.fault = s.fault ∧ t.cmds = s.cmds ∧
      t.free = s.free ∧ t.seq.busy = false

/-- R151: CONV.F stores `conv16(y, x)` at `A_out(y, x)` for every row and column, whatever `CAP` holds, and changes nothing
else a later command can see. Premises: the taps have been written (R38), the platform performs every access (R245), no source
byte is a destination byte (R66), each destination belongs to one column (R60), and the reset input is released. -/
def Obligations.ConvFStoresConv16 : Prop :=
  ∀ s : State, s.cfg.wf → s.resetAfter = none → s.tapsWritten .conv16 → s.grants (s.accesses .conv16) →
    s.separate .conv16 →
    ∃ t, Sys2Proof.Machine.exec .convF s = .next t ∧
      (∀ r < s.params.rows, ∀ x < s.params.columns,
        t.byteAt (aOut s.params (s.params.rowY r) x) = s.conv16 (s.params.rowY r) x) ∧
      (∀ a : Addr, (∀ r < s.params.rows, ∀ x < s.params.columns, aOut s.params (s.params.rowY r) x ≠ a) →
        t.byteAt a = s.byteAt a) ∧
      t.cfg = s.cfg ∧ t.params = s.params ∧ t.cap = s.cap ∧ t.taps = s.taps ∧ t.fault = s.fault ∧ t.cmds = s.cmds ∧
      t.free = s.free ∧ t.seq.busy = false

/-- R174, R171: REDV.256 and REDV.128 store `redv(x)` at `A_redout(x)` for every sample, for every shift the parameter
allows, need no offset and no capability code, and change nothing else a later command can see. Premises: the mantissas have
been written (R38), the platform performs every access (R245), no source byte is a destination byte (R66), each destination
belongs to one sample (R60), and the reset input is released. -/
def Obligations.RedvStoresRedv : Prop :=
  ∀ (s : State) (i : Instr), i = .redv256 ∨ i = .redv128 → s.cfg.wf → s.resetAfter = none → s.tapsWritten .redv →
    s.grants (s.accesses .redv) → s.separate .redv →
    ∃ t, Sys2Proof.Machine.exec i s = .next t ∧
      (∀ x < s.params.columns, t.byteAt (aRedOut s.params x) = s.redv x) ∧
      (∀ a : Addr, (∀ x < s.params.columns, aRedOut s.params x ≠ a) → t.byteAt a = s.byteAt a) ∧
      t.cfg = s.cfg ∧ t.params = s.params ∧ t.cap = s.cap ∧ t.taps = s.taps ∧ t.fault = s.fault ∧ t.cmds = s.cmds ∧
      t.free = s.free ∧ t.seq.busy = false

/-- R61 with R133, R153, R173: an operation issues exactly its accesses, rows top to bottom, blocks left to right, in a block
one read per tap in ascending order and then the one write; overlap of input and output does not change this (R66).
Premises: the taps have been written (R38), the platform performs every access (R245), and the reset input is released. -/
def Obligations.OperationIssuesItsAccessesInOrder : Prop :=
  ∀ (s : State) (i : Instr) (k : Kernel), kernelOf i = some k → s.codeLatched k → s.cfg.wf → s.resetAfter = none →
    s.tapsWritten k → s.grants (s.accesses k) →
    ∃ t, Sys2Proof.Machine.exec i s = .next t ∧ t.bus = (s.accesses k).reverse ++ s.bus ∧ t.fault = s.fault ∧
      t.seq.busy = false

/-- R138, R215, R216, R219: the first access the platform refuses halts the engine with cause 5 (read) or 6 (write) and the
start address; the accesses before it were performed and no later one; no byte outside the blocks written so far changed, and
those blocks are complete and correct. Premises: the taps have been written (R38), the accesses before it are performed (R245),
and the reset input is released; that the stored bytes are correct holds where no source byte is a destination byte (R66) and
each destination belongs to one column (R60). -/
def Obligations.RefusedAccessHaltsThere : Prop :=
  ∀ (s : State) (i : Instr) (k : Kernel) (done rest : List Access) (x : Access), kernelOf i = some k →
    s.codeLatched k → s.cfg.wf → s.resetAfter = none → s.tapsWritten k → s.accesses k = done ++ x :: rest →
    s.grants done → x.answered s.cfg = true → x.backed s.cfg = false →
    ∃ t, Sys2Proof.Machine.exec i s = .next t ∧
      t.fault = { halted := true, cause := (match x.kind with | .read => 5#4 | .write => 6#4), info := x.addr.setWidth 64 } ∧
      t.seq.busy = false ∧ t.bus = x :: (done.reverse ++ s.bus) ∧
      t.cfg = s.cfg ∧ t.params = s.params ∧ t.cap = s.cap ∧ t.taps = s.taps ∧ t.cmds = s.cmds ∧
      (∀ a : Addr, a ∉ writtenBytes done → t.byteAt a = s.byteAt a) ∧
      (s.separate k → ∀ y ∈ s.rowsOf k, ∀ c < s.params.columns, k.dst s.params y c ∈ writtenBytes done →
        t.byteAt (k.dst s.params y c) = s.column k y c)

/-- R241: the reset input asserted after the accesses `done` of a running operation abandons it: they stay performed, nothing
later is issued, memory is not restored (the bytes written so far hold the contract's values, every other byte is as before),
and the engine is in its reset state, every tap half marked never written. That the delay is counted in accesses is the
model's form of the input (log entry 12). Premises: the taps have been written (R38) and the accesses `done` are performed
(R245); the values of the bytes written are stated where no source byte is a destination byte (R66) and each destination
belongs to one column (R60). That memory keeps exactly those bytes is R241's outcome on the hardware, taken
instead of U16's `any value` (log entry 27). -/
def Obligations.ResetAbandonsTheOperation : Prop :=
  ∀ (s : State) (i : Instr) (k : Kernel) (done rest : List Access) (x : Access), kernelOf i = some k →
    s.codeLatched k → s.cfg.wf → s.tapsWritten k → s.accesses k = done ++ x :: rest → s.grants done →
    s.resetAfter = some done.length →
    ∃ t, Sys2Proof.Machine.exec i s = .next t ∧
      t.fault = { halted := false, cause := 0#4, info := 0#64 } ∧ t.seq.busy = false ∧ t.cap = { valid := false, logn := 0#3 } ∧
      (∀ p : Param, t.params.get p = 0#32) ∧ t.taps.length = s.cfg.tapsMax ∧
      (∀ j : Nat, (t.tapAt j).offWritten = false ∧ (t.tapAt j).mantWritten = false) ∧
      t.cmdReady = true ∧ t.cfg = s.cfg ∧ t.resetAfter = none ∧ t.bus = done.reverse ++ s.bus ∧
      (∀ a : Addr, a ∉ writtenBytes done → t.byteAt a = s.byteAt a) ∧
      (s.separate k → ∀ y ∈ s.rowsOf k, ∀ c < s.params.columns, k.dst s.params y c ∈ writtenBytes done →
        t.byteAt (k.dst s.params y c) = s.column k y c)

/-- The operation sticks at the first access the memory port never answers (U12 of spec/93_implementation_defined.md; log
entry 4). Premises: the taps have been written (R38), the accesses before it are performed (R245), and the reset input is
released. -/
def Obligations.UnansweredAccessSticks : Prop :=
  ∀ (s : State) (i : Instr) (k : Kernel) (done rest : List Access) (x : Access), kernelOf i = some k →
    s.codeLatched k → s.cfg.wf → s.resetAfter = none → s.tapsWritten k → s.accesses k = done ++ x :: rest →
    s.grants done → x.answered s.cfg = false → Sys2Proof.Machine.exec i s = .fault .portNeverAnswers

/-- The read footprint (R69): CONV.V and REDV.* read exactly the source bytes of their columns; CONV.F with the load widths
16, 8, 4 reads those and at most 8 bytes past one of them. -/
def Obligations.ReadFootprint : Prop :=
  (∀ (s : State) (k : Kernel) (a : Addr), k ≠ .conv16 → (a ∈ readBytes (s.accesses k) ↔
    ∃ y ∈ s.rowsOf k, ∃ x < s.params.columns, ∃ i < s.params.tapCount, s.srcAddr k y x i = a)) ∧
  (∀ (s : State) (a : Addr), s.cfg.load8 = 16 → s.cfg.load2 = 8 → s.cfg.load1 = 4 →
    (∀ y ∈ s.rowsOf .conv16, ∀ x < s.params.columns, ∀ i < s.params.tapCount,
      s.srcAddr .conv16 y x i ∈ readBytes (s.accesses .conv16)) ∧
    (a ∈ readBytes (s.accesses .conv16) →
      ∃ y ∈ s.rowsOf .conv16, ∃ x < s.params.columns, ∃ i < s.params.tapCount, ∃ d ≤ 8,
        a = s.srcAddr .conv16 y x i + BitVec.ofNat 32 d))

/-- The lane count changes no byte (R120): CONV.V under any two latched codes leaves the same memory, where no byte is both
read and written (R66) and each destination belongs to one column (R60). Premises beside these: the taps have been written
(R38), the platform performs every access (R245), and the reset input is released. -/
def Obligations.LaneCountChangesNoByte : Prop :=
  ∀ (s s1 s2 : State) (l1 l2 : BitVec 3), s1 = { s with cap := { valid := true, logn := l1 } } →
    s2 = { s with cap := { valid := true, logn := l2 } } → s.cfg.wf → s.resetAfter = none → s.tapsWritten .conv32 →
    s1.grants (s1.accesses .conv32) → s2.grants (s2.accesses .conv32) → s.separate .conv32 →
    ∃ t1 t2, Sys2Proof.Machine.exec .convV s1 = .next t1 ∧ Sys2Proof.Machine.exec .convV s2 = .next t2 ∧
      ∀ a : Addr, t1.byteAt a = t2.byteAt a

/-- Cross-policy equivalence (R122): under `INV16` CONV.F and CONV.V leave the same memory, where no byte is both read and
written (R66) and each destination belongs to one column (R60). Premises beside these: the taps have been written (R38), the
platform performs every access (R245), and the reset input is released. -/
def Obligations.PoliciesAgreeUnderInv16 : Prop :=
  ∀ s : State, s.cfg.wf → s.cap.valid = true → s.resetAfter = none → s.tapsWritten .conv32 →
    s.grants (s.accesses .conv32) → s.grants (s.accesses .conv16) → s.separate .conv32 →
    s.inv16 (bias s.params.e) →
    ∃ t u, Sys2Proof.Machine.exec .convV s = .next t ∧ Sys2Proof.Machine.exec .convF s = .next u ∧
      ∀ a : Addr, t.byteAt a = u.byteAt a

/-- The merge strategy is not observable (R139): a build with another `MERGE_STRATEGY` ends every instruction the same way. -/
def Obligations.MergeStrategyIsUnobservable : Prop :=
  ∀ (s : State) (m : MergeStrategy) (i : Instr),
    (∀ t : State, Sys2Proof.Machine.exec i s = .next t →
      Sys2Proof.Machine.exec i { s with cfg := { s.cfg with merge := m } } =
        .next { t with cfg := { t.cfg with merge := m } }) ∧
    (∀ f : Fault, Sys2Proof.Machine.exec i s = .fault f →
      Sys2Proof.Machine.exec i { s with cfg := { s.cfg with merge := m } } = .fault f)

/-- No operation reads `RECT_WIDTH` (R23), and CONV.F does not read `CAP` (R150): with another value there the operation leaves
the same memory and fault record after the same accesses. -/
def Obligations.ConvolutionsIgnoreWidthAndConvFIgnoresCap : Prop :=
  (∀ (s t : State) (v : Word) (i : Instr), (kernelOf i).isSome = true → Sys2Proof.Machine.exec i s = .next t →
    ∃ t', Sys2Proof.Machine.exec i { s with params := { s.params with rectWidth := v } } = .next t' ∧
      t'.mem = t.mem ∧ t'.bus = t.bus ∧ t'.fault = t.fault) ∧
  (∀ (s t : State) (c : Cap), Sys2Proof.Machine.exec .convF s = .next t →
    ∃ t', Sys2Proof.Machine.exec .convF { s with cap := c } = .next t' ∧
      t'.mem = t.mem ∧ t'.bus = t.bus ∧ t'.fault = t.fault)

/-- The reduction reads only `OUT_BASE`, `IN_BASE`, `IN_STRIDE`, `NE`, `NNZ`, the mantissas and memory (R170, R54): two states
that agree on those, and on the platform's side, end the same way, whatever their other registers, offsets and `CAP`; the
sequencer position too, which no `RECT_*` register enters (what it holds after retire is the model's choice, log entry 8). -/
def Obligations.ReductionReadsOnlyItsOperands : Prop :=
  ∀ (s s' t : State) (i : Instr), i = .redv256 ∨ i = .redv128 → s'.cfg = s.cfg → s'.mem = s.mem → s'.bus = s.bus →
    s'.fault = s.fault → s'.resetAfter = s.resetAfter → s'.free = s.free →
    s'.params.outBase = s.params.outBase → s'.params.inBase = s.params.inBase →
    s'.params.inStride = s.params.inStride → s'.params.ne = s.params.ne → s'.params.nnz = s.params.nnz →
    (∀ j : Nat, (s'.tapAt j).mant = (s.tapAt j).mant ∧ (s'.tapAt j).mantWritten = (s.tapAt j).mantWritten) →
    Sys2Proof.Machine.exec i s = .next t →
    ∃ t', Sys2Proof.Machine.exec i s' = .next t' ∧ t'.mem = t.mem ∧ t'.bus = t.bus ∧ t'.fault = t.fault ∧
      t'.seq.r = t.seq.r ∧ t'.seq.y = t.seq.y ∧ t'.seq.x = t.seq.x ∧ t'.seq.w = t.seq.w ∧ t'.seq.i = t.seq.i

/-- An operation with no rows (a height of 0 or less, R135) or no columns (R136) retires at once: nothing is read or
written. -/
def Obligations.EmptyOperationTouchesNothing : Prop :=
  ∀ (s : State) (i : Instr) (k : Kernel), kernelOf i = some k → s.codeLatched k →
    ((k ≠ .redv ∧ s.params.rectHeight.toInt ≤ 0) ∨ s.params.ne = 0#32) →
    ∃ t, Sys2Proof.Machine.exec i s = .next t ∧ t.bus = s.bus ∧ t.mem = s.mem ∧ t.params = s.params ∧ t.cap = s.cap ∧
      t.taps = s.taps ∧ t.fault = s.fault ∧ t.free = s.free ∧ t.resetAfter = s.resetAfter ∧ t.seq.busy = false

/-- With no taps every output byte is `clamp_u8(off)` for a convolution (R137, R157) and 0 for the reduction (R176), whatever
the exponent `SETP` accepts (R195), and no byte is read. -/
def Obligations.NoTapsWriteTheClampedOffset : Prop :=
  ∀ (s : State) (i : Instr) (k : Kernel), kernelOf i = some k → s.codeLatched k → s.cfg.wf → s.resetAfter = none →
    s.params.exponent.toNat ≤ 31 → s.params.nnz = 0#32 → s.grants (s.accesses k) →
    ∃ t, Sys2Proof.Machine.exec i s = .next t ∧
      (∀ a : Addr, s.outputs k a →
        (k ≠ .redv → t.byteAt a = toByte s.params.outOffset.toInt) ∧ (k = .redv → t.byteAt a = 0#8)) ∧
      (∃ l : List Access, t.bus = l ++ s.bus ∧ ∀ x ∈ l, x.kind = .write)

/-- Determinism (R125): two machines with the same parameters, capability, taps and build, whose memories agree on the source
bytes of the columns, write the same bytes; what else memory holds, the over-read of CONV.F included (R155), has no
influence. Premises: the taps have been written (R38), the platform performs every access (R245), the reset input is released,
no source byte is a destination byte (R66), and each destination belongs to one column (R60). -/
def Obligations.ResultsDependOnlyOnSourceBytes : Prop :=
  ∀ (s s' : State) (i : Instr) (k : Kernel), kernelOf i = some k → s.codeLatched k → s.cfg.wf → s.resetAfter = none →
    s'.resetAfter = none → s'.cfg = s.cfg → s'.params = s.params → s'.cap = s.cap → s'.taps = s.taps →
    s.tapsWritten k → s.grants (s.accesses k) → s.separate k →
    (∀ y ∈ s.rowsOf k, ∀ x < s.params.columns, ∀ j < s.params.tapCount,
      s'.byteAt (s.srcAddr k y x j) = s.byteAt (s.srcAddr k y x j)) →
    ∃ t t', Sys2Proof.Machine.exec i s = .next t ∧ Sys2Proof.Machine.exec i s' = .next t' ∧
      ∀ y ∈ s.rowsOf k, ∀ x < s.params.columns,
        t'.byteAt (k.dst s.params y x) = t.byteAt (k.dst s.params y x)

/-! ### Numeric laws -/

/-- R117: adding the bias and shifting rounds the true quotient half up, for negative sums too. -/
def Obligations.ShiftRoundsHalfUp : Prop :=
  (∀ (e : Nat) (v : Int), 1 ≤ e → sra (bias e + v) e = ⌊(v : ℚ) / 2 ^ e + 1 / 2⌋) ∧ (∀ v : Int, sra (bias 0 + v) 0 = v)

/-- R114: the stored byte is 0 below the range, 255 above it and the value inside; narrowing through a signed 16-bit
saturation gives the same. -/
def Obligations.ResultByteIsClamped : Prop :=
  (∀ v : Int, ((toByte v).toNat : Int) = if v < 0 then 0 else if 255 < v then 255 else v) ∧
  (∀ v : Int, clampU8 (sat16 v) = clampU8 v)

/-- R118: the identity convolution. With one tap `2^e` at offset 0 and no output offset, CONV.V gives the source byte for `e`
up to 14; CONV.F gives it for `e` from 1 to 7, and from 8 to 14 only below `2^(15-e)`, and a smaller value above. -/
def Obligations.IdentityConvolution : Prop :=
  ∀ (s : State) (y : BitVec 32) (x : Nat), s.params.tapCount = 1 → s.mantAt 0 = 2 ^ s.params.e → s.offAt 0 = 0#32 →
    s.params.outOffset = 0#32 → s.params.e ≤ 14 →
    s.conv32 y x = s.byteAt (aIn s.params y x) ∧
    (1 ≤ s.params.e → s.params.e ≤ 7 → s.conv16 y x = s.byteAt (aIn s.params y x)) ∧
    (8 ≤ s.params.e → (s.byteAt (aIn s.params y x)).toNat < 2 ^ (15 - s.params.e) →
      s.conv16 y x = s.byteAt (aIn s.params y x)) ∧
    (8 ≤ s.params.e → 2 ^ (15 - s.params.e) ≤ (s.byteAt (aIn s.params y x)).toNat →
      (s.conv16 y x).toNat < (s.byteAt (aIn s.params y x)).toNat)

/-- R124: the reduction of one row with mantissa `2^INTERPOLATE_SHIFT` reproduces the row, for every shift the parameter
allows. -/
def Obligations.IdentityReduction : Prop :=
  ∀ (s : State) (x : Nat), s.cfg.wf → s.params.tapCount = 1 → s.mantAt 0 = 2 ^ s.cfg.interpolateShift →
    s.redv x = s.byteAt (aRed s.params x 0)

/-- Under `INV32` no 32-bit accumulator wraps, whatever the samples (R105, R111); with at most 256 taps the reduction never
wraps, whatever the mantissas (R176). -/
def Obligations.AccumulatorsDoNotWrapUnderInv32 : Prop :=
  (∀ (s : State) (k : Kernel) (y : BitVec 32) (x : Nat) (b : Int), 0 ≤ b → s.inv32 b →
    wrap32 (b + s.weightedSum k y x) = b + s.weightedSum k y x) ∧
  (∀ (s : State) (x : Nat), s.cfg.wf → s.params.tapCount ≤ 256 →
    wrap32 (redvBias s.cfg + s.weightedSum .redv 0 x) = redvBias s.cfg + s.weightedSum .redv 0 x)

/-- R106: a packed pair holds the lower-numbered tap in its low half and unpacks to the two mantissas. -/
def Obligations.PackedPairUnpacks : Prop :=
  ∀ m0 m1 : Mant, unpack (pack m0 m1) = (m0, m1) ∧ (pack m0 m1).toNat = m1.toNat * 2 ^ 16 + m0.toNat

/-- R51, R52, R53, R54: the address functions are the spec's integer formulas modulo 2^32, with the signed registers read as
two's complement; the row coordinate of row `r` is `wrap32(top + r)` (R135). -/
def Obligations.AddressFunctions : Prop :=
  ∀ (s : State) (y : BitVec 32) (x i r : Nat),
    aIn s.params y x = BitVec.ofInt 32
      (s.params.inBase.toNat + y.toInt * s.params.inStride.toNat + (s.params.rectLeft.toInt + x)) ∧
    s.srcAddr .conv32 y x i = BitVec.ofInt 32 ((aIn s.params y x).toNat + (s.offAt i).toInt) ∧
    aOut s.params y x = BitVec.ofInt 32 (s.params.outBase.toNat + y.toInt * s.params.outStride.toNat + x) ∧
    aRed s.params x r = BitVec.ofInt 32 (s.params.inBase.toNat + r * s.params.inStride.toNat + x) ∧
    aRedOut s.params x = BitVec.ofInt 32 (s.params.outBase.toNat + x) ∧
    (s.params.rowY r).toInt = wrap32 (s.params.rectTop.toInt + r)

/-- The blocks of a row partition its columns in ascending order: the columns of the blocks, one after another, are 0 to
`ne - 1` (R132, R152, R172). -/
def Obligations.BlocksPartitionTheRow : Prop :=
  (∀ (c : Cap) (ne : Nat),
    (blocksV c.lanes ne).flatMap (fun b => (List.range b.w).map (b.x + ·)) = List.range ne) ∧
  (∀ ne : Nat, (blocks821 ne).flatMap (fun b => (List.range b.w).map (b.x + ·)) = List.range ne)

/-! ### The invariant -/

/-- The invariant holds right after reset (R37; the configuration is the default, log entries 2 and 3). -/
def Obligations.InvariantHoldsAtReset : Prop := State.reset.Inv

/-- Every step keeps the invariant: legal parameters, canonical memory, a table of `TAPS_MAX` entries, `NNZ` and `EXPONENT`
inside their limits (R195), a legal capability code (R24), a fault record empty unless halted with a cause from 1 to 6 (R27,
R210), no command in progress between steps (R81). -/
def Obligations.EveryStepKeepsTheInvariant : Prop :=
  ∀ s t : State, s.Inv → step s = .next t → t.Inv

/-! ### The status port -/

/-- R28: each output of the status port is the field the rule names. `busy` is set by the acceptance of any command and is 0
again when its step is over. `halted` is set by fault entry only, with a cause from 1 to 6, and cleared by reset only; the
cause and the information change with it only. `cap_valid` is set by the first SETCAP, with its code, and cleared by reset
only. A reset clears all six; the form of the reset input is the model's (log entry 12). -/
def Obligations.StatusPortFollowsTheEngine : Prop :=
  ∀ s : State,
    s.status =
      { busy := s.seq.busy, halted := s.fault.halted, capValid := s.cap.valid, capLogn := s.cap.logn
        faultCause := s.fault.cause, faultInfo := s.fault.info } ∧
    (∀ (w : CmdWord) (i : Instr), s.takes w → decode s.cfg w = .legal i →
      step s = Sys2Proof.Machine.exec i (s.accept i) ∧ (s.accept i).status = { s.status with busy := true }) ∧
    (∀ (w : CmdWord) (e : DecodeError), s.takes w → decode s.cfg w = .illegal e →
      ∃ t, step s = .next t ∧
        t.status =
          { s.status with
            halted := true
            faultCause := (match e with | .illegalCommand => 1#4 | .illegalOperand => 2#4)
            faultInfo := w }) ∧
    (∀ (w : CmdWord) (l : BitVec 3), s.takes w → decode s.cfg w = .legal (.setcap l) → s.status.capValid = false →
      ∃ t, step s = .next t ∧ t.status = { s.status with capValid := true, capLogn := l }) ∧
    (s.resetAfter = some 0 → ∃ t, step s = .next t ∧
      t.status =
        { busy := false, halted := false, capValid := false, capLogn := 0#3, faultCause := 0#4, faultInfo := 0#64 }) ∧
    (∀ t : State, step s = .next t →
      t.status.busy = false ∧
      (s.status.halted = true → t.status.halted = true ∨ s.resetAfter = some 0) ∧
      (s.status.halted = false → t.status.halted = true →
        (∃ w, s.takes w) ∧ 1 ≤ t.status.faultCause.toNat ∧ t.status.faultCause.toNat ≤ 6) ∧
      (s.resetAfter = none → t.status.halted = s.status.halted →
        t.status.faultCause = s.status.faultCause ∧ t.status.faultInfo = s.status.faultInfo) ∧
      (s.status.capValid = true → t.status.capValid = true ∨ s.resetAfter.isSome = true) ∧
      (s.status.capValid = false → t.status.capValid = true →
        ∃ w, s.takes w ∧ decode s.cfg w = .legal (.setcap t.status.capLogn)))
end

