-- ==== Sys2Proof/Laws/Arith.lean ====
section
/-! SUPPORT. Lemmas about the arithmetic primitives, the packed mantissa pair and the merge of the accumulator banks. -/

namespace Sys2Proof.Machine

/-! ### wrap32 and 32-bit lanes -/

@[simp] theorem toInt_ofInt_32 (v : Int) : (BitVec.ofInt 32 v).toInt = wrap32 v := by
  rw [BitVec.toInt_ofInt]; rfl

@[simp] theorem bmod_eq_wrap32 (v : Int) : v.bmod 4294967296 = wrap32 v := rfl

@[simp] theorem wrap32_wrap32 (v : Int) : wrap32 (wrap32 v) = wrap32 v := by
  simp only [wrap32, Int.bmod_bmod]

@[simp] theorem wrap32_wrap32_add (a b : Int) : wrap32 (wrap32 a + b) = wrap32 (a + b) := by
  simp only [wrap32, Int.bmod_add_bmod]

/-- `mac32` of a wrapped accumulator is the wrap of the exact sum (R111). -/
theorem mac32_wrap32 (a m0 s0 m1 s1 : Int) :
    mac32 (wrap32 a) m0 s0 m1 s1 = wrap32 (a + (m0 * s0 + m1 * s1)) := by
  simp only [mac32, add_assoc]
  exact wrap32_wrap32_add a (m0 * s0 + m1 * s1)

theorem mac32Single_wrap32 (a m s : Int) : mac32Single (wrap32 a) m s = wrap32 (a + m * s) := by
  simp [mac32Single, mac32]

theorem wrap32_of_range {v : Int} (h : -2147483648 ≤ v) (h' : v ≤ 2147483647) : wrap32 v = v := by
  unfold wrap32
  rw [Int.bmod_def]
  split <;> omega

theorem wrap32_range (v : Int) : -2147483648 ≤ wrap32 v ∧ wrap32 v ≤ 2147483647 := by
  unfold wrap32
  rw [Int.bmod_def]
  split <;> omega

theorem wrap32_emod (v : Int) : wrap32 v % 2 ^ 32 = v % 2 ^ 32 := by
  unfold wrap32
  rw [Int.bmod_def]
  split <;> omega

/-! ### sat16 and 16-bit lanes -/

theorem sat16_range (v : Int) : -32768 ≤ sat16 v ∧ sat16 v ≤ 32767 := by
  unfold sat16; omega

theorem sat16_of_range {v : Int} (h : -32768 ≤ v) (h' : v ≤ 32767) : sat16 v = v := by
  unfold sat16; omega

@[simp] theorem toInt_ofInt_16_sat16 (v : Int) : (BitVec.ofInt 16 (sat16 v)).toInt = sat16 v := by
  have h := sat16_range v
  rw [BitVec.toInt_ofInt, Int.bmod_def]
  split <;> omega

@[simp] theorem sat16_bmod (v : Int) : (sat16 v).bmod 65536 = sat16 v := by
  have h := sat16_range v
  rw [Int.bmod_def]
  split <;> omega

/-! ### clamp, bias, out -/

theorem clampU8_range (v : Int) : 0 ≤ clampU8 v ∧ clampU8 v ≤ 255 := by
  unfold clampU8; omega

/-- The stored byte is the clamped value (R114, R119). -/
theorem toByte_toNat (v : Int) : ((toByte v).toNat : Int) = clampU8 v := by
  have h := clampU8_range v
  unfold toByte
  rw [BitVec.toNat_ofInt]
  have : clampU8 v % ((2 ^ 8 : Nat) : Int) = clampU8 v := Int.emod_eq_of_lt h.1 (by omega)
  rw [this]
  omega

theorem bias_zero : bias 0 = 0 := by decide

theorem bias_succ (e : Nat) : bias (e + 1) = 2 ^ e := by
  simp [bias, Nat.shiftLeft_eq, Nat.shiftRight_eq_div_pow, pow_succ]

/-! ### pack and unpack -/

@[simp] theorem pack_low (m0 m1 : Mant) : (pack m0 m1).extractLsb' 0 16 = m0 := by
  apply BitVec.eq_of_getLsbD_eq
  intro i hi
  have h := BitVec.getLsbD_append (x := m1) (y := m0) (i := i)
  simp only [pack, BitVec.getLsbD_extractLsb', hi, decide_true, Bool.true_and, Nat.zero_add]
  exact h.trans (by simp [hi])

@[simp] theorem pack_high (m0 m1 : Mant) : (pack m0 m1).extractLsb' 16 16 = m1 := by
  apply BitVec.eq_of_getLsbD_eq
  intro i hi
  have h := BitVec.getLsbD_append (x := m1) (y := m0) (i := 16 + i)
  simp only [pack, BitVec.getLsbD_extractLsb', hi, decide_true, Bool.true_and]
  exact h.trans (by simp)

@[simp] theorem unpack_pack (m0 m1 : Mant) : unpack (pack m0 m1) = (m0, m1) := by
  simp [unpack]

/-! ### The merge of the banks -/

theorem interleave_even_odd {α : Type} : ∀ l : List α, interleave (evenLanes l) (oddLanes l) = l
  | [] => rfl
  | [_] => rfl
  | a :: b :: rest => by simp [evenLanes, oddLanes, interleave, interleave_even_odd rest]

/-- Every merge strategy gives the lanes back in order (R139). -/
@[simp] theorem mergeLanes_eq {α : Type} (m : MergeStrategy) (l : List α) : mergeLanes m l = l := by
  cases m
  · exact interleave_even_odd l
  · rfl

end Sys2Proof.Machine
end

