-- ==== Sys2Proof/Laws/State.lean ====
section
/-! SUPPORT. One lemma per field per update of the state: what the update leaves in the field. -/

namespace Sys2Proof.Machine.State

variable (s : State)

/-! ### raise -/

@[simp] theorem raise_cfg (c : Cause) (v : BitVec 64) : (s.raise c v).cfg = s.cfg := rfl
@[simp] theorem raise_params (c : Cause) (v : BitVec 64) : (s.raise c v).params = s.params := rfl
@[simp] theorem raise_cap (c : Cause) (v : BitVec 64) : (s.raise c v).cap = s.cap := rfl
@[simp] theorem raise_taps (c : Cause) (v : BitVec 64) : (s.raise c v).taps = s.taps := rfl
@[simp] theorem raise_fault (c : Cause) (v : BitVec 64) : (s.raise c v).fault = { halted := true, cause := c.code, info := v } := rfl
@[simp] theorem raise_seq (c : Cause) (v : BitVec 64) : (s.raise c v).seq = { s.seq with busy := false } := rfl
@[simp] theorem raise_acc (c : Cause) (v : BitVec 64) : (s.raise c v).acc = s.acc := rfl
@[simp] theorem raise_mem (c : Cause) (v : BitVec 64) : (s.raise c v).mem = s.mem := rfl
@[simp] theorem raise_cmds (c : Cause) (v : BitVec 64) : (s.raise c v).cmds = s.cmds := rfl
@[simp] theorem raise_resetAfter (c : Cause) (v : BitVec 64) : (s.raise c v).resetAfter = s.resetAfter := rfl
@[simp] theorem raise_free (c : Cause) (v : BitVec 64) : (s.raise c v).free = s.free := rfl
@[simp] theorem raise_bus (c : Cause) (v : BitVec 64) : (s.raise c v).bus = s.bus := rfl

/-! ### retire -/

@[simp] theorem retire_cfg : (s.retire).cfg = s.cfg := rfl
@[simp] theorem retire_params : (s.retire).params = s.params := rfl
@[simp] theorem retire_cap : (s.retire).cap = s.cap := rfl
@[simp] theorem retire_taps : (s.retire).taps = s.taps := rfl
@[simp] theorem retire_fault : (s.retire).fault = s.fault := rfl
@[simp] theorem retire_seq : (s.retire).seq = { s.seq with busy := false } := rfl
@[simp] theorem retire_acc : (s.retire).acc = s.acc := rfl
@[simp] theorem retire_mem : (s.retire).mem = s.mem := rfl
@[simp] theorem retire_cmds : (s.retire).cmds = s.cmds := rfl
@[simp] theorem retire_resetAfter : (s.retire).resetAfter = s.resetAfter := rfl
@[simp] theorem retire_free : (s.retire).free = s.free := rfl
@[simp] theorem retire_bus : (s.retire).bus = s.bus := rfl

/-! ### engineReset -/

@[simp] theorem engineReset_cfg : (s.engineReset).cfg = s.cfg := rfl
@[simp] theorem engineReset_params : (s.engineReset).params = Params.reset := rfl
@[simp] theorem engineReset_cap : (s.engineReset).cap = Cap.reset := rfl
@[simp] theorem engineReset_taps : (s.engineReset).taps = List.replicate s.cfg.tapsMax Tap.unwritten := rfl
@[simp] theorem engineReset_fault : (s.engineReset).fault = FaultRecord.reset := rfl
@[simp] theorem engineReset_seq : (s.engineReset).seq = Seq.reset := rfl
@[simp] theorem engineReset_acc : (s.engineReset).acc = AccFile.reset := rfl
@[simp] theorem engineReset_mem : (s.engineReset).mem = s.mem := rfl
@[simp] theorem engineReset_cmds : (s.engineReset).cmds = s.cmds := rfl
@[simp] theorem engineReset_resetAfter : (s.engineReset).resetAfter = none := rfl
@[simp] theorem engineReset_free : (s.engineReset).free = s.free := rfl
@[simp] theorem engineReset_bus : (s.engineReset).bus = s.bus := rfl

/-! ### logAccess -/

@[simp] theorem logAccess_cfg (x : Access) : (s.logAccess x).cfg = s.cfg := rfl
@[simp] theorem logAccess_params (x : Access) : (s.logAccess x).params = s.params := rfl
@[simp] theorem logAccess_cap (x : Access) : (s.logAccess x).cap = s.cap := rfl
@[simp] theorem logAccess_taps (x : Access) : (s.logAccess x).taps = s.taps := rfl
@[simp] theorem logAccess_fault (x : Access) : (s.logAccess x).fault = s.fault := rfl
@[simp] theorem logAccess_seq (x : Access) : (s.logAccess x).seq = s.seq := rfl
@[simp] theorem logAccess_acc (x : Access) : (s.logAccess x).acc = s.acc := rfl
@[simp] theorem logAccess_mem (x : Access) : (s.logAccess x).mem = s.mem := rfl
@[simp] theorem logAccess_cmds (x : Access) : (s.logAccess x).cmds = s.cmds := rfl
@[simp] theorem logAccess_resetAfter (x : Access) : (s.logAccess x).resetAfter = s.resetAfter.map (· - 1) := rfl
@[simp] theorem logAccess_free (x : Access) : (s.logAccess x).free = s.free := rfl
@[simp] theorem logAccess_bus (x : Access) : (s.logAccess x).bus = x :: s.bus := rfl

/-! ### storeByte -/

@[simp] theorem storeByte_cfg (a : Addr) (b : Byte) : (s.storeByte a b).cfg = s.cfg := rfl
@[simp] theorem storeByte_params (a : Addr) (b : Byte) : (s.storeByte a b).params = s.params := rfl
@[simp] theorem storeByte_cap (a : Addr) (b : Byte) : (s.storeByte a b).cap = s.cap := rfl
@[simp] theorem storeByte_taps (a : Addr) (b : Byte) : (s.storeByte a b).taps = s.taps := rfl
@[simp] theorem storeByte_fault (a : Addr) (b : Byte) : (s.storeByte a b).fault = s.fault := rfl
@[simp] theorem storeByte_seq (a : Addr) (b : Byte) : (s.storeByte a b).seq = s.seq := rfl
@[simp] theorem storeByte_acc (a : Addr) (b : Byte) : (s.storeByte a b).acc = s.acc := rfl
@[simp] theorem storeByte_mem (a : Addr) (b : Byte) : (s.storeByte a b).mem = Memory.write s.mem a.toNat b := rfl
@[simp] theorem storeByte_cmds (a : Addr) (b : Byte) : (s.storeByte a b).cmds = s.cmds := rfl
@[simp] theorem storeByte_resetAfter (a : Addr) (b : Byte) : (s.storeByte a b).resetAfter = s.resetAfter := rfl
@[simp] theorem storeByte_free (a : Addr) (b : Byte) : (s.storeByte a b).free = s.free := rfl
@[simp] theorem storeByte_bus (a : Addr) (b : Byte) : (s.storeByte a b).bus = s.bus := rfl

/-! ### writeOff -/

@[simp] theorem writeOff_cfg (i : Nat) (v : Word) : (s.writeOff i v).cfg = s.cfg := rfl
@[simp] theorem writeOff_params (i : Nat) (v : Word) : (s.writeOff i v).params = s.params := rfl
@[simp] theorem writeOff_cap (i : Nat) (v : Word) : (s.writeOff i v).cap = s.cap := rfl
@[simp] theorem writeOff_taps (i : Nat) (v : Word) : (s.writeOff i v).taps = s.taps.set i { s.tapAt i with off := v, offWritten := true } := rfl
@[simp] theorem writeOff_fault (i : Nat) (v : Word) : (s.writeOff i v).fault = s.fault := rfl
@[simp] theorem writeOff_seq (i : Nat) (v : Word) : (s.writeOff i v).seq = s.seq := rfl
@[simp] theorem writeOff_acc (i : Nat) (v : Word) : (s.writeOff i v).acc = s.acc := rfl
@[simp] theorem writeOff_mem (i : Nat) (v : Word) : (s.writeOff i v).mem = s.mem := rfl
@[simp] theorem writeOff_cmds (i : Nat) (v : Word) : (s.writeOff i v).cmds = s.cmds := rfl
@[simp] theorem writeOff_resetAfter (i : Nat) (v : Word) : (s.writeOff i v).resetAfter = s.resetAfter := rfl
@[simp] theorem writeOff_free (i : Nat) (v : Word) : (s.writeOff i v).free = s.free := rfl
@[simp] theorem writeOff_bus (i : Nat) (v : Word) : (s.writeOff i v).bus = s.bus := rfl

/-! ### writeMant -/

@[simp] theorem writeMant_cfg (i : Nat) (v : Mant) : (s.writeMant i v).cfg = s.cfg := rfl
@[simp] theorem writeMant_params (i : Nat) (v : Mant) : (s.writeMant i v).params = s.params := rfl
@[simp] theorem writeMant_cap (i : Nat) (v : Mant) : (s.writeMant i v).cap = s.cap := rfl
@[simp] theorem writeMant_taps (i : Nat) (v : Mant) : (s.writeMant i v).taps = s.taps.set i { s.tapAt i with mant := v, mantWritten := true } := rfl
@[simp] theorem writeMant_fault (i : Nat) (v : Mant) : (s.writeMant i v).fault = s.fault := rfl
@[simp] theorem writeMant_seq (i : Nat) (v : Mant) : (s.writeMant i v).seq = s.seq := rfl
@[simp] theorem writeMant_acc (i : Nat) (v : Mant) : (s.writeMant i v).acc = s.acc := rfl
@[simp] theorem writeMant_mem (i : Nat) (v : Mant) : (s.writeMant i v).mem = s.mem := rfl
@[simp] theorem writeMant_cmds (i : Nat) (v : Mant) : (s.writeMant i v).cmds = s.cmds := rfl
@[simp] theorem writeMant_resetAfter (i : Nat) (v : Mant) : (s.writeMant i v).resetAfter = s.resetAfter := rfl
@[simp] theorem writeMant_free (i : Nat) (v : Mant) : (s.writeMant i v).free = s.free := rfl
@[simp] theorem writeMant_bus (i : Nat) (v : Mant) : (s.writeMant i v).bus = s.bus := rfl

/-! ### takeWord -/

@[simp] theorem takeWord_cfg : (s.takeWord).cfg = s.cfg := rfl
@[simp] theorem takeWord_params : (s.takeWord).params = s.params := rfl
@[simp] theorem takeWord_cap : (s.takeWord).cap = s.cap := rfl
@[simp] theorem takeWord_taps : (s.takeWord).taps = s.taps := rfl
@[simp] theorem takeWord_fault : (s.takeWord).fault = s.fault := rfl
@[simp] theorem takeWord_seq : (s.takeWord).seq = s.seq := rfl
@[simp] theorem takeWord_acc : (s.takeWord).acc = s.acc := rfl
@[simp] theorem takeWord_mem : (s.takeWord).mem = s.mem := rfl
@[simp] theorem takeWord_cmds : (s.takeWord).cmds = s.cmds.tail := rfl
@[simp] theorem takeWord_resetAfter : (s.takeWord).resetAfter = s.resetAfter := rfl
@[simp] theorem takeWord_free : (s.takeWord).free = s.free := rfl
@[simp] theorem takeWord_bus : (s.takeWord).bus = s.bus := rfl

/-! ### accept -/

@[simp] theorem accept_cfg (i : Instr) : (s.accept i).cfg = s.cfg := rfl
@[simp] theorem accept_params (i : Instr) : (s.accept i).params = s.params := rfl
@[simp] theorem accept_cap (i : Instr) : (s.accept i).cap = s.cap := rfl
@[simp] theorem accept_taps (i : Instr) : (s.accept i).taps = s.taps := rfl
@[simp] theorem accept_fault (i : Instr) : (s.accept i).fault = s.fault := rfl
@[simp] theorem accept_seq (i : Instr) : (s.accept i).seq = { s.seq with busy := true, op := i.command } := rfl
@[simp] theorem accept_acc (i : Instr) : (s.accept i).acc = s.acc := rfl
@[simp] theorem accept_mem (i : Instr) : (s.accept i).mem = s.mem := rfl
@[simp] theorem accept_cmds (i : Instr) : (s.accept i).cmds = s.cmds.tail := rfl
@[simp] theorem accept_resetAfter (i : Instr) : (s.accept i).resetAfter = s.resetAfter := rfl
@[simp] theorem accept_free (i : Instr) : (s.accept i).free = s.free := rfl
@[simp] theorem accept_bus (i : Instr) : (s.accept i).bus = s.bus := rfl

/-! ### present -/

@[simp] theorem present_cfg (w : CmdWord) : (s.present w).cfg = s.cfg := rfl
@[simp] theorem present_params (w : CmdWord) : (s.present w).params = s.params := rfl
@[simp] theorem present_cap (w : CmdWord) : (s.present w).cap = s.cap := rfl
@[simp] theorem present_taps (w : CmdWord) : (s.present w).taps = s.taps := rfl
@[simp] theorem present_fault (w : CmdWord) : (s.present w).fault = s.fault := rfl
@[simp] theorem present_seq (w : CmdWord) : (s.present w).seq = s.seq := rfl
@[simp] theorem present_acc (w : CmdWord) : (s.present w).acc = s.acc := rfl
@[simp] theorem present_mem (w : CmdWord) : (s.present w).mem = s.mem := rfl
@[simp] theorem present_cmds (w : CmdWord) : (s.present w).cmds = w :: s.cmds := rfl
@[simp] theorem present_resetAfter (w : CmdWord) : (s.present w).resetAfter = s.resetAfter := rfl
@[simp] theorem present_free (w : CmdWord) : (s.present w).free = s.free := rfl
@[simp] theorem present_bus (w : CmdWord) : (s.present w).bus = s.bus := rfl

/-! ### afterTaps -/

@[simp] theorem afterTaps_cfg (f : AccFile) (i : Nat) : (s.afterTaps f i).cfg = s.cfg := rfl
@[simp] theorem afterTaps_params (f : AccFile) (i : Nat) : (s.afterTaps f i).params = s.params := rfl
@[simp] theorem afterTaps_cap (f : AccFile) (i : Nat) : (s.afterTaps f i).cap = s.cap := rfl
@[simp] theorem afterTaps_taps (f : AccFile) (i : Nat) : (s.afterTaps f i).taps = s.taps := rfl
@[simp] theorem afterTaps_fault (f : AccFile) (i : Nat) : (s.afterTaps f i).fault = s.fault := rfl
@[simp] theorem afterTaps_seq (f : AccFile) (i : Nat) : (s.afterTaps f i).seq = { s.seq with i := i } := rfl
@[simp] theorem afterTaps_acc (f : AccFile) (i : Nat) : (s.afterTaps f i).acc = f := rfl
@[simp] theorem afterTaps_mem (f : AccFile) (i : Nat) : (s.afterTaps f i).mem = s.mem := rfl
@[simp] theorem afterTaps_cmds (f : AccFile) (i : Nat) : (s.afterTaps f i).cmds = s.cmds := rfl
@[simp] theorem afterTaps_resetAfter (f : AccFile) (i : Nat) : (s.afterTaps f i).resetAfter = s.resetAfter := rfl
@[simp] theorem afterTaps_free (f : AccFile) (i : Nat) : (s.afterTaps f i).free = s.free := rfl
@[simp] theorem afterTaps_bus (f : AccFile) (i : Nat) : (s.afterTaps f i).bus = s.bus := rfl

/-! ### beginBlock -/

@[simp] theorem beginBlock_cfg (k : Kernel) (p : Params) (b : Block) : (s.beginBlock k p b).cfg = s.cfg := rfl
@[simp] theorem beginBlock_params (k : Kernel) (p : Params) (b : Block) : (s.beginBlock k p b).params = s.params := rfl
@[simp] theorem beginBlock_cap (k : Kernel) (p : Params) (b : Block) : (s.beginBlock k p b).cap = s.cap := rfl
@[simp] theorem beginBlock_taps (k : Kernel) (p : Params) (b : Block) : (s.beginBlock k p b).taps = s.taps := rfl
@[simp] theorem beginBlock_fault (k : Kernel) (p : Params) (b : Block) : (s.beginBlock k p b).fault = s.fault := rfl
@[simp] theorem beginBlock_seq (k : Kernel) (p : Params) (b : Block) : (s.beginBlock k p b).seq = { s.seq with x := b.x, w := b.w, i := 0 } := rfl
@[simp] theorem beginBlock_acc (k : Kernel) (p : Params) (b : Block) : (s.beginBlock k p b).acc = k.accFile (List.replicate b.w (k.init s.cfg p)) := rfl
@[simp] theorem beginBlock_mem (k : Kernel) (p : Params) (b : Block) : (s.beginBlock k p b).mem = s.mem := rfl
@[simp] theorem beginBlock_cmds (k : Kernel) (p : Params) (b : Block) : (s.beginBlock k p b).cmds = s.cmds := rfl
@[simp] theorem beginBlock_resetAfter (k : Kernel) (p : Params) (b : Block) : (s.beginBlock k p b).resetAfter = s.resetAfter := rfl
@[simp] theorem beginBlock_free (k : Kernel) (p : Params) (b : Block) : (s.beginBlock k p b).free = s.free := rfl
@[simp] theorem beginBlock_bus (k : Kernel) (p : Params) (b : Block) : (s.beginBlock k p b).bus = s.bus := rfl

/-! ### endBlock -/

@[simp] theorem endBlock_cfg (b : Block) : (s.endBlock b).cfg = s.cfg := rfl
@[simp] theorem endBlock_params (b : Block) : (s.endBlock b).params = s.params := rfl
@[simp] theorem endBlock_cap (b : Block) : (s.endBlock b).cap = s.cap := rfl
@[simp] theorem endBlock_taps (b : Block) : (s.endBlock b).taps = s.taps := rfl
@[simp] theorem endBlock_fault (b : Block) : (s.endBlock b).fault = s.fault := rfl
@[simp] theorem endBlock_seq (b : Block) : (s.endBlock b).seq = { s.seq with x := b.x + b.w } := rfl
@[simp] theorem endBlock_acc (b : Block) : (s.endBlock b).acc = s.acc := rfl
@[simp] theorem endBlock_mem (b : Block) : (s.endBlock b).mem = s.mem := rfl
@[simp] theorem endBlock_cmds (b : Block) : (s.endBlock b).cmds = s.cmds := rfl
@[simp] theorem endBlock_resetAfter (b : Block) : (s.endBlock b).resetAfter = s.resetAfter := rfl
@[simp] theorem endBlock_free (b : Block) : (s.endBlock b).free = s.free := rfl
@[simp] theorem endBlock_bus (b : Block) : (s.endBlock b).bus = s.bus := rfl

/-! ### beginRow -/

@[simp] theorem beginRow_cfg (p : Params) (r : Nat) : (s.beginRow p r).cfg = s.cfg := rfl
@[simp] theorem beginRow_params (p : Params) (r : Nat) : (s.beginRow p r).params = s.params := rfl
@[simp] theorem beginRow_cap (p : Params) (r : Nat) : (s.beginRow p r).cap = s.cap := rfl
@[simp] theorem beginRow_taps (p : Params) (r : Nat) : (s.beginRow p r).taps = s.taps := rfl
@[simp] theorem beginRow_fault (p : Params) (r : Nat) : (s.beginRow p r).fault = s.fault := rfl
@[simp] theorem beginRow_seq (p : Params) (r : Nat) : (s.beginRow p r).seq = { s.seq with r := r, y := p.rowY r, x := 0 } := rfl
@[simp] theorem beginRow_acc (p : Params) (r : Nat) : (s.beginRow p r).acc = s.acc := rfl
@[simp] theorem beginRow_mem (p : Params) (r : Nat) : (s.beginRow p r).mem = s.mem := rfl
@[simp] theorem beginRow_cmds (p : Params) (r : Nat) : (s.beginRow p r).cmds = s.cmds := rfl
@[simp] theorem beginRow_resetAfter (p : Params) (r : Nat) : (s.beginRow p r).resetAfter = s.resetAfter := rfl
@[simp] theorem beginRow_free (p : Params) (r : Nat) : (s.beginRow p r).free = s.free := rfl
@[simp] theorem beginRow_bus (p : Params) (r : Nat) : (s.beginRow p r).bus = s.bus := rfl

/-! ### endRow -/

@[simp] theorem endRow_cfg (r : Nat) : (s.endRow r).cfg = s.cfg := rfl
@[simp] theorem endRow_params (r : Nat) : (s.endRow r).params = s.params := rfl
@[simp] theorem endRow_cap (r : Nat) : (s.endRow r).cap = s.cap := rfl
@[simp] theorem endRow_taps (r : Nat) : (s.endRow r).taps = s.taps := rfl
@[simp] theorem endRow_fault (r : Nat) : (s.endRow r).fault = s.fault := rfl
@[simp] theorem endRow_seq (r : Nat) : (s.endRow r).seq = { s.seq with r := r + 1 } := rfl
@[simp] theorem endRow_acc (r : Nat) : (s.endRow r).acc = s.acc := rfl
@[simp] theorem endRow_mem (r : Nat) : (s.endRow r).mem = s.mem := rfl
@[simp] theorem endRow_cmds (r : Nat) : (s.endRow r).cmds = s.cmds := rfl
@[simp] theorem endRow_resetAfter (r : Nat) : (s.endRow r).resetAfter = s.resetAfter := rfl
@[simp] theorem endRow_free (r : Nat) : (s.endRow r).free = s.free := rfl
@[simp] theorem endRow_bus (r : Nat) : (s.endRow r).bus = s.bus := rfl

/-! ### beginOperation -/

@[simp] theorem beginOperation_cfg (y : BitVec 32) : (s.beginOperation y).cfg = s.cfg := rfl
@[simp] theorem beginOperation_params (y : BitVec 32) : (s.beginOperation y).params = s.params := rfl
@[simp] theorem beginOperation_cap (y : BitVec 32) : (s.beginOperation y).cap = s.cap := rfl
@[simp] theorem beginOperation_taps (y : BitVec 32) : (s.beginOperation y).taps = s.taps := rfl
@[simp] theorem beginOperation_fault (y : BitVec 32) : (s.beginOperation y).fault = s.fault := rfl
@[simp] theorem beginOperation_seq (y : BitVec 32) : (s.beginOperation y).seq = { s.seq with r := 0, y := y, x := 0, w := 0, i := 0 } := rfl
@[simp] theorem beginOperation_acc (y : BitVec 32) : (s.beginOperation y).acc = s.acc := rfl
@[simp] theorem beginOperation_mem (y : BitVec 32) : (s.beginOperation y).mem = s.mem := rfl
@[simp] theorem beginOperation_cmds (y : BitVec 32) : (s.beginOperation y).cmds = s.cmds := rfl
@[simp] theorem beginOperation_resetAfter (y : BitVec 32) : (s.beginOperation y).resetAfter = s.resetAfter := rfl
@[simp] theorem beginOperation_free (y : BitVec 32) : (s.beginOperation y).free = s.free := rfl
@[simp] theorem beginOperation_bus (y : BitVec 32) : (s.beginOperation y).bus = s.bus := rfl

end Sys2Proof.Machine.State
end

