-- ==== Sys2Proof/Laws/Memory.lean ====
section
/-! SUPPORT. Memory: read after write, the canonical form, and the bytes an access stores. -/

namespace Sys2Proof.Machine

/-! ### Memory as data -/

/-- A read after a write: the written byte at its address, the old one elsewhere. -/
theorem Memory.read?_write (a c : Nat) (b : Byte) :
    ∀ m : Memory, Memory.read? (Memory.write m a b) c = if a = c then some b else Memory.read? m c
  | [] => by simp [Memory.write, Memory.read?]
  | (k, v) :: m => by
    have ih := Memory.read?_write a c b m
    simp only [Memory.write]
    split
    · simp only [Memory.read?]
    · split
      · subst_vars
        simp only [Memory.read?]
        split <;> rfl
      · simp only [Memory.read?, ih]
        by_cases h : a = c
        · subst h; simp [Ne.symm ‹¬a = k›]
        · simp [h]

theorem Memory.wfFrom_write (a : Nat) (b : Byte) (ha : a < 2 ^ 32) :
    ∀ (m : Memory) (lo : Nat), lo ≤ a → Memory.wfFrom lo m = true → Memory.wfFrom lo (Memory.write m a b) = true
  | [], lo, hlo, _ => by simp [Memory.write, Memory.wfFrom]; omega
  | (k, v) :: m, lo, hlo, h => by
    simp only [Memory.wfFrom, Bool.and_eq_true, decide_eq_true_eq] at h
    obtain ⟨⟨h1, h2⟩, h3⟩ := h
    simp only [Memory.write]
    split
    · simp only [Memory.wfFrom, Bool.and_eq_true, decide_eq_true_eq]
      exact ⟨⟨hlo, ha⟩, ⟨by omega, h2⟩, h3⟩
    · split
      · subst_vars
        simp only [Memory.wfFrom, Bool.and_eq_true, decide_eq_true_eq]
        exact ⟨⟨hlo, ha⟩, h3⟩
      · simp only [Memory.wfFrom, Bool.and_eq_true, decide_eq_true_eq]
        exact ⟨⟨h1, h2⟩, Memory.wfFrom_write a b ha m (k + 1) (by omega) h3⟩

/-- A write keeps the canonical form. -/
theorem Memory.wf_write {m : Memory} (h : Memory.wf m = true) (a : Addr) (b : Byte) :
    Memory.wf (Memory.write m a.toNat b) = true :=
  Memory.wfFrom_write a.toNat b a.isLt m 0 (Nat.zero_le _) h

/-! ### Bytes of the state -/

@[simp] theorem State.byteAt_storeByte (s : State) (a c : Addr) (b : Byte) :
    (s.storeByte a b).byteAt c = if a = c then b else s.byteAt c := by
  unfold State.byteAt
  rw [State.storeByte_mem, Memory.read?_write]
  by_cases h : a = c
  · simp [h]
  · have : a.toNat ≠ c.toNat := fun e => h (BitVec.eq_of_toNat_eq e)
    simp [h, this]

/-- Two states with the same memory read the same bytes. -/
theorem State.byteAt_congr {s t : State} (h : s.mem = t.mem) (a : Addr) : s.byteAt a = t.byteAt a := by
  simp [State.byteAt, h]

/-- `storeBytes` changes memory only. -/
theorem storeBytes_eq (bs : List Byte) : ∀ (a : Addr) (s : State),
    storeBytes a bs s = { s with mem := (storeBytes a bs s).mem } := by
  induction bs with
  | nil => intro a s; rfl
  | cons b bs ih =>
    intro a s
    have h := ih (a + 1#32) (s.storeByte a b)
    simp only [storeBytes]
    rw [h]
    rfl

@[simp] theorem storeBytes_cfg (a : Addr) (bs : List Byte) (s : State) : (storeBytes a bs s).cfg = s.cfg := by
  rw [storeBytes_eq]
@[simp] theorem storeBytes_params (a : Addr) (bs : List Byte) (s : State) : (storeBytes a bs s).params = s.params := by
  rw [storeBytes_eq]
@[simp] theorem storeBytes_cap (a : Addr) (bs : List Byte) (s : State) : (storeBytes a bs s).cap = s.cap := by
  rw [storeBytes_eq]
@[simp] theorem storeBytes_taps (a : Addr) (bs : List Byte) (s : State) : (storeBytes a bs s).taps = s.taps := by
  rw [storeBytes_eq]
@[simp] theorem storeBytes_fault (a : Addr) (bs : List Byte) (s : State) : (storeBytes a bs s).fault = s.fault := by
  rw [storeBytes_eq]
@[simp] theorem storeBytes_seq (a : Addr) (bs : List Byte) (s : State) : (storeBytes a bs s).seq = s.seq := by
  rw [storeBytes_eq]
@[simp] theorem storeBytes_acc (a : Addr) (bs : List Byte) (s : State) : (storeBytes a bs s).acc = s.acc := by
  rw [storeBytes_eq]
@[simp] theorem storeBytes_cmds (a : Addr) (bs : List Byte) (s : State) : (storeBytes a bs s).cmds = s.cmds := by
  rw [storeBytes_eq]
@[simp] theorem storeBytes_resetAfter (a : Addr) (bs : List Byte) (s : State) :
    (storeBytes a bs s).resetAfter = s.resetAfter := by
  rw [storeBytes_eq]
@[simp] theorem storeBytes_free (a : Addr) (bs : List Byte) (s : State) : (storeBytes a bs s).free = s.free := by
  rw [storeBytes_eq]
@[simp] theorem storeBytes_bus (a : Addr) (bs : List Byte) (s : State) : (storeBytes a bs s).bus = s.bus := by
  rw [storeBytes_eq]

/-- Every store keeps the canonical form. -/
theorem storeBytes_wf (bs : List Byte) : ∀ (a : Addr) (s : State), Memory.wf s.mem = true →
    Memory.wf (storeBytes a bs s).mem = true := by
  induction bs with
  | nil => intro a s h; exact h
  | cons b bs ih =>
    intro a s h
    exact ih (a + 1#32) (s.storeByte a b) (Memory.wf_write h a b)

theorem byteAddr_succ (a : Addr) (j : Nat) : byteAddr (a + 1#32) j = byteAddr a (j + 1) := by
  simp only [byteAddr, BitVec.add_assoc]
  congr 1
  rw [Nat.add_comm, BitVec.ofNat_add]

theorem byteAddr_zero (a : Addr) : byteAddr a 0 = a := by simp [byteAddr]

/-- Byte addresses of one access are distinct while the access is no longer than the space. -/
theorem byteAddr_inj {a : Addr} {i j : Nat} (hi : i < 2 ^ 32) (hj : j < 2 ^ 32) (h : byteAddr a i = byteAddr a j) :
    i = j := by
  have h1 : BitVec.ofNat 32 i = BitVec.ofNat 32 j := by
    have := congrArg (fun z => -a + z) h
    simpa [byteAddr, ← BitVec.add_assoc, BitVec.add_comm (-a) a] using this
  have h2 := congrArg BitVec.toNat h1
  rwa [BitVec.toNat_ofNat, BitVec.toNat_ofNat, Nat.mod_eq_of_lt hi, Nat.mod_eq_of_lt hj] at h2

theorem mem_span {a c : Addr} {n : Nat} : c ∈ span a n ↔ ∃ j < n, byteAddr a j = c := by
  simp [span]

/-- Outside the bytes of the store nothing changes (R109). -/
theorem byteAt_storeBytes_of_not_mem (bs : List Byte) : ∀ (a : Addr) (s : State) (c : Addr),
    c ∉ span a bs.length → (storeBytes a bs s).byteAt c = s.byteAt c := by
  induction bs with
  | nil => intro a s c _; rfl
  | cons b bs ih =>
    intro a s c h
    have h0 : a ≠ c := fun e => h (mem_span.mpr ⟨0, by simp, by simpa [byteAddr_zero] using e⟩)
    have h1 : c ∉ span (a + 1#32) bs.length := by
      rintro hc
      obtain ⟨j, hj, e⟩ := mem_span.mp hc
      exact h (mem_span.mpr ⟨j + 1, by simp; omega, by rw [← byteAddr_succ]; exact e⟩)
    simp [storeBytes, ih (a + 1#32) _ c h1, h0]

/-- Byte `j` of a store reads back (R13). -/
theorem byteAt_storeBytes (bs : List Byte) : ∀ (a : Addr) (s : State), bs.length ≤ 2 ^ 32 →
    ∀ (j : Nat) (hj : j < bs.length), (storeBytes a bs s).byteAt (byteAddr a j) = bs[j] := by
  induction bs with
  | nil => intro a s _ j hj; simp at hj
  | cons b bs ih =>
    intro a s hlen j hj
    simp only [List.length_cons] at hlen hj
    cases j with
    | zero =>
      have h : byteAddr a 0 ∉ span (a + 1#32) bs.length := by
        rintro hc
        obtain ⟨j, hj', e⟩ := mem_span.mp hc
        rw [byteAddr_succ] at e
        have := byteAddr_inj (by omega) (by omega) e
        omega
      have e := byteAt_storeBytes_of_not_mem bs (a + 1#32) (s.storeByte a b) _ h
      rw [byteAddr_zero] at e ⊢
      simpa [storeBytes] using e
    | succ j =>
      rw [← byteAddr_succ]
      simpa [storeBytes] using ih (a + 1#32) (s.storeByte a b) (by omega) j (by omega)

end Sys2Proof.Machine
end

