-- ==== Sys2Proof/Laws/Flow.lean ====
section
/-! SUPPORT. What a part of an operation can do, said once: the frame every part keeps, and the ways it can end. -/

namespace Sys2Proof.Machine

/-! ### The frame -/

/-- `t` is `s` but for the sequencer position, the accumulators, the count of free values, the access log, and the bytes of
memory at the addresses `A`. -/
structure Frame (A : Addr → Prop) (s t : State) : Prop where
  cfg : t.cfg = s.cfg
  params : t.params = s.params
  cap : t.cap = s.cap
  taps : t.taps = s.taps
  fault : t.fault = s.fault
  cmds : t.cmds = s.cmds
  busy : t.seq.busy = s.seq.busy
  op : t.seq.op = s.seq.op
  reset : s.resetAfter = none → t.resetAfter = none
  wf : Memory.wf s.mem = true → Memory.wf t.mem = true
  bytes : ∀ a, ¬ A a → t.byteAt a = s.byteAt a

theorem Frame.refl (A : Addr → Prop) (s : State) : Frame A s s := by
  constructor <;> simp

theorem Frame.trans {A : Addr → Prop} {s t u : State} (h : Frame A s t) (h' : Frame A t u) : Frame A s u where
  cfg := h'.cfg.trans h.cfg
  params := h'.params.trans h.params
  cap := h'.cap.trans h.cap
  taps := h'.taps.trans h.taps
  fault := h'.fault.trans h.fault
  cmds := h'.cmds.trans h.cmds
  busy := h'.busy.trans h.busy
  op := h'.op.trans h.op
  reset := fun e => h'.reset (h.reset e)
  wf := fun e => h'.wf (h.wf e)
  bytes := fun a ha => (h'.bytes a ha).trans (h.bytes a ha)

theorem Frame.mono {A B : Addr → Prop} {s t : State} (h : Frame A s t) (hAB : ∀ a, A a → B a) : Frame B s t where
  cfg := h.cfg
  params := h.params
  cap := h.cap
  taps := h.taps
  fault := h.fault
  cmds := h.cmds
  busy := h.busy
  op := h.op
  reset := h.reset
  wf := h.wf
  bytes := fun a ha => h.bytes a fun hA => ha (hAB a hA)

theorem Frame.logAccess (A : Addr → Prop) (x : Access) (s : State) : Frame A s (s.logAccess x) := by
  constructor <;> simp_all [State.byteAt]

theorem Frame.afterTaps (A : Addr → Prop) (f : AccFile) (i : Nat) (s : State) : Frame A s (s.afterTaps f i) := by
  constructor <;> simp_all [State.byteAt]

theorem Frame.beginBlock (A : Addr → Prop) (k : Kernel) (p : Params) (b : Block) (s : State) :
    Frame A s (s.beginBlock k p b) := by
  constructor <;> simp_all [State.byteAt]

theorem Frame.endBlock (A : Addr → Prop) (b : Block) (s : State) : Frame A s (s.endBlock b) := by
  constructor <;> simp_all [State.byteAt]

theorem Frame.beginRow (A : Addr → Prop) (p : Params) (r : Nat) (s : State) : Frame A s (s.beginRow p r) := by
  constructor <;> simp_all [State.byteAt]

theorem Frame.endRow (A : Addr → Prop) (r : Nat) (s : State) : Frame A s (s.endRow r) := by
  constructor <;> simp_all [State.byteAt]

theorem Frame.beginOperation (A : Addr → Prop) (y : BitVec 32) (s : State) : Frame A s (s.beginOperation y) := by
  constructor <;> simp_all [State.byteAt]

/-- Only the count of free values changes. -/
theorem Frame.withFree (A : Addr → Prop) (s : State) (n : Nat) : Frame A s { s with free := n } := by
  constructor <;> simp_all [State.byteAt]

theorem Frame.storeBytes {A : Addr → Prop} (a : Addr) (bs : List Byte) (s : State)
    (h : ∀ c ∈ span a bs.length, A c) : Frame A s (storeBytes a bs s) := by
  constructor <;> try simp
  · exact storeBytes_wf bs a s
  · exact fun c hc => byteAt_storeBytes_of_not_mem bs a s c fun hm => hc (h c hm)

/-! ### Reads of the tap table -/

theorem readOff_state (i : Nat) (s : State) : (readOff i s).2 = { s with free := (readOff i s).2.free } := by
  unfold readOff; split <;> rfl

theorem readMant_state (i : Nat) (s : State) : (readMant i s).2 = { s with free := (readMant i s).2.free } := by
  unfold readMant; split <;> rfl

theorem readOff_written {i : Nat} {s : State} (h : (s.tapAt i).offWritten = true) :
    readOff i s = ((s.tapAt i).off, s) := by
  simp [readOff, h]

theorem readMant_written {i : Nat} {s : State} (h : (s.tapAt i).mantWritten = true) :
    readMant i s = ((s.tapAt i).mant, s) := by
  simp [readMant, h]

/-- A pair of written mantissas reads as stored, whatever the packing (R106). -/
theorem readMantPair_written {i : Nat} {s : State} (hi : i % 2 = 0) (h0 : (s.tapAt i).mantWritten = true)
    (h1 : (s.tapAt (i + 1)).mantWritten = true) :
    readMantPair i s = (((s.tapAt i).mant, (s.tapAt (i + 1)).mant), s) := by
  have e : 2 * (i / 2) = i := by omega
  simp [readMantPair, readMantw, e, readMant_written h0, readMant_written h1]

theorem Frame.readOff (A : Addr → Prop) (i : Nat) (s : State) : Frame A s (readOff i s).2 := by
  rw [readOff_state]; exact Frame.withFree A s _

theorem Frame.readMant (A : Addr → Prop) (i : Nat) (s : State) : Frame A s (readMant i s).2 := by
  rw [readMant_state]; exact Frame.withFree A s _

theorem Frame.readMantPair (A : Addr → Prop) (i : Nat) (s : State) : Frame A s (readMantPair i s).2 :=
  (Frame.readMant A (2 * (i / 2)) s).trans (Frame.readMant A (2 * (i / 2) + 1) _)

theorem Frame.tapSrc (A : Addr → Prop) (p : Params) (k : Kernel) (y : BitVec 32) (x i : Nat) (s : State) :
    Frame A s (k.tapSrc p y x i s).2 := by
  cases k
  · exact Frame.readOff A i s
  · exact Frame.readOff A i s
  · exact Frame.refl A s

/-! ### How a part of an operation ends -/

/-- The early ends of an operation from a state `u` inside it: a bus fault, a reset, or a port that never answers. -/
inductive EarlyEnd (u : State) : Host.Outcome State Fault Refusal → Prop where
  | busFault (x : Access) (h : x.answered u.cfg = true) (h' : x.backed u.cfg = false) :
      EarlyEnd u (.next (u.raise (busCause x.kind) (x.addr.setWidth 64)))
  | reset (h : u.resetAfter = some 0) : EarlyEnd u (.next u.engineReset)
  | silent (x : Access) (h : x.answered u.cfg = false) : EarlyEnd u (.fault .portNeverAnswers)

/-- Everything a part of an operation can do from `s`: it goes on inside the frame, or ends early from a state inside it. -/
def Flow.Within {α : Type} (A : Addr → Prop) (s : State) : Flow α → Prop
  | .go _ t => Frame A s t
  | .stop o => ∃ u, Frame A s u ∧ EarlyEnd u o

theorem Flow.Within.andThen {α β : Type} {A : Addr → Prop} {s : State} {f : Flow α} {k : α → State → Flow β}
    (hf : f.Within A s) (hk : ∀ a t, f = .go a t → (k a t).Within A t) : (f.andThen k).Within A s := by
  cases f with
  | stop o => exact hf
  | go a t =>
    have h := hk a t rfl
    simp only [Flow.andThen]
    cases hkt : k a t with
    | go b u => rw [hkt] at h; exact Frame.trans hf h
    | stop o =>
      rw [hkt] at h
      obtain ⟨u, hu, he⟩ := h
      exact ⟨u, Frame.trans hf hu, he⟩

theorem Flow.Within.each {β : Type} {A : Addr → Prop} {body : β → State → Flow Unit} :
    ∀ (l : List β) (s : State), (∀ b ∈ l, ∀ t, (body b t).Within A t) → (Flow.each l body s).Within A s
  | [], s, _ => Frame.refl A s
  | b :: l, s, h =>
    Flow.Within.andThen (h b (by simp) s) fun _ t _ =>
      Flow.Within.each l t fun c hc => h c (by simp [hc])

theorem Flow.Within.start {α : Type} {A : Addr → Prop} {s t : State} {f : Flow α} (h : Frame A s t)
    (hf : f.Within A t) : f.Within A s := by
  cases f with
  | go a u => exact h.trans hf
  | stop o =>
    obtain ⟨u, hu, he⟩ := hf
    exact ⟨u, h.trans hu, he⟩

theorem issue_within (A : Addr → Prop) (x : Access) (s : State) : (issue x s).Within A s := by
  unfold issue
  split
  · exact ⟨s, Frame.refl A s, .reset ‹_›⟩
  · split
    · exact ⟨s, Frame.refl A s, .silent x ‹_›⟩
    · split
      · exact ⟨s.logAccess x, Frame.logAccess A x s, .busFault x (by simp_all) (by simp_all)⟩
      · exact Frame.logAccess A x s

theorem memRead_within (A : Addr → Prop) (a : Addr) (n : Nat) (s : State) : (memRead a n s).Within A s :=
  Flow.Within.andThen (issue_within A _ s) fun _ t _ => Frame.refl A t

theorem memWrite_within {A : Addr → Prop} (a : Addr) (bs : List Byte) (s : State)
    (h : ∀ c ∈ span a bs.length, A c) : (memWrite a bs s).Within A s :=
  Flow.Within.andThen (issue_within A _ s) fun _ t _ => Frame.storeBytes a bs t h

theorem tapPair_within (A : Addr → Prop) (k : Kernel) (p : Params) (y : BitVec 32) (b : Block) (i : Nat) (s : State) :
    (tapPair k p y b i s).Within A s := by
  unfold tapPair
  refine Flow.Within.start (Frame.tapSrc A p k y b.x i s) (Flow.Within.andThen (memRead_within A _ _ _) ?_)
  intro v0 s1 _
  refine Flow.Within.start (Frame.tapSrc A p k y b.x (i + 1) s1) (Flow.Within.andThen (memRead_within A _ _ _) ?_)
  intro v1 s2 _
  exact (Frame.readMantPair A i s2).trans (Frame.afterTaps A _ _ _)

theorem tapSingle_within (A : Addr → Prop) (k : Kernel) (p : Params) (y : BitVec 32) (b : Block) (i : Nat) (s : State) :
    (tapSingle k p y b i s).Within A s := by
  unfold tapSingle
  refine Flow.Within.start (Frame.tapSrc A p k y b.x i s) (Flow.Within.andThen (memRead_within A _ _ _) ?_)
  intro v0 s1 _
  exact (Frame.readMant A i s1).trans (Frame.afterTaps A _ _ _)

theorem runTaps_within (A : Addr → Prop) (k : Kernel) (p : Params) (y : BitVec 32) (b : Block) :
    ∀ (n i : Nat) (s : State), (runTaps k p y b n i s).Within A s
  | 0, _, s => Frame.refl A s
  | 1, i, s => tapSingle_within A k p y b i s
  | n + 2, i, s =>
    Flow.Within.andThen (tapPair_within A k p y b i s) fun _ t _ => runTaps_within A k p y b n (i + 2) t

/-! ### Lane counts -/

@[simp] theorem AccFile.values_length_accFile (k : Kernel) (vals : List Int) :
    (k.accFile vals).values.length = vals.length := by
  cases k <;> simp [Kernel.accFile, AccFile.values]

@[simp] theorem Kernel.results_length (cfg : Config) (p : Params) (k : Kernel) (acc : AccFile) :
    (k.results cfg p acc).length = acc.values.length := by
  cases k <;> simp [Kernel.results]

/-! ### Going on -/

theorem Flow.andThen_go {α β : Type} {f : Flow α} {k : α → State → Flow β} {b : β} {u : State} :
    f.andThen k = .go b u ↔ ∃ a t, f = .go a t ∧ k a t = .go b u := by
  cases f <;> simp [Flow.andThen]

theorem issue_go {x : Access} {s t : State} (h : issue x s = .go () t) :
    t = s.logAccess x ∧ x.answered s.cfg = true ∧ x.backed s.cfg = true ∧ s.resetAfter ≠ some 0 := by
  unfold issue at h
  split at h
  · cases h
  · split at h
    · cases h
    · split at h
      · cases h
      · cases h; simp_all

theorem tapPair_lanes_le {k : Kernel} {p : Params} {y : BitVec 32} {b : Block} {i : Nat} {s t : State}
    (h : tapPair k p y b i s = .go () t) : t.acc.values.length ≤ s.acc.values.length := by
  unfold tapPair at h
  obtain ⟨v0, s1, -, h⟩ := Flow.andThen_go.mp h
  obtain ⟨v1, s2, -, h⟩ := Flow.andThen_go.mp h
  cases h
  simp [Kernel.macLanes]

theorem tapSingle_lanes_le {k : Kernel} {p : Params} {y : BitVec 32} {b : Block} {i : Nat} {s t : State}
    (h : tapSingle k p y b i s = .go () t) : t.acc.values.length ≤ s.acc.values.length := by
  unfold tapSingle at h
  obtain ⟨v0, s1, -, h⟩ := Flow.andThen_go.mp h
  cases h
  simp [Kernel.macLanesSingle]

theorem runTaps_lanes_le {k : Kernel} {p : Params} {y : BitVec 32} {b : Block} :
    ∀ (n i : Nat) (s t : State), runTaps k p y b n i s = .go () t → t.acc.values.length ≤ s.acc.values.length
  | 0, _, s, t, h => by cases h; rfl
  | 1, i, s, t, h => tapSingle_lanes_le h
  | n + 2, i, s, t, h => by
    obtain ⟨_, u, hu, h⟩ := Flow.andThen_go.mp h
    exact (runTaps_lanes_le n (i + 2) u t h).trans (tapPair_lanes_le hu)

theorem mem_span_mono {a c : Addr} {m n : Nat} (hmn : m ≤ n) (h : c ∈ span a m) : c ∈ span a n := by
  obtain ⟨j, hj, e⟩ := mem_span.mp h
  exact mem_span.mpr ⟨j, by omega, e⟩

/-! ### Blocks, rows, operations -/

theorem runBlock_within {A : Addr → Prop} {k : Kernel} {p : Params} {y : BitVec 32} {b : Block} (s : State)
    (h : ∀ c ∈ span (k.dst p y b.x) b.w, A c) : (runBlock k p y b s).Within A s := by
  unfold runBlock
  refine Flow.Within.start (Frame.beginBlock A k p b s) (Flow.Within.andThen (runTaps_within A _ _ _ _ _ _ _) ?_)
  intro _ s1 h1
  have hl := runTaps_lanes_le _ _ _ _ h1
  refine Flow.Within.andThen (memWrite_within _ _ _ fun c hc => h c (mem_span_mono ?_ hc)) ?_
  · simpa using hl
  · intro _ s2 _
    exact Frame.endBlock A b s2

theorem runRow_within {A : Addr → Prop} {k : Kernel} {p : Params} {blocks : List Block} {r : Nat} (s : State)
    (h : ∀ b ∈ blocks, ∀ c ∈ span (k.dst p (p.rowY r) b.x) b.w, A c) : (runRow k p blocks r s).Within A s := by
  unfold runRow
  refine Flow.Within.start (Frame.beginRow A p r s)
    (Flow.Within.andThen (Flow.Within.each _ _ fun b hb t => runBlock_within t (h b hb)) ?_)
  intro _ t _
  exact Frame.endRow A r t

/-- Everything an operation command can end in: it retires, or ends early, from a state inside the frame. -/
def OperationEnds (A : Addr → Prop) (s : State) (o : Host.Outcome State Fault Refusal) : Prop :=
  ∃ u, Frame A s u ∧ (o = .next u.retire ∨ EarlyEnd u o)

theorem Flow.Within.finish {A : Addr → Prop} {s : State} {f : Flow Unit} (h : f.Within A s) :
    OperationEnds A s f.finish := by
  cases f with
  | go _ t => exact ⟨t, h, .inl rfl⟩
  | stop o =>
    obtain ⟨u, hu, he⟩ := h
    exact ⟨u, hu, .inr he⟩

theorem runConvolution_ends {A : Addr → Prop} {k : Kernel} {blocks : List Block} {s : State}
    (h : ∀ r < s.params.rows, ∀ b ∈ blocks, ∀ c ∈ span (k.dst s.params (s.params.rowY r) b.x) b.w, A c) :
    OperationEnds A s (runConvolution k blocks s) := by
  refine Flow.Within.finish (Flow.Within.start (Frame.beginOperation A _ s) (Flow.Within.each _ _ ?_))
  intro r hr t
  exact runRow_within t (h r (by simpa using hr))

theorem runReduction_ends {A : Addr → Prop} {s : State}
    (h : ∀ b ∈ blocks821 s.params.columns, ∀ c ∈ span (Kernel.dst s.params .redv 0 b.x) b.w, A c) :
    OperationEnds A s (runReduction s) :=
  Flow.Within.finish (Flow.Within.start (Frame.beginOperation A _ s)
    (Flow.Within.each _ _ fun b hb t => runBlock_within t (h b hb)))

end Sys2Proof.Machine
end

