-- ==== Sys2Proof/Laws/Carries.lean ====
section
/-! SUPPORT. An operation as a sequence of accesses: after each prefix of them the state is known but for the sequencer and
the accumulators, and the operation either carries on to the end or stops at the first access that is not performed. -/

namespace Sys2Proof.Machine

/-! ### The bytes accesses write -/

@[simp] theorem writtenBytes_nil : writtenBytes [] = [] := rfl

@[simp] theorem writtenBytes_append (l m : List Access) : writtenBytes (l ++ m) = writtenBytes l ++ writtenBytes m := by
  simp [writtenBytes]

@[simp] theorem writtenBytes_read (a : Addr) (n : Nat) (l : List Access) :
    writtenBytes ({ kind := .read, addr := a, len := n } :: l) = writtenBytes l := by
  simp [writtenBytes]

@[simp] theorem writtenBytes_write (a : Addr) (n : Nat) (l : List Access) :
    writtenBytes ({ kind := .write, addr := a, len := n } :: l) = span a n ++ writtenBytes l := by
  simp [writtenBytes]

/-! ### The middle of an operation -/

/-- `u` is the state of an operation begun in `s`, after the accesses `P`: each was performed, the written bytes lie in `W`
and, where `D` holds (no source byte is a destination byte), hold the values `V`; everything else a later command could see
is as in `s`. -/
structure Mid (D : Prop) (W : Addr → Prop) (V : Addr → Byte) (s : State) (P : List Access) (u : State) : Prop where
  frame : Frame (fun a => a ∈ writtenBytes P) s u
  bus : u.bus = P.reverse ++ s.bus
  reset : u.resetAfter = s.resetAfter.map (· - P.length)
  budget : ∀ m, s.resetAfter = some m → P.length ≤ m
  granted : ∀ x ∈ P, x.granted s.cfg = true
  free : u.free = s.free
  vals : D → ∀ a ∈ writtenBytes P, u.byteAt a = V a
  sub : ∀ a ∈ writtenBytes P, W a

theorem Mid.start (D : Prop) (W : Addr → Prop) (V : Addr → Byte) (s : State) : Mid D W V s [] s where
  frame := Frame.refl _ s
  bus := rfl
  reset := by cases h : s.resetAfter <;> simp
  budget := fun _ _ => Nat.zero_le _
  granted := by simp
  free := rfl
  vals := by simp
  sub := by simp

/-- A change of the sequencer position and the accumulators only. -/
theorem Mid.move {D : Prop} {W : Addr → Prop} {V : Addr → Byte} {s : State} {P : List Access} {u t : State} (h : Mid D W V s P u)
    (hf : ∀ A, Frame A u t) (hb : t.bus = u.bus) (hr : t.resetAfter = u.resetAfter) (hfr : t.free = u.free) :
    Mid D W V s P t where
  frame := h.frame.trans (hf _)
  bus := hb.trans h.bus
  reset := hr.trans h.reset
  budget := h.budget
  granted := h.granted
  free := hfr.trans h.free
  vals := fun d a ha => ((hf (fun _ => False)).bytes a (by simp)).trans (h.vals d a ha)
  sub := h.sub

/-- The access `x` is not performed in the state `u`. -/
inductive Blocked (x : Access) (u : State) : Host.Outcome State Fault Refusal → Prop where
  | reset (h : u.resetAfter = some 0) : Blocked x u (.next u.engineReset)
  | silent (h : u.resetAfter ≠ some 0) (h' : x.answered u.cfg = false) : Blocked x u (.fault .portNeverAnswers)
  | refused (h : u.resetAfter ≠ some 0) (h' : x.answered u.cfg = true) (h'' : x.backed u.cfg = false) :
      Blocked x u (.next ((u.logAccess x).raise (busCause x.kind) (x.addr.setWidth 64)))

/-- From the accesses `P` on, the part `f` performs the accesses `L` and ends in `Q`, or stops at the first one that is not
performed. -/
def Carries (D : Prop) (W : Addr → Prop) (V : Addr → Byte) (s : State) {α : Type} (P L : List Access) (Q : α → State → Prop)
    (f : Flow α) : Prop :=
  (∃ a u, f = .go a u ∧ Mid D W V s (P ++ L) u ∧ Q a u) ∨
  (∃ L1 x L2 u o, L = L1 ++ x :: L2 ∧ Mid D W V s (P ++ L1) u ∧ Blocked x u o ∧ f = .stop o)

section
variable {D : Prop} {W : Addr → Prop} {V : Addr → Byte} {s : State}

theorem Carries.andThen {α β : Type} {P L M : List Access} {Q : α → State → Prop} {R : β → State → Prop} {f : Flow α}
    {k : α → State → Flow β} (hf : Carries D W V s P L Q f)
    (hk : ∀ a u, Mid D W V s (P ++ L) u → Q a u → Carries D W V s (P ++ L) M R (k a u)) :
    Carries D W V s P (L ++ M) R (f.andThen k) := by
  rcases hf with ⟨a, u, rfl, hm, hq⟩ | ⟨L1, x, L2, u, o, rfl, hm, hb, rfl⟩
  · rcases hk a u hm hq with ⟨b, t, ht, hm', hr⟩ | ⟨L1, x, L2, t, o, rfl, hm', hb, ht⟩
    · exact .inl ⟨b, t, ht, by simpa using hm', hr⟩
    · exact .inr ⟨L ++ L1, x, L2, t, o, by simp, by simpa using hm', hb, ht⟩
  · exact .inr ⟨L1, x, L2 ++ M, u, o, by simp, hm, hb, rfl⟩

/-- A part that performs no access. -/
theorem Carries.pure {α : Type} {P : List Access} {Q : α → State → Prop} {a : α} {u : State} (hm : Mid D W V s P u)
    (hq : Q a u) : Carries D W V s P [] Q (.go a u) :=
  .inl ⟨a, u, rfl, by simpa using hm, hq⟩

theorem Carries.post {α : Type} {P L : List Access} {Q R : α → State → Prop} {f : Flow α} (h : Carries D W V s P L Q f)
    (hQR : ∀ a u, Q a u → R a u) : Carries D W V s P L R f := by
  rcases h with ⟨a, u, hf, hm, hq⟩ | h
  · exact .inl ⟨a, u, hf, hm, hQR a u hq⟩
  · exact .inr h

theorem Carries.each {β : Type} {acc : β → List Access} {body : β → State → Flow Unit} :
    ∀ (l : List β) (P : List Access) (u : State), Mid D W V s P u →
      (∀ b ∈ l, ∀ P t, Mid D W V s P t → Carries D W V s P (acc b) (fun _ _ => True) (body b t)) →
      Carries D W V s P (l.flatMap acc) (fun _ _ => True) (Flow.each l body u)
  | [], P, u, hm, _ => Carries.pure hm trivial
  | b :: l, P, u, hm, h => by
    rw [List.flatMap_cons]
    refine Carries.andThen (h b (by simp) P u hm) fun _ t ht _ => ?_
    exact Carries.each l (P ++ acc b) t ht fun c hc => h c (by simp [hc])

/-- What a performed access of kind read leaves. -/
theorem Mid.read {P : List Access} {u : State} (h : Mid D W V s P u) (a : Addr) (n : Nat)
    (hg : Access.granted s.cfg { kind := .read, addr := a, len := n } = true) (hr : u.resetAfter ≠ some 0) :
    Mid D W V s (P ++ [{ kind := .read, addr := a, len := n }])
      (u.logAccess { kind := .read, addr := a, len := n }) where
  frame := (h.frame.trans (Frame.logAccess _ _ u)).mono fun a ha => by simpa using ha
  bus := by simp [h.bus]
  reset := by
    rw [State.logAccess_resetAfter, h.reset]
    cases s.resetAfter <;> simp [Nat.sub_sub]
  budget := fun m hm => by
    have h2 := h.reset
    rw [hm, Option.map_some] at h2
    have h3 := h.budget m hm
    simp only [List.length_append, List.length_cons, List.length_nil]
    by_contra hc
    exact hr (by rw [h2]; congr 1; omega)
  granted := by
    intro x hx
    rcases List.mem_append.mp hx with hx | hx
    · exact h.granted x hx
    · simp only [List.mem_singleton] at hx; subst hx; exact hg
  free := by simp [h.free]
  vals := fun d c hc => by
    simp only [writtenBytes_append, writtenBytes_read, writtenBytes_nil, List.append_nil] at hc
    exact (State.byteAt_congr (by simp) c).trans (h.vals d c hc)
  sub := fun c hc => h.sub c (by simpa using hc)

/-- What a performed write leaves, its bytes being the values `V`. -/
theorem Mid.write {P : List Access} {u : State} (h : Mid D W V s P u) (a : Addr) (bs : List Byte)
    (hlen : bs.length ≤ 2 ^ 32) (hW : ∀ c ∈ span a bs.length, W c)
    (hV : D → ∀ (j : Nat) (hj : j < bs.length), V (byteAddr a j) = bs[j])
    (hg : Access.granted s.cfg { kind := .write, addr := a, len := bs.length } = true) (hr : u.resetAfter ≠ some 0) :
    Mid D W V s (P ++ [{ kind := .write, addr := a, len := bs.length }])
      (storeBytes a bs (u.logAccess { kind := .write, addr := a, len := bs.length })) where
  frame := by
    refine ((h.frame.mono ?_).trans (Frame.logAccess _ _ u)).trans (Frame.storeBytes a bs _ ?_)
    · intro c hc; simp [hc]
    · intro c hc; simp [hc]
  bus := by simp [h.bus]
  reset := by
    rw [storeBytes_resetAfter, State.logAccess_resetAfter, h.reset]
    cases s.resetAfter <;> simp [Nat.sub_sub]
  budget := fun m hm => by
    have h2 := h.reset
    rw [hm, Option.map_some] at h2
    have h3 := h.budget m hm
    simp only [List.length_append, List.length_cons, List.length_nil]
    by_contra hc
    exact hr (by rw [h2]; congr 1; omega)
  granted := by
    intro x hx
    rcases List.mem_append.mp hx with hx | hx
    · exact h.granted x hx
    · simp only [List.mem_singleton] at hx; subst hx; exact hg
  free := by simp [h.free]
  vals := fun d c hc => by
    by_cases hs : c ∈ span a bs.length
    · obtain ⟨j, hj, rfl⟩ := mem_span.mp hs
      rw [byteAt_storeBytes bs a _ hlen j hj, hV d j hj]
    · rw [byteAt_storeBytes_of_not_mem bs a _ c hs]
      have hc' : c ∈ writtenBytes P := by
        simp only [writtenBytes_append, writtenBytes_write, writtenBytes_nil, List.append_nil, List.mem_append] at hc
        exact hc.resolve_right hs
      exact (State.byteAt_congr (by simp) c).trans (h.vals d c hc')
  sub := fun c hc => by
    simp only [writtenBytes_append, writtenBytes_write, writtenBytes_nil, List.append_nil, List.mem_append] at hc
    exact hc.elim (h.sub c) (hW c)

/-- The two ends of issuing an access. -/
theorem issue_cases (x : Access) (u : State) :
    (issue x u = .go () (u.logAccess x) ∧ x.granted u.cfg = true ∧ u.resetAfter ≠ some 0) ∨
    (∃ o, issue x u = .stop o ∧ Blocked x u o) := by
  unfold issue
  split
  · exact .inr ⟨_, rfl, .reset ‹_›⟩
  · split
    · exact .inr ⟨_, rfl, .silent ‹_› ‹_›⟩
    · split
      · exact .inr ⟨_, rfl, .refused ‹_› (by simp_all) ‹_›⟩
      · exact .inl ⟨rfl, by simp_all [Access.granted], ‹_›⟩

theorem memRead_carries {P : List Access} {u : State} (h : Mid D W V s P u) (a : Addr) (n : Nat) :
    Carries D W V s P [{ kind := .read, addr := a, len := n }]
      (fun bs t => t = u.logAccess { kind := .read, addr := a, len := n } ∧ bs = (span a n).map u.byteAt)
      (memRead a n u) := by
  unfold memRead
  rcases issue_cases { kind := .read, addr := a, len := n } u with ⟨he, hg, hr⟩ | ⟨o, he, hb⟩
  · rw [he]
    refine .inl ⟨_, _, rfl, h.read a n (by rw [← h.frame.cfg]; exact hg) hr, rfl, ?_⟩
    exact List.map_congr_left fun c _ => State.byteAt_congr (by simp) c
  · rw [he]
    exact .inr ⟨[], _, [], u, o, rfl, by simpa using h, hb, rfl⟩

theorem memWrite_carries {P : List Access} {u : State} (h : Mid D W V s P u) (a : Addr) (bs : List Byte)
    (hlen : bs.length ≤ 2 ^ 32) (hW : ∀ c ∈ span a bs.length, W c)
    (hV : D → ∀ (j : Nat) (hj : j < bs.length), V (byteAddr a j) = bs[j]) :
    Carries D W V s P [{ kind := .write, addr := a, len := bs.length }] (fun _ _ => True) (memWrite a bs u) := by
  unfold memWrite
  rcases issue_cases { kind := .write, addr := a, len := bs.length } u with ⟨he, hg, hr⟩ | ⟨o, he, hb⟩
  · rw [he]
    exact .inl ⟨_, _, rfl, h.write a bs hlen hW hV (by rw [← h.frame.cfg]; exact hg) hr, trivial⟩
  · rw [he]
    exact .inr ⟨[], _, [], u, o, rfl, by simpa using h, hb, rfl⟩

end

end Sys2Proof.Machine
end

