-- ==== Sys2Proof/Laws/Columns.lean ====
section
/-! SUPPORT. What a block computes: every column by the same arithmetic, whatever the block's width. -/

namespace Sys2Proof.Machine

/-! ### One column -/

/-- The accumulator of a column after `n` taps from tap `i` on, from `a` (R107, R133, R153, R173). -/
def State.colLoop (s : State) (k : Kernel) (y : BitVec 32) (x : Nat) : Nat → Nat → Int → Int
  | 0, _, a => a
  | 1, i, a => k.macSingle a (s.mantAt i) (s.tapSample k y x i)
  | n + 2, i, a =>
    State.colLoop s k y x n (i + 2)
      (k.mac a (s.mantAt i) (s.tapSample k y x i) (s.mantAt (i + 1)) (s.tapSample k y x (i + 1)))

/-- The accumulator a lane starts with, as a signed integer of the lane's width. -/
def Kernel.start (cfg : Config) (p : Params) (k : Kernel) : Int :=
  match k with
  | .conv32 => wrap32 (bias p.e)
  | .conv16 => sat16 (bias p.e)
  | .redv => wrap32 (redvBias cfg)

/-- The weighted sum of the taps `i`, …, `i + n - 1`. -/
def State.partialSum (s : State) (k : Kernel) (y : BitVec 32) (x i n : Nat) : Int :=
  ((List.range' i n).map fun j => s.mantAt j * s.tapSample k y x j).sum

theorem State.colLoop_wrap (s : State) (k : Kernel) (hk : k ≠ .conv16) (y : BitVec 32) (x : Nat) :
    ∀ (n i : Nat) (b : Int), s.colLoop k y x n i (wrap32 b) = wrap32 (b + s.partialSum k y x i n)
  | 0, i, b => by simp [State.colLoop, State.partialSum]
  | 1, i, b => by
    cases k <;> simp_all [State.colLoop, State.partialSum, Kernel.macSingle, mac32Single_wrap32]
  | n + 2, i, b => by
    have ih := State.colLoop_wrap s k hk y x n (i + 2)
    cases k <;>
      simp_all [State.colLoop, State.partialSum, Kernel.mac, mac32_wrap32, List.range'_succ, add_assoc]

theorem State.partialSum_all (s : State) (k : Kernel) (y : BitVec 32) (x : Nat) :
    s.partialSum k y x 0 s.params.tapCount = s.weightedSum k y x := by
  simp [State.partialSum, State.weightedSum, List.range_eq_range']

theorem State.colLoop_conv16 (s : State) (y : BitVec 32) (x : Nat) :
    ∀ (n i : Nat) (a : Int), s.colLoop .conv16 y x n i a = s.conv16Loop y x n i a
  | 0, _, _ => rfl
  | 1, _, _ => by simp [State.colLoop, State.conv16Loop, Kernel.macSingle, pmac16Single, pmac16]
  | n + 2, i, a => by
    simp [State.colLoop, State.conv16Loop, Kernel.mac, pmac16, State.colLoop_conv16 s y x n (i + 2)]

/-- The output stage of a column's final accumulator is the contract's value (R131, R151, R174). -/
theorem State.out_colLoop (s : State) (k : Kernel) (y : BitVec 32) (x : Nat) :
    k.out s.cfg s.params (s.colLoop k y x s.params.tapCount 0 (k.start s.cfg s.params)) = s.column k y x := by
  cases k
  · simp only [Kernel.start, State.colLoop_wrap s .conv32 (by decide), State.partialSum_all]
    rfl
  · simp only [Kernel.start, State.colLoop_conv16]
    rfl
  · simp only [Kernel.start, State.colLoop_wrap s .redv (by decide), State.partialSum_all]
    rfl

/-! ### Lanes -/

theorem AccFile.values_mac (k : Kernel) (l : List Nat) (f : Nat → Int) (m0 m1 : Int) (g0 g1 : Nat → Int) :
    (k.accFile (l.map fun c => k.mac (f c) m0 (g0 c) m1 (g1 c))).values =
      l.map fun c => k.mac (f c) m0 (g0 c) m1 (g1 c) := by
  cases k <;> simp [Kernel.accFile, AccFile.values, Kernel.mac, mac32, pmac16]

theorem AccFile.values_macSingle (k : Kernel) (l : List Nat) (f : Nat → Int) (m : Int) (g : Nat → Int) :
    (k.accFile (l.map fun c => k.macSingle (f c) m (g c))).values = l.map fun c => k.macSingle (f c) m (g c) := by
  cases k <;>
    simp [Kernel.accFile, AccFile.values, Kernel.macSingle, mac32Single, pmac16Single, mac32, pmac16]

theorem AccFile.values_start (cfg : Config) (p : Params) (k : Kernel) (w : Nat) :
    (k.accFile (List.replicate w (k.init cfg p))).values = (List.range w).map fun _ => k.start cfg p := by
  cases k <;> simp [Kernel.accFile, AccFile.values, Kernel.init, Kernel.start]

/-- Lane `c` of the accumulate uses byte `c` of each load, whatever the load's length beyond the lanes (R155). -/
theorem Kernel.macLanes_range (k : Kernel) (m0 m1 : Mant) (w n : Nat) (hn : w ≤ n) (f : Nat → Int) (g0 g1 : Nat → Byte) :
    k.macLanes m0 m1 ((List.range w).map f) ((List.range n).map g0) ((List.range n).map g1) =
      (List.range w).map fun c => k.mac (f c) m0.toInt (sample (g0 c)) m1.toInt (sample (g1 c)) := by
  apply List.ext_getElem
  · simp [Kernel.macLanes]; omega
  · intro i h1 h2
    simp [Kernel.macLanes]

theorem Kernel.macLanesSingle_range (k : Kernel) (m : Mant) (w n : Nat) (hn : w ≤ n) (f : Nat → Int) (g : Nat → Byte) :
    k.macLanesSingle m ((List.range w).map f) ((List.range n).map g) =
      (List.range w).map fun c => k.macSingle (f c) m.toInt (sample (g c)) := by
  apply List.ext_getElem
  · simp [Kernel.macLanesSingle]; omega
  · intro i h1 h2
    simp [Kernel.macLanesSingle]

/-! ### Addresses of neighbouring columns -/

theorem byteAddr_srcAddr (s : State) (k : Kernel) (y : BitVec 32) (x i c : Nat) :
    byteAddr (s.srcAddr k y x i) c = s.srcAddr k y (x + c) i := by
  cases k <;>
    simp only [byteAddr, State.srcAddr, aIn, aRed, regionAddr, BitVec.ofNat_add] <;> ac_rfl

theorem byteAddr_dst (p : Params) (k : Kernel) (y : BitVec 32) (x c : Nat) :
    byteAddr (k.dst p y x) c = k.dst p y (x + c) := by
  cases k <;>
    simp only [byteAddr, Kernel.dst, aOut, aRedOut, regionAddr, BitVec.ofNat_add] <;> ac_rfl

/-! ### Taps -/

/-- The reads of the taps `i`, …, `i + n - 1` of a block. -/
def State.tapReads (s : State) (k : Kernel) (y : BitVec 32) (b : Block) (i n : Nat) : List Access :=
  (List.range' i n).map fun j => { kind := .read, addr := s.srcAddr k y b.x j, len := k.loadBytes s.cfg b.w }

theorem State.blockAccesses_eq (s : State) (k : Kernel) (y : BitVec 32) (b : Block) :
    s.blockAccesses k y b =
      s.tapReads k y b 0 s.params.tapCount ++ [{ kind := .write, addr := k.dst s.params y b.x, len := b.w }] := by
  simp [State.blockAccesses, State.tapReads, List.range_eq_range']

section
variable {D : Prop} {W : Addr → Prop} {V : Addr → Byte} {s : State}

theorem Mid.tapAt {P : List Access} {u : State} (h : Mid D W V s P u) (i : Nat) : u.tapAt i = s.tapAt i := by
  simp [State.tapAt, h.frame.taps]

/-- In the middle of an operation the source address of a written tap is the closed form, and no free value is drawn. -/
theorem Mid.tapSrc {P : List Access} {u : State} (h : Mid D W V s P u) {k : Kernel} {i : Nat}
    (ht : k ≠ .redv → (s.tapAt i).offWritten = true) (y : BitVec 32) (x : Nat) :
    k.tapSrc s.params y x i u = (s.srcAddr k y x i, u) := by
  cases k
  · simp [Kernel.tapSrc, State.srcAddr, State.offAt, readOff_written, h.tapAt, ht]
  · simp [Kernel.tapSrc, State.srcAddr, State.offAt, readOff_written, h.tapAt, ht]
  · rfl

/-- A sample read in the middle of an operation is the one memory held when it began, if no output byte lies there. -/
theorem Mid.sample {P : List Access} {u : State} (h : Mid D W V s P u) {k : Kernel} {y : BitVec 32} {x i : Nat}
    (hs : ¬ W (s.srcAddr k y x i)) : sample (u.byteAt (s.srcAddr k y x i)) = s.tapSample k y x i := by
  rw [State.tapSample, h.frame.bytes _ fun hm => hs (h.sub _ hm)]

/-- The lanes of the block as the taps leave them: one per column, and, where `D` holds, with the values `f`. -/
def Lanes (D : Prop) (b : Block) (f : Nat → Int) (u : State) : Prop :=
  u.acc.values.length = b.w ∧ (D → u.acc.values = (List.range b.w).map f)

theorem tapSingle_carries {P : List Access} {u : State} (h : Mid D W V s P u) {k : Kernel} {y : BitVec 32} {b : Block}
    {i : Nat} {f : Nat → Int} (hw : b.w ≤ k.loadBytes s.cfg b.w)
    (ho : k ≠ .redv → (s.tapAt i).offWritten = true) (hm : (s.tapAt i).mantWritten = true)
    (hs : D → ∀ c < b.w, ¬ W (s.srcAddr k y (b.x + c) i)) (hl : Lanes D b f u) :
    Carries D W V s P (s.tapReads k y b i 1)
      (fun _ t => Lanes D b (fun c => s.colLoop k y (b.x + c) 1 i (f c)) t) (tapSingle k s.params y b i u) := by
  unfold tapSingle
  simp only [h.tapSrc ho, h.frame.cfg]
  refine Carries.andThen (M := []) (memRead_carries h _ _) ?_
  rintro v t ht ⟨rfl, rfl⟩
  have hm' := readMant_written (s := u.logAccess _) (i := i) (by rw [Mid.tapAt ht]; exact hm)
  simp only [hm']
  refine Carries.pure (ht.move (fun A => Frame.afterTaps A _ _ _) (by simp) (by simp) (by simp)) ?_
  refine ⟨by simp [Kernel.macLanesSingle, span, hl.1, hw], fun d => ?_⟩
  rw [State.afterTaps_acc, hl.2 d, Mid.tapAt ht]
  simp only [span, List.map_map]
  rw [Kernel.macLanesSingle_range k _ _ _ hw, AccFile.values_macSingle]
  refine List.map_congr_left fun c hc => ?_
  simp only [Function.comp, byteAddr_srcAddr]
  rw [h.sample (hs d c (by simpa using hc))]
  rfl

theorem tapPair_carries {P : List Access} {u : State} (h : Mid D W V s P u) {k : Kernel} {y : BitVec 32} {b : Block}
    {i : Nat} {f : Nat → Int} (hw : b.w ≤ k.loadBytes s.cfg b.w) (hi : i % 2 = 0)
    (ho : ∀ j, j = i ∨ j = i + 1 → (k ≠ .redv → (s.tapAt j).offWritten = true) ∧ (s.tapAt j).mantWritten = true)
    (hs : D → ∀ j, j = i ∨ j = i + 1 → ∀ c < b.w, ¬ W (s.srcAddr k y (b.x + c) j)) (hl : Lanes D b f u) :
    Carries D W V s P (s.tapReads k y b i 2)
      (fun _ t => Lanes D b (fun c => s.colLoop k y (b.x + c) 2 i (f c)) t) (tapPair k s.params y b i u) := by
  unfold tapPair
  simp only [h.tapSrc (ho i (.inl rfl)).1, h.frame.cfg]
  refine Carries.andThen (M := s.tapReads k y b (i + 1) 1) (memRead_carries h _ _) ?_
  rintro v0 t0 ht0 ⟨rfl, rfl⟩
  simp only [ht0.tapSrc (ho (i + 1) (.inr rfl)).1]
  refine Carries.andThen (M := []) (memRead_carries ht0 _ _) ?_
  rintro v1 t1 ht1 ⟨rfl, rfl⟩
  have hp := readMantPair_written (s := (u.logAccess _).logAccess _) hi
    (by rw [Mid.tapAt ht1]; exact (ho i (.inl rfl)).2) (by rw [Mid.tapAt ht1]; exact (ho (i + 1) (.inr rfl)).2)
  simp only [hp]
  refine Carries.pure (ht1.move (fun A => Frame.afterTaps A _ _ _) (by simp) (by simp) (by simp)) ?_
  refine ⟨by simp [Kernel.macLanes, span, hl.1, hw], fun d => ?_⟩
  rw [State.afterTaps_acc, hl.2 d, Mid.tapAt ht1, Mid.tapAt ht1]
  simp only [span, List.map_map]
  rw [Kernel.macLanes_range k _ _ _ _ hw, AccFile.values_mac]
  refine List.map_congr_left fun c hc => ?_
  have hc' : c < b.w := by simpa using hc
  simp only [Function.comp, byteAddr_srcAddr]
  rw [h.sample (hs d i (.inl rfl) c hc'), ht0.sample (hs d (i + 1) (.inr rfl) c hc')]
  rfl

theorem State.tapReads_split (s : State) (k : Kernel) (y : BitVec 32) (b : Block) (i n : Nat) :
    s.tapReads k y b i (n + 2) = s.tapReads k y b i 2 ++ s.tapReads k y b (i + 2) n := by
  simp [State.tapReads, List.range'_succ]

theorem runTaps_carries {k : Kernel} {y : BitVec 32} {b : Block} (hw : b.w ≤ k.loadBytes s.cfg b.w)
    (ho : s.tapsWritten k) (hs : D → ∀ j < s.params.tapCount, ∀ c < b.w, ¬ W (s.srcAddr k y (b.x + c) j)) :
    ∀ (n i : Nat) (P : List Access) (u : State) (f : Nat → Int), i % 2 = 0 → i + n = s.params.tapCount →
      Mid D W V s P u → Lanes D b f u →
      Carries D W V s P (s.tapReads k y b i n)
        (fun _ t => Lanes D b (fun c => s.colLoop k y (b.x + c) n i (f c)) t) (runTaps k s.params y b n i u)
  | 0, i, P, u, f, _, _, h, hl => Carries.pure h hl
  | 1, i, P, u, f, _, hn, h, hl =>
    tapSingle_carries h hw (ho i (by omega)).1 (ho i (by omega)).2 (fun d => hs d i (by omega)) hl
  | n + 2, i, P, u, f, hi, hn, h, hl => by
    rw [State.tapReads_split]
    refine Carries.andThen (tapPair_carries h hw hi (fun j hj => ho j (by omega)) (fun d j hj => hs d j (by omega)) hl) ?_
    intro _ t ht hlt
    exact runTaps_carries hw ho hs n (i + 2) _ t _ (by omega) (by omega) ht hlt

/-- One block: its accesses in order, and the contract's value in every column it writes. -/
theorem runBlock_carries {k : Kernel} {y : BitVec 32} {b : Block} (hw : b.w ≤ k.loadBytes s.cfg b.w)
    (hb : b.w ≤ 2 ^ 32) (ho : s.tapsWritten k)
    (hs : D → ∀ j < s.params.tapCount, ∀ c < b.w, ¬ W (s.srcAddr k y (b.x + c) j))
    (hW : ∀ c < b.w, W (k.dst s.params y (b.x + c)))
    (hV : D → ∀ c < b.w, V (k.dst s.params y (b.x + c)) = s.column k y (b.x + c)) {P : List Access} {u : State}
    (h : Mid D W V s P u) :
    Carries D W V s P (s.blockAccesses k y b) (fun _ _ => True) (runBlock k s.params y b u) := by
  unfold runBlock
  rw [State.blockAccesses_eq]
  have h0 : Mid D W V s P (u.beginBlock k s.params b) :=
    h.move (fun A => Frame.beginBlock A k s.params b u) (by simp) (by simp) (by simp)
  have hl0 : Lanes D b (fun _ => k.start s.cfg s.params) (u.beginBlock k s.params b) := by
    have e := AccFile.values_start s.cfg s.params k b.w
    rw [← h.frame.cfg] at e
    unfold Lanes
    rw [State.beginBlock_acc, e, ← h.frame.cfg]
    exact ⟨by simp, fun _ => rfl⟩
  refine Carries.andThen (runTaps_carries hw ho hs _ 0 P _ _ (by simp) (by simp) h0 hl0) ?_
  intro _ t ht hlt
  have hres : D → k.results t.cfg s.params t.acc = (List.range b.w).map fun c => s.column k y (b.x + c) := by
    intro d
    have e : k.results t.cfg s.params t.acc = t.acc.values.map (k.out s.cfg s.params) := by
      rw [ht.frame.cfg]; cases k <;> simp [Kernel.results]
    rw [e, hlt.2 d, List.map_map]
    exact List.map_congr_left fun c _ => s.out_colLoop k y (b.x + c)
  have hlen : (k.results t.cfg s.params t.acc).length = b.w := by rw [Kernel.results_length, hlt.1]
  have hc := memWrite_carries ht (k.dst s.params y b.x) (k.results t.cfg s.params t.acc) (by omega)
    (fun c hc => by
      obtain ⟨j, hj, rfl⟩ := mem_span.mp hc
      rw [byteAddr_dst]; exact hW j (by omega))
    (fun d j hj => by
      rw [byteAddr_dst, hV d j (by omega)]
      simp [hres d])
  rw [hlen] at hc
  exact Carries.andThen (M := []) hc fun _ t2 ht2 _ =>
    Carries.pure (ht2.move (fun A => Frame.endBlock A b t2) (by simp) (by simp) (by simp)) trivial

end

end Sys2Proof.Machine
end

