-- ==== Sys2Proof/Laws/Encoding.lean ====
section
/-! SUPPORT. The fields of a command word (spec/30_encoding.md R82), and the tables of opcodes and register numbers. -/

namespace Sys2Proof

/-- The numeric value of format F (R82). -/
theorem formatF_toNat (op rsv : BitVec 8) (idx : BitVec 16) (imm : BitVec 32) :
    (formatF op rsv idx imm).toNat = op.toNat * 2 ^ 56 + rsv.toNat * 2 ^ 48 + idx.toNat * 2 ^ 32 + imm.toNat := by
  simp only [formatF, BitVec.toNat_append]
  rw [← Nat.shiftLeft_add_eq_or_of_lt (by omega), ← Nat.shiftLeft_add_eq_or_of_lt (by omega),
    ← Nat.shiftLeft_add_eq_or_of_lt (by omega)]
  simp only [Nat.shiftLeft_eq]
  omega

/-! ### The fields as numbers -/

theorem opField_toNat (w : CmdWord) : (opField w).toNat = w.toNat / 2 ^ 56 := by
  simp only [opField, BitVec.extractLsb'_toNat, Nat.shiftRight_eq_div_pow]; omega

theorem rsvField_toNat (w : CmdWord) : (rsvField w).toNat = w.toNat / 2 ^ 48 % 2 ^ 8 := by
  simp only [rsvField, BitVec.extractLsb'_toNat, Nat.shiftRight_eq_div_pow]

theorem idxField_toNat (w : CmdWord) : (idxField w).toNat = w.toNat / 2 ^ 32 % 2 ^ 16 := by
  simp only [idxField, BitVec.extractLsb'_toNat, Nat.shiftRight_eq_div_pow]

theorem immField_toNat (w : CmdWord) : (immField w).toNat = w.toNat % 2 ^ 32 := by
  simp only [immField, BitVec.extractLsb'_toNat, Nat.shiftRight_zero]

/-! ### The fields of a word made of fields -/

@[simp] theorem opField_formatF (op rsv : BitVec 8) (idx : BitVec 16) (imm : BitVec 32) :
    opField (formatF op rsv idx imm) = op := by
  apply BitVec.eq_of_toNat_eq; rw [opField_toNat, formatF_toNat]; omega

@[simp] theorem rsvField_formatF (op rsv : BitVec 8) (idx : BitVec 16) (imm : BitVec 32) :
    rsvField (formatF op rsv idx imm) = rsv := by
  apply BitVec.eq_of_toNat_eq; rw [rsvField_toNat, formatF_toNat]; omega

@[simp] theorem idxField_formatF (op rsv : BitVec 8) (idx : BitVec 16) (imm : BitVec 32) :
    idxField (formatF op rsv idx imm) = idx := by
  apply BitVec.eq_of_toNat_eq; rw [idxField_toNat, formatF_toNat]; omega

@[simp] theorem immField_formatF (op rsv : BitVec 8) (idx : BitVec 16) (imm : BitVec 32) :
    immField (formatF op rsv idx imm) = imm := by
  apply BitVec.eq_of_toNat_eq; rw [immField_toNat, formatF_toNat]; omega

/-- A word is made of its fields. -/
theorem formatF_fields (w : CmdWord) : formatF (opField w) (rsvField w) (idxField w) (immField w) = w := by
  apply BitVec.eq_of_toNat_eq
  rw [formatF_toNat, opField_toNat, rsvField_toNat, idxField_toNat, immField_toNat]
  omega

/-! ### The tables -/

@[simp] theorem Command.ofOpcode_opcode (c : Command) : Command.ofOpcode c.opcode = some c := by cases c <;> rfl

theorem Command.opcode_of_ofOpcode {op : BitVec 8} {c : Command} (h : Command.ofOpcode op = some c) : c.opcode = op := by
  unfold Command.ofOpcode at h
  split at h <;> cases h <;> exact BitVec.eq_of_toNat_eq (Eq.symm ‹op.toNat = _›)

@[simp] theorem Param.ofNum_num (k : Param) : Param.ofNum k.num = some k := by cases k <;> rfl

theorem Param.num_of_ofNum {n : Nat} {k : Param} (h : Param.ofNum n = some k) : k.num = n := by
  unfold Param.ofNum at h
  split at h <;> cases h <;> rfl

theorem Param.num_le (k : Param) : k.num ≤ 11 := by cases k <;> decide

/-! ### Decode -/

/-- Everything a word that decodes has passed (R86). -/
theorem decode_legal {cfg : Config} {w : CmdWord} {i : Instr} (h : decode cfg w = .legal i) :
    ∃ c, c.opcode = opField w ∧ cfg.builds c = true ∧ rsvField w = 0#8 ∧
      decodeOperands cfg c (idxField w) (immField w) = some i := by
  unfold decode at h
  split at h
  · cases h
  · rename_i c hc
    split at h
    · cases h
    · split at h
      · cases h
      · split at h
        · cases h
        · cases h
          exact ⟨c, Command.opcode_of_ofOpcode hc, by simp_all, by simp_all, by assumption⟩

/-- The operands that decode are the fields of the instruction, which is well formed (R83, R85). -/
theorem decodeOperands_legal {cfg : Config} {c : Command} {idx : BitVec 16} {imm : BitVec 32} {i : Instr}
    (hb : cfg.builds c = true) (h : decodeOperands cfg c idx imm = some i) : i.command = c ∧ i.idx = idx ∧ i.imm = imm ∧ i.wf cfg = true := by
  cases c <;> simp only [decodeOperands, decodeSetp, decodeBare] at h
  case setp =>
    split at h
    · cases h
    · rename_i k hk
      split at h
      · cases h
      · split at h
        · cases h
        · cases h
          have := Param.num_of_ofNum hk
          refine ⟨rfl, ?_, rfl, ?_⟩
          · simp [Instr.idx, this]
          · simp only [Instr.wf]
            cases k <;> simp_all [Param.legal]
  all_goals
    split at h
    on_goal 2 => cases h
    rename_i hh
    cases h
    refine ⟨rfl, ?_, ?_, ?_⟩
  all_goals
    try simp_all [Instr.idx, Instr.imm, Instr.wf, Config.builds]
  · obtain ⟨h1, h2, h3⟩ := hh
    apply BitVec.eq_of_toNat_eq
    have := congrArg BitVec.toNat h2
    simp [BitVec.extractLsb'_toNat, Nat.shiftRight_eq_div_pow] at this ⊢
    omega
  · obtain ⟨h1, h2⟩ := hh
    apply BitVec.eq_of_toNat_eq
    have := congrArg BitVec.toNat h2
    simp [BitVec.extractLsb'_toNat, Nat.shiftRight_eq_div_pow] at this ⊢
    omega
  · apply BitVec.eq_of_toNat_eq
    rw [BitVec.toNat_append, ← Nat.shiftLeft_add_eq_or_of_lt (by omega)]
    simp [BitVec.extractLsb'_toNat, Nat.shiftRight_eq_div_pow, Nat.shiftLeft_eq]
    omega

end Sys2Proof
end

