-- ==== Sys2Proof/Laws/Operations.lean ====
section
/-! SUPPORT. Whole operations: the split of a row into blocks, the accesses of an operation, and its three ends: it
completes, a refused access halts it, a reset abandons it. -/

namespace Sys2Proof.Machine

/-! ### The three ends of a sequence of accesses -/

section
variable {D : Prop} {W : Addr → Prop} {V : Addr → Byte} {s : State} {L : List Access} {f : Flow Unit}

theorem Mid.not_blocked {P : List Access} {u : State} (h : Mid D W V s P u) (hr : s.resetAfter = none) {x : Access}
    (hx : x.granted s.cfg = true) {o : Host.Outcome State Fault Refusal} (hb : Blocked x u o) : False := by
  have hc := h.frame.cfg
  have hu := h.frame.reset hr
  cases hb with
  | reset h => simp [hu] at h
  | silent _ h => simp [Access.granted, ← hc, h] at hx
  | refused _ _ h => simp [Access.granted, ← hc, h] at hx

/-- All accesses performed: the sequence runs to its end. -/
theorem Carries.completes {Q : Unit → State → Prop} (h : Carries D W V s [] L Q f) (hr : s.resetAfter = none)
    (hg : s.grants L) : ∃ u, f = .go () u ∧ Mid D W V s L u ∧ Q () u := by
  rcases h with ⟨a, u, hf, hm, hq⟩ | ⟨L1, x, L2, u, o, rfl, hm, hb, hf⟩
  · exact ⟨u, hf, by simpa using hm, hq⟩
  · exact (hm.not_blocked hr (hg x (by simp)) hb).elim

/-- The decomposition at the first access that is not granted is unique. -/
theorem first_refused_unique {cfg : Config} {L1 L2 M1 M2 : List Access} {x y : Access}
    (h : L1 ++ x :: L2 = M1 ++ y :: M2) (h1 : ∀ z ∈ L1, z.granted cfg = true) (hx : x.granted cfg = false)
    (h2 : ∀ z ∈ M1, z.granted cfg = true) (hy : y.granted cfg = false) : L1 = M1 ∧ x = y := by
  rcases List.append_eq_append_iff.mp h with ⟨T, rfl, hT⟩ | ⟨T, rfl, hT⟩
  · cases T with
    | nil => simp at hT; simp [hT.1]
    | cons z T =>
      simp only [List.cons_append, List.cons.injEq] at hT
      have := h2 z (by simp)
      rw [← hT.1, hx] at this
      cases this
  · cases T with
    | nil => simp at hT; simp [hT.1]
    | cons z T =>
      simp only [List.cons_append, List.cons.injEq] at hT
      have := h1 z (by simp)
      rw [← hT.1, hy] at this
      cases this

/-- The first access the platform refuses raises its bus fault after the accesses before it (R138, R219). -/
theorem Carries.refuses {Q : Unit → State → Prop} (h : Carries D W V s [] L Q f) (hr : s.resetAfter = none)
    {L1 L2 : List Access} {x : Access} (hL : L = L1 ++ x :: L2) (hg : s.grants L1) (ha : x.answered s.cfg = true)
    (hb : x.backed s.cfg = false) :
    ∃ u, f = .stop (.next ((u.logAccess x).raise (busCause x.kind) (x.addr.setWidth 64))) ∧ Mid D W V s L1 u := by
  have hx : x.granted s.cfg = false := by simp [Access.granted, hb]
  rcases h with ⟨a, u, hf, hm, hq⟩ | ⟨M1, y, M2, u, o, he, hm, hbl, hf⟩
  · have := hm.granted x (by simp [hL])
    rw [hx] at this; cases this
  · have hy : y.granted s.cfg = false := by
      by_contra hc
      exact hm.not_blocked hr (by simpa using hc) hbl
    have hMg : ∀ z ∈ M1, z.granted s.cfg = true := by simpa using hm.granted
    obtain ⟨rfl, rfl⟩ := first_refused_unique (he.symm.trans hL) hMg hy hg hx
    have hc := hm.frame.cfg
    refine ⟨u, ?_, by simpa using hm⟩
    cases hbl with
    | reset h => rw [hm.frame.reset hr] at h; cases h
    | silent _ h => rw [hc, ha] at h; cases h
    | refused _ _ _ => exact hf

/-- The reset input asserted after the accesses `L1` abandons the operation there (R241). -/
theorem Carries.resets {Q : Unit → State → Prop} (h : Carries D W V s [] L Q f) {L1 L2 : List Access} {x : Access}
    (hL : L = L1 ++ x :: L2) (hg : s.grants L1) (hr : s.resetAfter = some L1.length) :
    ∃ u, f = .stop (.next u.engineReset) ∧ Mid D W V s L1 u := by
  rcases h with ⟨a, u, hf, hm, hq⟩ | ⟨M1, y, M2, u, o, he, hm, hbl, hf⟩
  · have := hm.budget _ hr
    simp [hL] at this
  · have hu := hm.reset
    have hbud := hm.budget _ hr
    simp only [List.nil_append] at hu hbud hm
    rw [hr, Option.map_some] at hu
    have hcut : L1 = M1 ∨ ∃ T, L1 = M1 ++ y :: T := by
      rcases List.append_eq_append_iff.mp (hL.symm.trans he) with ⟨T, rfl, hT⟩ | ⟨T, rfl, hT⟩
      · cases T with
        | nil => exact .inl (by simp)
        | cons z T => simp at hbud
      · cases T with
        | nil => exact .inl (by simp)
        | cons z T =>
          simp only [List.cons_append, List.cons.injEq] at hT
          exact .inr ⟨T, by rw [hT.1]⟩
    rcases hcut with rfl | ⟨T, rfl⟩
    · rw [Nat.sub_self] at hu
      refine ⟨u, ?_, hm⟩
      cases hbl with
      | reset _ => exact hf
      | silent h _ => exact (h hu).elim
      | refused h _ _ => exact (h hu).elim
    · have hy : y.granted s.cfg = true := hg y (by simp)
      exfalso
      have hc := hm.frame.cfg
      cases hbl with
      | reset h => rw [hu] at h; simp at h
      | silent _ h => simp [Access.granted, ← hc, h] at hy
      | refused _ _ h => simp [Access.granted, ← hc, h] at hy

end

/-! ### The split of a row -/

theorem mem_blocksFrom {x w n : Nat} {b : Block} : b ∈ blocksFrom x w n ↔ ∃ j < n, b = ⟨x + j * w, w⟩ := by
  simp [blocksFrom, eq_comm]

/-- A block of `CONV.V` lies in the row and has width `N` or 1 (R132). -/
theorem mem_blocksV {n ne : Nat} {b : Block} (h : b ∈ blocksV n ne) : b.x + b.w ≤ ne ∧ (b.w = n ∨ b.w = 1) := by
  have hd := Nat.div_add_mod ne n
  rw [Nat.mul_comm] at hd
  rcases List.mem_append.mp h with h | h
  · obtain ⟨j, hj, rfl⟩ := mem_blocksFrom.mp h
    refine ⟨?_, .inl rfl⟩
    have : (j + 1) * n ≤ ne / n * n := Nat.mul_le_mul_right _ hj
    rw [Nat.add_mul] at this
    simp only; omega
  · obtain ⟨j, hj, rfl⟩ := mem_blocksFrom.mp h
    refine ⟨?_, .inr rfl⟩
    simp only; omega

/-- A block of the fixed split lies in the row and has width 8, 2 or 1 (R152, R172). -/
theorem mem_blocks821 {ne : Nat} {b : Block} (h : b ∈ blocks821 ne) :
    b.x + b.w ≤ ne ∧ (b.w = 8 ∨ b.w = 2 ∨ b.w = 1) := by
  rcases List.mem_append.mp h with h | h
  · rcases List.mem_append.mp h with h | h
    · obtain ⟨j, hj, rfl⟩ := mem_blocksFrom.mp h
      exact ⟨by simp only; omega, by simp⟩
    · obtain ⟨j, hj, rfl⟩ := mem_blocksFrom.mp h
      exact ⟨by simp only; omega, by simp⟩
  · obtain ⟨j, hj, rfl⟩ := mem_blocksFrom.mp h
    exact ⟨by simp only; omega, by simp⟩

/-- Every column of the row lies in a block of `CONV.V` (R132). -/
theorem blocksV_covers {n ne x : Nat} (hn : 1 ≤ n) (hx : x < ne) : ∃ b ∈ blocksV n ne, b.x ≤ x ∧ x < b.x + b.w := by
  have hd := Nat.div_add_mod ne n
  rw [Nat.mul_comm] at hd
  by_cases h : x < ne / n * n
  · refine ⟨⟨x / n * n, n⟩, List.mem_append_left _ (mem_blocksFrom.mpr ⟨x / n, ?_, by simp⟩), ?_, ?_⟩
    · exact (Nat.div_lt_iff_lt_mul hn).mpr h
    · exact Nat.div_mul_le_self x n
    · exact Nat.lt_div_mul_add hn
  · refine ⟨⟨x, 1⟩, List.mem_append_right _ (mem_blocksFrom.mpr ⟨x - ne / n * n, by omega, ?_⟩), le_rfl, ?_⟩
    · simp only [Block.mk.injEq, and_true]; omega
    · simp

/-- Every column of the row lies in a block of the fixed split (R152, R172). -/
theorem blocks821_covers {ne x : Nat} (hx : x < ne) : ∃ b ∈ blocks821 ne, b.x ≤ x ∧ x < b.x + b.w := by
  by_cases h8 : x < ne / 8 * 8
  · refine ⟨⟨x / 8 * 8, 8⟩, List.mem_append_left _ (List.mem_append_left _
      (mem_blocksFrom.mpr ⟨x / 8, by omega, by simp⟩)), ?_, ?_⟩ <;> simp only <;> omega
  · by_cases h2 : x < ne / 2 * 2
    · refine ⟨⟨ne / 8 * 8 + (x - ne / 8 * 8) / 2 * 2, 2⟩, List.mem_append_left _ (List.mem_append_right _
        (mem_blocksFrom.mpr ⟨(x - ne / 8 * 8) / 2, by omega, rfl⟩)), ?_, ?_⟩ <;> simp only <;> omega
    · refine ⟨⟨ne / 2 * 2, 1⟩, List.mem_append_right _ (mem_blocksFrom.mpr ⟨0, by omega, by simp⟩), ?_, ?_⟩ <;>
        simp only <;> omega

/-! ### Operations as sequences of accesses -/

open Classical in
/-- The value each destination address receives. -/
noncomputable def State.outputValue (s : State) (k : Kernel) (a : Addr) : Byte :=
  if h : ∃ y x, y ∈ s.rowsOf k ∧ x < s.params.columns ∧ k.dst s.params y x = a then
    s.column k h.choose h.choose_spec.choose
  else 0

theorem State.outputValue_eq {s : State} {k : Kernel} (hd : s.outputsDistinct k)
    {y : BitVec 32} (hy : y ∈ s.rowsOf k) {x : Nat} (hx : x < s.params.columns) :
    s.outputValue k (k.dst s.params y x) = s.column k y x := by
  have h : ∃ y' x', y' ∈ s.rowsOf k ∧ x' < s.params.columns ∧ k.dst s.params y' x' = k.dst s.params y x :=
    ⟨y, x, hy, hx, rfl⟩
  unfold State.outputValue
  rw [dif_pos h]
  obtain ⟨h1, h2, h3⟩ := h.choose_spec.choose_spec
  obtain ⟨e1, e2⟩ := hd _ h1 _ h2 y hy x hx h3
  exact congrArg₂ (s.column k) e1 e2

theorem State.accessesOf_rows (s : State) (k : Kernel) (ys : List (BitVec 32)) (blocks : List Block) :
    s.accessesOf k ys blocks = ys.flatMap fun y => blocks.flatMap fun b => s.blockAccesses k y b := by
  simp [State.accessesOf, placed, List.flatMap_assoc, List.flatMap_map]

/-- Every block of the operation lies in the row, and its loads cover its lanes (R153, R155). -/
theorem blocksOf_fit {s : State} (h : s.cfg.wf) {k : Kernel} {b : Block} (hb : b ∈ s.blocksOf k) :
    b.x + b.w ≤ s.params.columns ∧ b.w ≤ k.loadBytes s.cfg b.w := by
  obtain ⟨-, -, h8, h2', h1'⟩ := h
  cases k
  · exact ⟨(mem_blocksV hb).1, le_rfl⟩
  · obtain ⟨h1, h2⟩ := mem_blocks821 hb
    refine ⟨h1, ?_⟩
    rcases h2 with e | e | e <;> simp [Kernel.loadBytes, e] <;> omega
  · exact ⟨(mem_blocks821 hb).1, le_rfl⟩

theorem blocksOf_in_row {s : State} {k : Kernel} {b : Block} (hb : b ∈ s.blocksOf k) :
    b.x + b.w ≤ s.params.columns := by
  cases k
  · exact (mem_blocksV hb).1
  · exact (mem_blocks821 hb).1
  · exact (mem_blocks821 hb).1

/-- Every column of the row lies in a block of the operation. -/
theorem blocksOf_covers {s : State} {k : Kernel} {x : Nat} (hx : x < s.params.columns) :
    ∃ b ∈ s.blocksOf k, b.x ≤ x ∧ x < b.x + b.w := by
  cases k
  · exact blocksV_covers Nat.one_le_two_pow hx
  · exact blocks821_covers hx
  · exact blocks821_covers hx

/-- An operation command is its accesses in order, and, where its source and destination bytes are separate, leaves the
contract's values at the destinations (R61, R131, R151, R174). -/
abbrev Operation (s : State) (k : Kernel) (L : List Access) (f : Flow Unit) : Prop :=
  Carries (s.separate k) (s.outputs k) (s.outputValue k) s [] L (fun _ _ => True) f

section
variable {s : State} {k : Kernel}

theorem block_carries (hc : s.cfg.wf) (ho : s.tapsWritten k) {y : BitVec 32} (hy : y ∈ s.rowsOf k) {b : Block}
    (hbm : b ∈ s.blocksOf k) {P : List Access} {u : State}
    (h : Mid (s.separate k) (s.outputs k) (s.outputValue k) s P u) :
    Carries (s.separate k) (s.outputs k) (s.outputValue k) s P (s.blockAccesses k y b) (fun _ _ => True)
      (runBlock k s.params y b u) := by
  obtain ⟨h1, h2⟩ := blocksOf_fit hc hbm
  have hne : s.params.columns < 2 ^ 32 := s.params.ne.isLt
  refine runBlock_carries h2 (by omega) ho ?_ ?_ ?_ h
  · rintro ⟨hs, -⟩ j hj c hc ⟨y', hy', x', hx', e⟩
    exact hs y hy (b.x + c) (by omega) j hj y' hy' x' hx' e.symm
  · exact fun c hc => ⟨y, hy, b.x + c, by omega, rfl⟩
  · exact fun d c hc => State.outputValue_eq d.2 hy (by omega)

theorem row_carries (hc : s.cfg.wf) (ho : s.tapsWritten k) {r : Nat} (hr : s.params.rowY r ∈ s.rowsOf k)
    {P : List Access} {u : State} (h : Mid (s.separate k) (s.outputs k) (s.outputValue k) s P u) :
    Carries (s.separate k) (s.outputs k) (s.outputValue k) s P
      ((s.blocksOf k).flatMap fun b => s.blockAccesses k (s.params.rowY r) b) (fun _ _ => True)
      (runRow k s.params (s.blocksOf k) r u) := by
  unfold runRow
  have h0 := h.move (t := u.beginRow s.params r) (fun A => Frame.beginRow A _ r u) (by simp) (by simp) (by simp)
  have he := Carries.each (acc := fun b => s.blockAccesses k (s.params.rowY r) b) (s.blocksOf k) P _ h0
    (fun b hbm P t ht => block_carries hc ho hr hbm ht)
  have := Carries.andThen (M := []) (R := fun _ _ => True)
    (k := fun _ s1 => Flow.go () (s1.endRow r)) he fun _ t ht _ =>
      Carries.pure (ht.move (t := t.endRow r) (fun A => Frame.endRow A r t) (by simp) (by simp) (by simp)) trivial
  simpa using this

theorem Mid.begin (D : Prop) (W : Addr → Prop) (V : Addr → Byte) (y : BitVec 32) (s : State) :
    Mid D W V s [] (s.beginOperation y) :=
  (Mid.start D W V s).move (fun A => Frame.beginOperation A y s) (by simp) (by simp) (by simp)

theorem convolution_carries (hk : s.rowsOf k = (List.range s.params.rows).map s.params.rowY) (hc : s.cfg.wf)
    (ho : s.tapsWritten k) :
    Operation s k (s.accesses k)
      (Flow.each (List.range s.params.rows) (runRow k s.params (s.blocksOf k)) (s.beginOperation (s.params.rowY 0))) := by
  rw [State.accesses, State.accessesOf_rows, hk, List.flatMap_map]
  exact Carries.each _ [] _ (Mid.begin _ _ _ _ s) fun r hr P t ht =>
    row_carries hc ho (by rw [hk]; exact List.mem_map_of_mem hr) ht

theorem reduction_carries (hc : s.cfg.wf) (ho : s.tapsWritten .redv) :
    Operation s .redv (s.accesses .redv)
      (Flow.each (blocks821 s.params.columns) (runBlock .redv s.params 0) (s.beginOperation 0)) := by
  rw [State.accesses, State.accessesOf_rows]
  simp only [State.rowsOf, List.flatMap_cons, List.flatMap_nil, List.append_nil]
  exact Carries.each _ [] _ (Mid.begin _ _ _ _ s) fun b hbm P t ht =>
    block_carries hc ho (by simp [State.rowsOf]) hbm ht

/-- Every operation command is the end of a sequence of its accesses. -/
theorem exec_operation {i : Instr} (hi : kernelOf i = some k) (hcode : s.codeLatched k) (hc : s.cfg.wf)
    (ho : s.tapsWritten k) : ∃ f, exec i s = f.finish ∧ Operation s k (s.accesses k) f := by
  cases i <;> simp only [kernelOf, reduceCtorEq, Option.some.injEq] at hi <;> subst hi
  · refine ⟨_, ?_, convolution_carries (k := .conv32) rfl hc ho⟩
    simp only [exec, execConvV, hcode rfl, Bool.true_eq_false, if_false]
    rfl
  · exact ⟨_, rfl, convolution_carries (k := .conv16) rfl hc ho⟩
  · exact ⟨_, rfl, reduction_carries hc ho⟩
  · exact ⟨_, rfl, reduction_carries hc ho⟩

end

/-- The destination of a column is among the written bytes of the operation. -/
theorem State.dst_written {s : State} {k : Kernel} {y : BitVec 32} (hy : y ∈ s.rowsOf k) {x : Nat}
    (hx : x < s.params.columns) : k.dst s.params y x ∈ writtenBytes (s.accesses k) := by
  obtain ⟨b, hb, h1, h2⟩ := blocksOf_covers (k := k) hx
  rw [State.accesses, State.accessesOf_rows]
  simp only [writtenBytes, List.mem_flatMap]
  refine ⟨{ kind := .write, addr := k.dst s.params y b.x, len := b.w }, ⟨y, hy, b, hb, ?_⟩, ?_⟩
  · simp [State.blockAccesses]
  · simp only
    refine mem_span.mpr ⟨x - b.x, by omega, ?_⟩
    rw [byteAddr_dst]
    congr 1
    omega

/-- The written bytes of an operation are the destinations of its columns. -/
theorem State.written_dst {s : State} {k : Kernel} {a : Addr} (ha : a ∈ writtenBytes (s.accesses k)) :
    s.outputs k a := by
  rw [State.accesses, State.accessesOf_rows] at ha
  simp only [writtenBytes, List.mem_flatMap] at ha
  obtain ⟨x, ⟨y, hy, b, hbm, hx⟩, ha⟩ := ha
  simp only [State.blockAccesses, List.mem_append, List.mem_map, List.mem_singleton] at hx
  rcases hx with ⟨i, -, rfl⟩ | rfl
  · simp at ha
  · simp only at ha
    obtain ⟨j, hj, rfl⟩ := mem_span.mp ha
    have := blocksOf_in_row hbm
    exact ⟨y, hy, b.x + j, by omega, (byteAddr_dst _ _ _ _ _).symm⟩

end Sys2Proof.Machine
end

