-- ==== Sys2Proof/Laws/Step.lean ====
section
/-! SUPPORT. What a step can do, said once: what it begins with, and every way an operation command ends. -/

namespace Sys2Proof.Machine

/-- A word taken from the port is what the step begins with (R81). -/
theorem arrival_of_takes {s : State} {w : CmdWord} (h : s.takes w) : arrival s = arrivalOfWord s.cfg w := by
  obtain ⟨h1, h2, h3, h4⟩ := h
  unfold arrival
  cases hc : s.cmds with
  | nil => simp [hc] at h4
  | cons a l => simp [hc] at h4; subst h4; simp [h1, h2, h3, State.cmdReady]

/-- Everything an operation command can do, on every state: it ends inside the frame of its destinations, or is `CONV.V`
without a capability code (R213). -/
theorem exec_operation_ends {i : Instr} {k : Kernel} (hk : kernelOf i = some k) (s : State) :
    OperationEnds (s.outputs k) s (exec i s) ∨
      (i = .convV ∧ s.cap.valid = false ∧ exec i s = .next (s.raise .capUnset (encode .convV))) := by
  have hconv : ∀ k' : Kernel, s.rowsOf k' = (List.range s.params.rows).map s.params.rowY →
      OperationEnds (s.outputs k') s (runConvolution k' (s.blocksOf k') s) := by
    intro k' hr
    apply runConvolution_ends
    intro r hr' b hb c hc
    obtain ⟨j, hj, rfl⟩ := mem_span.mp hc
    have := blocksOf_in_row hb
    exact ⟨s.params.rowY r, by rw [hr]; exact List.mem_map_of_mem (by simpa using hr'), b.x + j, by omega,
      (byteAddr_dst _ _ _ _ _).symm⟩
  have hred : OperationEnds (s.outputs .redv) s (runReduction s) := by
    apply runReduction_ends
    intro b hb c hc
    obtain ⟨j, hj, rfl⟩ := mem_span.mp hc
    have := blocksOf_in_row (k := .redv) hb
    exact ⟨0, by simp [State.rowsOf], b.x + j, by omega, (byteAddr_dst _ _ _ _ _).symm⟩
  cases i <;> simp only [kernelOf, reduceCtorEq, Option.some.injEq] at hk <;> subst hk
  · by_cases hc : s.cap.valid = false
    · exact .inr ⟨rfl, hc, by simp [exec, execConvV, hc]⟩
    · left; simp only [exec, execConvV, hc]; exact hconv .conv32 rfl
  · exact .inl (hconv .conv16 rfl)
  · exact .inl hred
  · exact .inl hred

/-- The causes of a fault are 1 to 6 (R210). -/
theorem Cause.code_range (c : Cause) : 1 ≤ c.code.toNat ∧ c.code.toNat ≤ 6 := by cases c <;> decide

/-- Everything a setup command can do (R199): it retires with parameters, `CAP` or taps written, `CAP` by the first SETCAP only,
or is a SETCAP of another code (R214). -/
theorem exec_setup_ends {i : Instr} (hk : kernelOf i = none) (s : State) :
    (∃ u : State, exec i s = .next u.retire ∧ u = { s with params := u.params, cap := u.cap, taps := u.taps } ∧
      (u.cap = s.cap ∨ ∃ l, i = .setcap l ∧ s.cap.valid = false ∧ u.cap = { valid := true, logn := l })) ∨
    (∃ l, i = .setcap l ∧ s.cap.valid = true ∧ s.cap.logn ≠ l ∧ exec i s = .next (s.raise .capRewrite (encode i))) := by
  cases i <;> simp only [kernelOf, reduceCtorEq] at hk
  · simp only [exec, execSetcap]
    split
    · exact .inl ⟨_, rfl, rfl, .inr ⟨_, rfl, by assumption, rfl⟩⟩
    · split
      · exact .inl ⟨s, rfl, rfl, .inl rfl⟩
      · exact .inr ⟨_, rfl, by simp_all, by assumption, rfl⟩
  all_goals exact .inl ⟨_, rfl, rfl, .inl rfl⟩

/-- Everything a step can do (R81, R86, R240). -/
theorem step_cases (s : State) :
    (s.resetAfter = some 0 ∧ step s = .next s.engineReset) ∨
    (s.resetAfter ≠ some 0 ∧ s.seq.busy = true ∧ step s = .refused .operationInProgress) ∨
    (s.resetAfter ≠ some 0 ∧ s.seq.busy = false ∧ (s.fault.halted = true ∨ s.cmds = []) ∧ step s = .next s) ∨
    (∃ w e, s.takes w ∧ decode s.cfg w = .illegal e ∧ step s = .next (s.takeWord.raise (causeOfDecode e) w)) ∨
    (∃ w i, s.takes w ∧ decode s.cfg w = .legal i ∧ step s = exec i (s.accept i)) := by
  by_cases h1 : s.resetAfter = some 0
  · left; exact ⟨h1, by simp [step, arrival, h1]⟩
  · by_cases h2 : s.seq.busy = true
    · right; left; exact ⟨h1, h2, by simp [step, arrival, h1, h2]⟩
    · simp only [Bool.not_eq_true] at h2
      by_cases h3 : s.fault.halted = true
      · right; right; left; exact ⟨h1, h2, .inl h3, by simp [step, arrival, h1, h2, h3, State.cmdReady]⟩
      · simp only [Bool.not_eq_true] at h3
        cases hc : s.cmds with
        | nil => right; right; left; exact ⟨h1, h2, .inr rfl, by simp [step, arrival, h1, h2, h3, State.cmdReady, hc]⟩
        | cons w l =>
          have ht : s.takes w := ⟨h1, h2, h3, by simp [hc]⟩
          right; right; right
          cases hd : decode s.cfg w with
          | illegal e => left; exact ⟨w, e, ht, hd, by simp [step, arrival_of_takes ht, arrivalOfWord, hd]⟩
          | legal i => right; exact ⟨w, i, ht, hd, by simp [step, arrival_of_takes ht, arrivalOfWord, hd]⟩

end Sys2Proof.Machine
end

