-- ==== Sys2Proof/Laws/Completion.lean ====
section
/-! SUPPORT. On a platform that performs every access, every part of an operation goes on, whether or not its taps have been
written, after a known number of accesses. -/

namespace Sys2Proof.Machine

/-- The reset input is released and the platform performs every access. -/
def State.undisturbed (s : State) : Prop := s.resetAfter = none ∧ s.platformGrantsAll

/-- The part goes on after `n` accesses. -/
def Goes {α : Type} (s : State) (n : Nat) (f : Flow α) : Prop :=
  ∃ a t, f = .go a t ∧ t.bus.length = s.bus.length + n ∧ t.cfg = s.cfg ∧ t.resetAfter = none ∧ t.fault = s.fault

theorem State.undisturbed.of {s t : State} (h : s.undisturbed) (hc : t.cfg = s.cfg) (hr : t.resetAfter = none) :
    t.undisturbed :=
  ⟨hr, by unfold State.platformGrantsAll; rw [hc]; exact h.2⟩

theorem Goes.andThen {α β : Type} {s : State} {n m : Nat} {f : Flow α} {k : α → State → Flow β} (h : Goes s n f)
    (hs : s.undisturbed) (hk : ∀ a t, t.undisturbed → Goes t m (k a t)) : Goes s (n + m) (f.andThen k) := by
  obtain ⟨a, t, rfl, h1, h2, h3, h4⟩ := h
  obtain ⟨b, u, h5, h6, h7, h8, h9⟩ := hk a t (hs.of h2 h3)
  exact ⟨b, u, h5, by omega, h7.trans h2, h8, h9.trans h4⟩

theorem Goes.start {α : Type} {s t : State} {n : Nat} {f : Flow α} (h : Goes t n f) (hb : t.bus = s.bus)
    (hc : t.cfg = s.cfg) (hf : t.fault = s.fault) : Goes s n f := by
  obtain ⟨a, u, rfl, h1, h2, h3, h4⟩ := h
  exact ⟨a, u, rfl, by rw [h1, hb], h2.trans hc, h3, h4.trans hf⟩

/-- An access of any place is performed. -/
theorem issue_goes (x : Access) {s : State} (h : s.undisturbed) : Goes s 1 (issue x s) := by
  obtain ⟨hr, hg⟩ := h
  rcases issue_cases x s with ⟨h1, -, -⟩ | ⟨o, -, hb⟩
  · exact ⟨_, _, h1, by simp, by simp, by simp [hr], by simp⟩
  · exfalso
    have ha : x.answered s.cfg = true := by
      simp only [Access.answered, Bool.not_eq_true', List.any_eq_false]
      intro a _
      simp [(hg a).2.2]
    have hbk : x.backed s.cfg = true := by
      simp only [Access.backed, List.all_eq_true]
      intro a _
      obtain ⟨k, _, _⟩ := x
      cases k <;> simp [backing, hg a]
    cases hb with
    | reset h => rw [hr] at h; cases h
    | silent _ h => rw [ha] at h; cases h
    | refused _ _ h => rw [hbk] at h; cases h

theorem memRead_goes (a : Addr) (n : Nat) {s : State} (h : s.undisturbed) : Goes s 1 (memRead a n s) :=
  Goes.andThen (m := 0) (issue_goes _ h) h fun _ _ ht => ⟨_, _, rfl, rfl, rfl, ht.1, rfl⟩

theorem memWrite_goes (a : Addr) (bs : List Byte) {s : State} (h : s.undisturbed) : Goes s 1 (memWrite a bs s) :=
  Goes.andThen (m := 0) (issue_goes _ h) h fun _ _ ht => ⟨_, _, rfl, by simp, by simp, by simp [ht.1], by simp⟩

theorem readOff_bus (i : Nat) (s : State) : (readOff i s).2.bus = s.bus := by rw [readOff_state]

theorem readMant_bus (i : Nat) (s : State) : (readMant i s).2.bus = s.bus := by rw [readMant_state]

theorem readMantPair_bus (i : Nat) (s : State) : (readMantPair i s).2.bus = s.bus :=
  (readMant_bus _ _).trans (readMant_bus _ _)

theorem tapSrc_bus (k : Kernel) (p : Params) (y : BitVec 32) (x i : Nat) (s : State) :
    (k.tapSrc p y x i s).2.bus = s.bus := by
  cases k
  · exact readOff_bus i s
  · exact readOff_bus i s
  · rfl

/-- Reading the source address of a tap, written or not, leaves the part undisturbed. -/
theorem tapSrc_undisturbed (k : Kernel) (p : Params) (y : BitVec 32) (x i : Nat) {s : State} (h : s.undisturbed) :
    (k.tapSrc p y x i s).2.undisturbed :=
  h.of (Frame.tapSrc (fun _ => True) p k y x i s).cfg ((Frame.tapSrc (fun _ => True) p k y x i s).reset h.1)

theorem tapPair_goes (k : Kernel) (p : Params) (y : BitVec 32) (b : Block) (i : Nat) {s : State} (h : s.undisturbed) :
    Goes s 2 (tapPair k p y b i s) := by
  unfold tapPair
  have f0 := Frame.tapSrc (fun _ => True) p k y b.x i s
  have h0 := tapSrc_undisturbed k p y b.x i h
  refine Goes.start (t := (k.tapSrc p y b.x i s).2) ?_ (tapSrc_bus ..) f0.cfg f0.fault
  refine Goes.andThen (n := 1) (m := 1) (memRead_goes _ _ h0) h0 fun _ t ht => ?_
  have f1 := Frame.tapSrc (fun _ => True) p k y b.x (i + 1) t
  have h1 := tapSrc_undisturbed k p y b.x (i + 1) ht
  refine Goes.start (t := (k.tapSrc p y b.x (i + 1) t).2) ?_ (tapSrc_bus ..) f1.cfg f1.fault
  refine Goes.andThen (n := 1) (m := 0) (memRead_goes _ _ h1) h1 fun _ t ht => ?_
  have f2 := Frame.readMantPair (fun _ => True) i t
  exact ⟨_, _, rfl, by simp [readMantPair_bus], by simp [f2.cfg], by simp [f2.reset ht.1], by simp [f2.fault]⟩

theorem tapSingle_goes (k : Kernel) (p : Params) (y : BitVec 32) (b : Block) (i : Nat) {s : State} (h : s.undisturbed) :
    Goes s 1 (tapSingle k p y b i s) := by
  unfold tapSingle
  have f0 := Frame.tapSrc (fun _ => True) p k y b.x i s
  have h0 := tapSrc_undisturbed k p y b.x i h
  refine Goes.start (t := (k.tapSrc p y b.x i s).2) ?_ (tapSrc_bus ..) f0.cfg f0.fault
  refine Goes.andThen (n := 1) (m := 0) (memRead_goes _ _ h0) h0 fun _ t ht => ?_
  have f2 := Frame.readMant (fun _ => True) i t
  exact ⟨_, _, rfl, by simp [readMant_bus], by simp [f2.cfg], by simp [f2.reset ht.1], by simp [f2.fault]⟩

theorem runTaps_goes (k : Kernel) (p : Params) (y : BitVec 32) (b : Block) :
    ∀ (n i : Nat) (s : State), s.undisturbed → Goes s n (runTaps k p y b n i s)
  | 0, _, _, h => ⟨_, _, rfl, rfl, rfl, h.1, rfl⟩
  | 1, i, _, h => tapSingle_goes k p y b i h
  | n + 2, i, _, h => by
    obtain ⟨a, t, e, h1, h2, h3, h4⟩ :=
      Goes.andThen (m := n) (tapPair_goes k p y b i h) h fun _ t ht => runTaps_goes k p y b n (i + 2) t ht
    exact ⟨a, t, e, by omega, h2, h3, h4⟩

theorem runBlock_goes (k : Kernel) (p : Params) (y : BitVec 32) (b : Block) (s : State) (h : s.undisturbed) :
    Goes s (p.tapCount + 1) (runBlock k p y b s) := by
  unfold runBlock
  have h0 : (s.beginBlock k p b).undisturbed := h.of (by simp) (by simp [h.1])
  refine Goes.start (t := s.beginBlock k p b) ?_ (by simp) (by simp) (by simp)
  refine Goes.andThen (runTaps_goes k p y b _ _ _ h0) h0 fun _ t ht => ?_
  exact Goes.andThen (m := 0) (memWrite_goes _ _ ht) ht fun _ u hu =>
    ⟨_, _, rfl, by simp, by simp, by simp [hu.1], by simp⟩

theorem each_goes {β : Type} {n : Nat} {body : β → State → Flow Unit}
    (hb : ∀ b s, s.undisturbed → Goes s n (body b s)) :
    ∀ (l : List β) (s : State), s.undisturbed → Goes s (l.length * n) (Flow.each l body s)
  | [], _, h => ⟨_, _, rfl, by simp, rfl, h.1, rfl⟩
  | b :: l, s, h => by
    have := Goes.andThen (hb b s h) h fun _ t ht => each_goes hb l t ht
    rw [List.length_cons, Nat.succ_mul, Nat.add_comm]
    exact this

theorem runRow_goes (k : Kernel) (p : Params) (blocks : List Block) (r : Nat) (s : State) (h : s.undisturbed) :
    Goes s (blocks.length * (p.tapCount + 1)) (runRow k p blocks r s) := by
  unfold runRow
  have h0 : (s.beginRow p r).undisturbed := h.of (by simp) (by simp [h.1])
  refine Goes.start (t := s.beginRow p r) ?_ (by simp) (by simp) (by simp)
  exact Goes.andThen (m := 0) (each_goes (fun b s h => runBlock_goes k p _ b s h) blocks _ h0) h0 fun _ t ht =>
    ⟨_, _, rfl, by simp, by simp, by simp [ht.1], by simp⟩

/-- The state in which a whole convolution or reduction begins is undisturbed if the machine is. -/
theorem beginOperation_undisturbed {s : State} (y : BitVec 32) (h : s.undisturbed) :
    (s.beginOperation y).undisturbed :=
  h.of (by simp) (by simp [h.1])

theorem blocksV_length (n ne : Nat) : (blocksV n ne).length = ne / n + ne % n := by
  simp [blocksV, blocksFrom]

theorem blocks821_length (ne : Nat) : (blocks821 ne).length = ne / 8 + ne % 8 / 2 + ne % 2 := by
  simp [blocks821, blocksFrom]
  omega

end Sys2Proof.Machine
end

