-- ==== Sys2Proof/Laws/PerInstr.lean ====
section
/-! SUPPORT. Statements about every instruction as syntax, one lemma per constructor. -/

namespace Sys2Proof.Laws.EncodeHeader

/-- The encoding carries the opcode of the command in bits 63:56, a zero `rsv` field, and the operand fields of R83 (R82). -/
def Statement (i : Instr) : Prop :=
  opField (encode i) = i.command.opcode ∧ rsvField (encode i) = 0#8 ∧ idxField (encode i) = i.idx ∧
    immField (encode i) = i.imm

theorem setcap (l : BitVec 3) : Statement (.setcap l) := by simp [Statement, encode]
theorem setp (k : Param) (v : Word) : Statement (.setp k v) := by simp [Statement, encode]
theorem setoff (i : Nat) (v : Word) : Statement (.setoff i v) := by simp [Statement, encode]
theorem setmant (i : Nat) (v : Mant) : Statement (.setmant i v) := by simp [Statement, encode]
theorem setmant2 (i : Nat) (v0 v1 : Mant) : Statement (.setmant2 i v0 v1) := by simp [Statement, encode]
theorem convV : Statement .convV := by simp [Statement, encode]
theorem convF : Statement .convF := by simp [Statement, encode]
theorem redv256 : Statement .redv256 := by simp [Statement, encode]
theorem redv128 : Statement .redv128 := by simp [Statement, encode]

end Sys2Proof.Laws.EncodeHeader
end

