-- ==== Sys2Proof/Tests/Slice0.lean ====
section
/-! SUPPORT. Tests. Expected words, bytes and access logs come from spec/95_test_vectors.md (the vector is named at each
test) and from the encoding tables of spec/30_encoding.md. The witness theorems show, for each obligation with hypotheses, a
state and operands that meet all of them together. -/

namespace Sys2Proof.Tests

open Sys2Proof Sys2Proof.Machine

set_option Elab.async false

/-! ### Helpers -/

/-- The build without the optional variants. -/
def bare : Config := { Config.default with hasConvF := false, hasRedv256 := false, hasRedv128 := false }

/-- A tap with both halves written. -/
def tap (off mant : Int) : Tap :=
  { off := BitVec.ofInt 32 off, offWritten := true, mant := BitVec.ofInt 16 mant, mantWritten := true }

/-- Bytes at consecutive addresses. -/
def row (a : Nat) (bs : List Nat) : Memory := bs.zipIdx.map fun b => (a + b.2, BitVec.ofNat 8 b.1)

/-- A state with the parameters, code, taps and memory given, everything else as after reset. -/
def machine (p : Params) (c : Cap) (taps : List Tap) (mem : Memory) : State :=
  { State.reset with params := p, cap := c, taps := taps, mem := mem }

/-- The bytes from `a` on after a command that answers a next state. -/
def bytesAfter (o : Host.Outcome State Fault Refusal) (a : Addr) (n : Nat) : List Byte :=
  match o with
  | .next t => (span a n).map t.byteAt
  | .fault _ => []
  | .refused _ => []

/-- The accesses of a command that answers a next state, in order. -/
def accessesAfter (o : Host.Outcome State Fault Refusal) : List Access :=
  match o with
  | .next t => t.bus.reverse
  | .fault _ => []
  | .refused _ => []

/-- What the status port shows after a step. -/
def statusAfter (o : Host.Outcome State Fault Refusal) : Option StatusPort :=
  match o with
  | .next t => some t.status
  | .fault _ => none
  | .refused _ => none

/-- A parameter register after a step. -/
def paramAfter (o : Host.Outcome State Fault Refusal) (k : Param) : Option Word :=
  match o with
  | .next t => some (t.params.get k)
  | .fault _ => none
  | .refused _ => none

/-- A tap after a step. -/
def tapAfter (o : Host.Outcome State Fault Refusal) (i : Nat) : Option Tap :=
  match o with
  | .next t => some (t.tapAt i)
  | .fault _ => none
  | .refused _ => none

def rd (a : Addr) (n : Nat) : Access := { kind := .read, addr := a, len := n }

def wr (a : Addr) (n : Nat) : Access := { kind := .write, addr := a, len := n }

/-! ### Well-formedness: one ill-formed term for each check, refused -/

theorem smoke_setcap_reserved_code : (Instr.setcap 7#3).wf Config.default = false := by decide
theorem smoke_setp_nnz : (Instr.setp .nnz 257#32).wf Config.default = false := by decide
theorem smoke_setp_exponent : (Instr.setp .exponent 32#32).wf Config.default = false := by decide
theorem smoke_setoff_index : (Instr.setoff 256 0#32).wf Config.default = false := by decide
theorem smoke_setmant_index : (Instr.setmant 256 0#16).wf Config.default = false := by decide
theorem smoke_setmant2_index : (Instr.setmant2 256 0#16 0#16).wf Config.default = false := by decide
theorem smoke_setmant2_odd : (Instr.setmant2 1 0#16 0#16).wf Config.default = false := by decide
theorem smoke_convF_absent : Instr.convF.wf bare = false := by decide
theorem smoke_redv256_absent : Instr.redv256.wf bare = false := by decide
theorem smoke_redv128_absent : Instr.redv128.wf bare = false := by decide

/-! ### Decoding: words from R82 to R84 and section 3 of the vectors -/

/-- E2. -/
theorem test_decode_setcap :
    decode Config.default 0b0000000100000000000000000000000000000000000000000000000000000110#64 =
      .legal (.setcap 6#3) := by decide
/-- E4. -/
theorem test_decode_setp : decode Config.default 0x02000004FFFFFFFF#64 = .legal (.setp .rectLeft 0xFFFFFFFF#32) := by
  decide
/-- E5, E7: the largest legal values. -/
theorem test_decode_setp_limits :
    decode Config.default 0x0200000900000100#64 = .legal (.setp .nnz 256#32) ∧
    decode Config.default 0x0200000B0000001F#64 = .legal (.setp .exponent 31#32) := by decide
/-- E11. -/
theorem test_decode_setoff : decode Config.default 0x030000FF00000020#64 = .legal (.setoff 255 32#32) := by decide
/-- E14. -/
theorem test_decode_setmant : decode Config.default 0x040000030000FFCE#64 = .legal (.setmant 3 0xFFCE#16) := by decide
/-- E18: the low half is the lower-numbered tap. -/
theorem test_decode_setmant2 :
    decode Config.default 0x050000FEFFF90007#64 = .legal (.setmant2 254 7#16 0xFFF9#16) := by decide
/-- E19. -/
theorem test_decode_operations :
    decode Config.default 0x1000000000000000#64 = .legal .convV ∧
    decode Config.default 0x1100000000000000#64 = .legal .convF ∧
    decode Config.default 0x1200000000000000#64 = .legal .redv256 ∧
    decode Config.default 0x1300000000000000#64 = .legal .redv128 := by decide
/-- G1 to G5. -/
theorem test_decode_illegal_command :
    ([0x0000000000000000#64, 0xFFFFFFFFFFFFFFFF#64, 0x0600000000000000#64, 0x0F00000000000000#64, 0x1400000000000000#64,
      0x0201000800000005#64, 0x0201000C00000000#64].map (decode Config.default)) =
      List.replicate 7 (.illegal .illegalCommand) := by decide
/-- G6 to G16, G18. -/
theorem test_decode_illegal_operand :
    ([0x0200000C00000000#64, 0x0200000900000101#64, 0x0200000B00000020#64, 0x0100000000000007#64, 0x0100000000000008#64,
      0x0100000100000002#64, 0x0300010000000000#64, 0x04000000FFFFFFFF#64, 0x0400010000000001#64, 0x0500000100020001#64,
      0x0500010000020001#64, 0x1000000000000001#64, 0x1000000100000000#64, 0x1300000000000001#64].map
        (decode Config.default)) =
      List.replicate 14 (.illegal .illegalOperand) := by decide
/-- G17. -/
theorem test_decode_absent_variant : decode bare 0x1100000000000000#64 = .illegal .illegalCommand := by decide

/-- The examples of R88. -/
theorem test_assembler : [AsmLine.setp 8 5, .setoff 0 (-1), .setmant 1 2, .setmant2 0 1 2, .setcap 2, .convV].flatMap
    AsmLine.words = [0x0200000800000005#64, 0x03000000FFFFFFFF#64, 0x0400000100000002#64, 0x0500000000020001#64,
      0x0100000000000002#64, 0x1000000000000000#64] := by decide

/-! ### Primitives: section 2 of the vectors -/

/-- Q1, Q2. -/
theorem test_sra : [sra 5 1, sra (-1) 1, sra (-3) 1, sra (-338) 2, sra (-7) 0, sra (-2147483648) 31, sra 32767 16] =
    [2, -1, -2, -85, -7, -1, 0] := by decide
/-- Q5. -/
theorem test_bias : [bias 0, bias 1, bias 2, bias 7, bias 12, bias 15, bias 31] =
    [0, 1, 2, 64, 2048, 16384, 1073741824] := by decide
/-- Q6, Q7. -/
theorem test_pack : pack (BitVec.ofInt 16 (-100)) (BitVec.ofInt 16 (-50)) = 0xFFCEFF9C#32 ∧
    unpack 0x7FFF8000#32 = (BitVec.ofInt 16 (-32768), BitVec.ofInt 16 32767) := by decide
/-- Q8, Q10: a 32-bit accumulator wraps. -/
theorem test_mac32 : [wrap32 3212771584, mac32 2 1 0 2 255, mac32 2147483647 1 1 0 0, mac32Single 0 (-32768) 255] =
    [-1082195712, 512, -2147483648, -8355840] := by decide
/-- Q11: the pair sum is exact before its saturation. -/
theorem test_pmac16 : [pmac16 64 100 255 100 255, pmac16 32767 (-100) 255 (-50) 255, pmac16 64 100 255 (-100) 255,
    pmac16Single (-32768) (-1) 1] = [32767, -1, 64, -32768] := by decide
/-- Q12: no wrap before the clamp. -/
theorem test_out_conv : [outConv 802 2 0, outConv 1182 2 0, outConv (-338) 2 0, outConv (-3) 1 128,
    outConv (-2147483648) 0 2147483647, outConv 2147483647 0 2147483647] = [200#8, 255#8, 0#8, 126#8, 0#8, 255#8] := by
  decide

/-! ### Addresses: section 4 of the vectors -/

/-- A2, A3, A8: signed left edge and row coordinate, modulo 2^32. -/
theorem test_addresses :
    aIn { Params.reset with inBase := 0x1000, inStride := 16, rectLeft := 0xFFFFFFFF } 0 4 = 0x1003#32 ∧
    aIn { Params.reset with inBase := 0x1000, inStride := 0x100 } 0xFFFFFFFF#32 0 = 0x0F00#32 ∧
    Params.rowY { Params.reset with rectTop := 0x7FFFFFFF } 1 = 0x80000000#32 ∧
    aIn { Params.reset with inBase := 0x1000, inStride := 2 } 0x7FFFFFFF#32 0 = 0x0FFE#32 := by decide
/-- A6: an access wraps round the end of the space. -/
theorem test_span_wraps : span 0xFFFFFFFE#32 4 = [0xFFFFFFFE#32, 0xFFFFFFFF#32, 0#32, 1#32] := by decide

/-! ### Setup commands -/

/-- G20. -/
theorem test_setcap_same : statusAfter (exec (.setcap 2#3) (machine Params.reset ⟨true, 2#3⟩ [] [])) =
    some ⟨false, false, true, 2#3, 0#4, 0#64⟩ := by decide
/-- G21. -/
theorem test_setcap_other : statusAfter (exec (.setcap 3#3) (machine Params.reset ⟨true, 2#3⟩ [] [])) =
    some ⟨false, true, true, 2#3, 4#4, 0x0100000000000003#64⟩ := by decide
/-- E8. -/
theorem test_setp : paramAfter (step (State.reset.withFetchWord 64 0x0200000AFFFFFFFD)) .outOffset = some 0xFFFFFFFD#32 := by
  decide
/-- E10: the offset only. -/
theorem test_setoff : tapAfter (exec (.setoff 0 0xFFFFFFFF#32) (machine Params.reset Cap.reset [tap 0 5] [])) 0 =
    some (tap (-1) 5) := by decide
/-- E14: the mantissa only. -/
theorem test_setmant : tapAfter (exec (.setmant 1 0xFFCE#16) (machine Params.reset Cap.reset [tap 0 5, tap 7 6] [])) 1 =
    some (tap 7 (-50)) := by decide
/-- E16: the low half goes to the lower-numbered tap. -/
theorem test_setmant2 :
    tapAfter (exec (.setmant2 0 1#16 2#16) (machine Params.reset Cap.reset [tap 3 5, tap 7 6] [])) 0 = some (tap 3 1) ∧
    tapAfter (exec (.setmant2 0 1#16 2#16) (machine Params.reset Cap.reset [tap 3 5, tap 7 6] [])) 1 = some (tap 7 2) := by
  decide

/-! ### Operation commands -/

/-- Program P1: the blur of one row, `N` = 4. -/
def blur : State :=
  machine { Params.reset with
      outBase := 0x2000, outStride := 16, inBase := 0x1000, inStride := 16, rectWidth := 5, rectHeight := 1, ne := 5
      nnz := 3, exponent := 2 }
    ⟨true, 2#3⟩ [tap (-1) 1, tap 0 2, tap 1 1] (row 0xFFF [0, 0, 0, 255, 0, 0, 0, 0, 0, 0, 0, 0])

/-- P1, S3: the bytes of `CONV.V`. -/
theorem test_convV_bytes : bytesAfter (exec .convV blur) 0x2000#32 5 = [0#8, 64#8, 128#8, 64#8, 0#8] := by decide
/-- P1: the accesses of `CONV.V`. -/
theorem test_convV_accesses : accessesAfter (exec .convV blur) =
    [rd 0xFFF 4, rd 0x1000 4, rd 0x1001 4, wr 0x2000 4, rd 0x1003 1, rd 0x1004 1, rd 0x1005 1, wr 0x2004 1] := by decide
/-- P1: the accesses of `CONV.F`, with its over-read. -/
theorem test_convF_accesses : accessesAfter (exec .convF { blur with params := { blur.params with outBase := 0x2008 } }) =
    [rd 0xFFF 8, rd 0x1000 8, rd 0x1001 8, wr 0x2008 2, rd 0x1001 8, rd 0x1002 8, rd 0x1003 8, wr 0x200A 2,
     rd 0x1003 4, rd 0x1004 4, rd 0x1005 4, wr 0x200C 1] := by decide

/-- The one-column setup of the vectors with four taps, all samples 255, `e` = 7. -/
def four (m0 m1 m2 m3 : Int) : State :=
  machine { Params.reset with
      outBase := 0x2000, outStride := 16, inBase := 0x1000, inStride := 16, rectHeight := 1, ne := 1, nnz := 4
      exponent := 7 }
    ⟨true, 0#3⟩ [tap 0 m0, tap 4 m1, tap 8 m2, tap 12 m3] (row 0x1000 (List.replicate 16 255))

/-- F5, F6 against S12: saturation makes `CONV.F` depend on the order of the taps. -/
theorem test_convF_saturates :
    bytesAfter (exec .convF (four 100 100 (-100) (-50))) 0x2000#32 1 = [0#8] ∧
    bytesAfter (exec .convF (four 100 (-100) 100 (-50))) 0x2000#32 1 = [100#8] ∧
    bytesAfter (exec .convV (four 100 100 (-100) (-50))) 0x2000#32 1 = [100#8] := by decide

/-- V3, as three samples in blocks of 2 and 1, without a code and without offsets. -/
def means : State :=
  machine { Params.reset with outBase := 0x5000, inBase := 0x4000, inStride := 16, ne := 3, nnz := 2 } Cap.reset
    [{ Tap.unwritten with mant := 2048, mantWritten := true }, { Tap.unwritten with mant := 2048, mantWritten := true }]
    (row 0x4000 [10, 0, 1] ++ row 0x4010 [13, 1, 2])

/-- V2, V3. -/
theorem test_redv256 : bytesAfter (exec .redv256 means) 0x5000#32 3 = [12#8, 1#8, 2#8] := by decide
/-- V2, V3: the same bytes and accesses. -/
theorem test_redv128 : bytesAfter (exec .redv128 means) 0x5000#32 3 = [12#8, 1#8, 2#8] ∧
    accessesAfter (exec .redv128 means) = [rd 0x4000 2, rd 0x4010 2, wr 0x5000 2, rd 0x4002 1, rd 0x4012 1, wr 0x5002 1] := by
  decide

/-- Program P4: only 0x1000 to 0x100F is readable. -/
def narrow : State :=
  { machine { Params.reset with
        outBase := 0x2000, inBase := 0x1000, rectHeight := 1, ne := 20, nnz := 1, exponent := 1 }
      ⟨true, 2#3⟩ [tap 0 2] (row 0x1000 [0, 10, 20, 30, 40, 50, 60, 70, 80, 90, 100, 110, 120, 130, 140, 150]) with
    cfg := { Config.default with readable := [⟨0x1000, 16⟩], writable := [⟨0x2000, 256⟩] } }

/-- P4: the fault and the bytes written before it. -/
theorem test_bus_fault :
    statusAfter (exec .convV narrow) = some ⟨false, true, true, 2#3, 5#4, 0x1010#64⟩ ∧
    bytesAfter (exec .convV narrow) 0x200C#32 4 = [120#8, 130#8, 140#8, 150#8] := by decide
/-- P4, second variant: the write at 0x2008 is refused. -/
theorem test_bus_fault_write :
    statusAfter (exec .convV { narrow with
      cfg := { Config.default with writable := [⟨0x2000, 8⟩] } }) = some ⟨false, true, true, 2#3, 6#4, 0x2008#64⟩ := by
  decide
/-- G19, P5. -/
theorem test_cap_unset : statusAfter (step (State.reset.withFetchWord 64 0x1000000000000000)) =
    some ⟨false, true, false, 0#3, 3#4, 0x1000000000000000#64⟩ := by decide
/-- G2: an illegal word is recorded. -/
theorem test_illegal_word : statusAfter (step (State.reset.withFetchWord 64 0xFFFFFFFFFFFFFFFF)) =
    some ⟨false, true, false, 0#3, 1#4, 0xFFFFFFFFFFFFFFFF#64⟩ := by decide

/-! ### Witnesses: for each obligation with hypotheses, a state and operands that meet all of them -/

/-- Every row and column of an operation passes a check. -/
def everyColumn (s : State) (k : Kernel) (f : BitVec 32 → Nat → Bool) : Bool :=
  (s.rowsOf k).all fun y => (List.range s.params.columns).all fun x => f y x

theorem everyColumn_iff (s : State) (k : Kernel) (f : BitVec 32 → Nat → Bool) :
    everyColumn s k f = true ↔ ∀ y ∈ s.rowsOf k, ∀ x < s.params.columns, f y x = true := by
  simp [everyColumn]

/-- The premise of a result claim, by enumeration. -/
theorem separate_of_check {s : State} {k : Kernel}
    (h : everyColumn s k (fun y x => (List.range s.params.tapCount).all fun i =>
      everyColumn s k fun y' x' => decide (s.srcAddr k y x i ≠ k.dst s.params y' x')) = true)
    (h' : everyColumn s k (fun y x => everyColumn s k fun y' x' =>
      decide (k.dst s.params y x = k.dst s.params y' x' → y = y' ∧ x = x')) = true) : s.separate k := by
  simp only [everyColumn_iff, List.all_eq_true, List.mem_range, decide_eq_true_eq] at h h'
  exact ⟨h, h'⟩

/-- `State.reset` with a word presented. -/
def presented (w : CmdWord) : State := State.reset.present w

/-- The blur with the reset input asserted after `n` accesses. -/
def interrupted (n : Nat) : State := { blur with resetAfter := some n }

/-- The blur over two rows, each with its own input and output row. -/
def twoRows : State := { blur with params := { blur.params with rectHeight := 2, ne := 3 } }

theorem witness_DecodeOfEncode :
    Config.default.wf ∧ (Instr.setcap 6#3).wf Config.default = true ∧ (Instr.setp .nnz 256#32).wf Config.default = true ∧
    (Instr.setp .exponent 31#32).wf Config.default = true ∧ (Instr.setoff 255 0#32).wf Config.default = true ∧
    (Instr.setmant 255 0x8000#16).wf Config.default = true ∧ (Instr.setmant2 254 7#16 0xFFF9#16).wf Config.default = true ∧
    Instr.redv128.wf Config.default = true := by
  and_intros <;> decide +kernel

theorem witness_EncodeOfDecode : ∃ i, decode Config.default 0x0200000900000100#64 = .legal i := ⟨_, rfl⟩

/-- One word for each clause; the third fails the fourth test too. -/
theorem witness_DecodeFollowsTheFourTests :
    (0x06 ∉ definedOpcodes ∧ 0x0600000000000000 / 2 ^ 56 = 0x06) ∧
    (0x11 ∈ definedOpcodes ∧ variantAbsent bare 0x11) ∧
    (0x02 ∈ definedOpcodes ∧ ¬ variantAbsent bare 0x02 ∧ 0x0201000C00000000 / 2 ^ 48 % 2 ^ 8 ≠ 0) ∧
    (¬ operandsLegal bare 0x02 9 257 ∧ operandsLegal bare 0x02 9 256) ∧
    (¬ operandsLegal bare 0x02 11 32 ∧ operandsLegal bare 0x02 11 31) ∧
    (¬ operandsLegal bare 0x02 12 0 ∧ operandsLegal bare 0x02 11 0) ∧
    (¬ operandsLegal bare 0x01 0 7 ∧ operandsLegal bare 0x01 0 6) ∧
    (¬ operandsLegal bare 0x03 256 0 ∧ operandsLegal bare 0x03 255 0) ∧
    (¬ operandsLegal bare 0x04 0 65536 ∧ operandsLegal bare 0x04 0 65535) ∧
    (¬ operandsLegal bare 0x05 255 0 ∧ operandsLegal bare 0x05 254 0) ∧
    (¬ operandsLegal bare 0x10 0 1 ∧ operandsLegal bare 0x10 0 0) := by
  and_intros <;> decide +kernel

theorem witness_MaskAndMatchSelectTheCommand :
    (∃ i, decode Config.default 0x050000FEFFF90007#64 = .legal i) ∧
    0x050000FEFFF90007#64 &&& opcodeMask .setmant2 = opcodeMatch .setmant2 := ⟨⟨_, rfl⟩, by decide⟩

theorem witness_AssemblerLinesEncode :
    6 < 2 ^ 32 ∧ (AsmLine.setp 11 (-1)).inRange = true ∧ (AsmLine.setoff 65535 (-2147483648)).inRange = true ∧
    (AsmLine.setmant 65535 (-32768)).inRange = true ∧ (AsmLine.setmant2 65534 32767 (-32768)).inRange = true := by
  and_intros <;> decide

theorem witness_PseudoCommandsExpand :
    255 < 256 ∧ offsetInRange (-2147483648) = true ∧ offsetInRange 2147483647 = true ∧ mantInRange (-32768) = true ∧
    mantInRange 32767 = true ∧ (0 : Int) ≤ 31 ∧ (31 : Int) ≤ 31 := by
  and_intros <;> decide +kernel

theorem witness_StepRunsTheDecodedCommand :
    (presented 0x0200000800000005#64).takes 0x0200000800000005#64 ∧
    decode (presented 0x0200000800000005#64).cfg 0x0200000800000005#64 = .legal (.setp .ne 5#32) := by
  and_intros <;> decide +kernel

/-- A ready engine with a word, a step with a next state, a halted engine with a word. -/
theorem witness_CommandPortProtocol :
    ((presented 0x0200000800000005#64).resetAfter ≠ some 0 ∧ (presented 0x0200000800000005#64).cmdReady = true ∧
      (presented 0x0200000800000005#64).cmds.head? = some 0x0200000800000005#64 ∧
      decode (presented 0x0200000800000005#64).cfg 0x0200000800000005#64 = .legal (.setp .ne 5#32)) ∧
    (∃ t, step (presented 0x0200000800000005#64) = .next t) ∧
    (∃ t, step ((presented 0#64).raise .busRead 0#64) = .next t) ∧
    ((presented 0#64).raise .busRead 0#64).cmdReady = false ∧
    ((presented 0#64).raise .busRead 0#64).seq.busy = false ∧ ((presented 0#64).raise .busRead 0#64).fault.halted = true :=
  ⟨by decide, ⟨_, rfl⟩, ⟨_, rfl⟩, by decide, by decide, by decide⟩

/-- A word taken for each clause: an undefined opcode, a failed constraint, a legal command. -/
theorem witness_IllegalWordHaltsWithoutEffect :
    ((presented 0x0600000000000000#64).takes 0x0600000000000000#64 ∧ 0x06 ∉ definedOpcodes) ∧
    ((presented 0x0200000900000101#64).takes 0x0200000900000101#64 ∧ 0x02 ∈ definedOpcodes ∧
      ¬ variantAbsent Config.default 0x02 ∧ ¬ operandsLegal Config.default 0x02 9 257) ∧
    ((presented 0x0200000900000100#64).takes 0x0200000900000100#64 ∧ operandsLegal Config.default 0x02 9 256) := by
  and_intros <;> decide +kernel

theorem witness_OnlyResetLeavesTheHalt :
    (∃ t, step (State.reset.raise .illegalCommand 0#64) = .next t) ∧
    (∃ t, step { State.reset.raise .illegalCommand 0#64 with resetAfter := some 0 } = .next t) ∧
    (State.reset.raise .illegalCommand 0#64).fault.halted = true := ⟨⟨_, rfl⟩, ⟨_, rfl⟩, rfl⟩

theorem witness_ResetRestoresTheResetValues : (interrupted 0).resetAfter = some 0 := rfl

theorem witness_OnlyABusyStepIsRefused :
    ∃ s : State, s.seq.busy = true ∧ s.resetAfter ≠ some 0 ∧ step s = .refused .operationInProgress :=
  ⟨State.reset.accept .convF, rfl, by decide, rfl⟩

theorem witness_SetcapLatchesOnce :
    State.reset.cap.valid = false ∧ (blur.cap.valid = true ∧ blur.cap.logn = 2#3) ∧
    (blur.cap.valid = true ∧ blur.cap.logn ≠ 3#3) := by
  and_intros <;> decide +kernel

theorem witness_SetpChecksOnlyNnzAndExponent :
    (256#32).toNat ≤ Config.default.tapsMax ∧ ¬ (257#32).toNat ≤ Config.default.tapsMax ∧ (31#32).toNat ≤ 31 ∧
    ¬ (32#32).toNat ≤ 31 ∧ Param.ne ≠ .nnz ∧ Param.ne ≠ .exponent := by
  and_intros <;> decide +kernel

theorem witness_SetoffWritesOneOffset :
    State.reset.taps.length = State.reset.cfg.tapsMax ∧ (Instr.setoff 255 1#32).wf State.reset.cfg = true :=
  ⟨List.length_replicate, by decide⟩

theorem witness_SetmantWritesOneMantissa :
    State.reset.taps.length = State.reset.cfg.tapsMax ∧ (Instr.setmant 255 1#16).wf State.reset.cfg = true :=
  ⟨List.length_replicate, by decide⟩

theorem witness_SetmantPairIsTwoSetmants :
    State.reset.cfg.wf ∧ State.reset.taps.length = State.reset.cfg.tapsMax ∧
    (Instr.setmant2 254 1#16 2#16).wf State.reset.cfg = true := ⟨by decide, List.length_replicate, by decide⟩

theorem witness_SetupCommandsRetireWithoutAccess :
    kernelOf (.setcap 3#3) = none ∧ kernelOf (.setmant2 0 1#16 2#16) = none := by decide

/-- A step for each clause: a parameter, `CAP`, a tap, memory and the access log change. -/
theorem witness_EachKindOfStateHasItsWriters :
    (∃ t, step (presented 0x0200000800000005#64) = .next t ∧ t.params ≠ State.reset.params) ∧
    (∃ t, step (presented 0x0100000000000002#64) = .next t ∧ t.cap ≠ State.reset.cap) ∧
    (∃ t, step { blur with cmds := [0x0300000000000007#64] } = .next t ∧ t.taps ≠ blur.taps) ∧
    (∃ t, step { blur with cmds := [0x1000000000000000#64] } = .next t ∧ t.bus ≠ blur.bus ∧ t.mem ≠ blur.mem) ∧
    blur.resetAfter = none :=
  ⟨⟨_, rfl, by decide⟩, ⟨_, rfl, by decide⟩, ⟨_, rfl, by decide⟩, ⟨_, rfl, by decide, by decide⟩, rfl⟩

theorem witness_CapIsWriteOnce : (∃ t, step { blur with cmds := [0x0100000000000003#64] } = .next t) ∧
    blur.cap.valid = true := ⟨⟨_, rfl⟩, rfl⟩

theorem witness_OperationFrame : kernelOf .convV = some .conv32 ∧ narrow.resetAfter = none ∧
    (∃ t, exec .convV narrow = .next t) ∧ (∃ t, exec .convV blur = .next t) ∧ ¬ blur.outputs .conv32 0x2005#32 :=
  ⟨rfl, rfl, ⟨_, rfl⟩, ⟨_, rfl⟩, by
    rintro ⟨y, hy, x, hx, e⟩
    have h : everyColumn blur .conv32 (fun y x => decide (aOut blur.params y x ≠ 0x2005#32)) = true := by decide
    simp only [everyColumn_iff, decide_eq_true_eq] at h
    exact h y hy x hx e⟩

theorem witness_ConvVWithoutCodeHalts : State.reset.cap.valid = false := rfl

/-- The default platform performs every access. -/
theorem reset_platformGrantsAll : State.reset.platformGrantsAll := by
  intro a
  have h : addrIn AddrSet.all a = true := by
    simp only [addrIn, AddrSet.all, List.any_cons, List.any_nil, Bool.or_false, AddrRange.has, Bool.and_eq_true,
      decide_eq_true_eq]
    have := a.isLt
    omega
  exact ⟨h, h, rfl⟩

theorem witness_OperationsCompleteAfterTheirAccesses :
    blur.resetAfter = none ∧ blur.platformGrantsAll ∧ blur.cap.valid = true := ⟨rfl, reset_platformGrantsAll, rfl⟩

theorem witness_EveryCommandEndsWhereThePortAnswers : ∀ x : Access, x.answered narrow.cfg = true := by
  intro x
  simp [Access.answered, narrow, addrIn, Config.default]

theorem witness_ConvVStoresConv32 :
    twoRows.cfg.wf ∧ twoRows.cap.valid = true ∧ twoRows.resetAfter = none ∧ twoRows.tapsWritten .conv32 ∧
    twoRows.grants (twoRows.accesses .conv32) ∧ twoRows.separate .conv32 :=
  ⟨by decide, rfl, rfl, by decide, by decide +kernel, separate_of_check (by decide +kernel) (by decide +kernel)⟩

theorem witness_ConvFStoresConv16 :
    twoRows.cfg.wf ∧ twoRows.resetAfter = none ∧ twoRows.tapsWritten .conv16 ∧
    twoRows.grants (twoRows.accesses .conv16) ∧ twoRows.separate .conv16 :=
  ⟨by decide, rfl, by decide, by decide +kernel, separate_of_check (by decide +kernel) (by decide +kernel)⟩

theorem witness_RedvStoresRedv :
    means.cfg.wf ∧ means.resetAfter = none ∧ means.tapsWritten .redv ∧ means.grants (means.accesses .redv) ∧
    means.separate .redv :=
  ⟨by decide, rfl, by decide, by decide +kernel, separate_of_check (by decide +kernel) (by decide +kernel)⟩

theorem witness_OperationIssuesItsAccessesInOrder :
    kernelOf .convF = some .conv16 ∧ twoRows.codeLatched .conv16 ∧ twoRows.cfg.wf ∧ twoRows.resetAfter = none ∧
    twoRows.tapsWritten .conv16 ∧ twoRows.grants (twoRows.accesses .conv16) := by
  and_intros <;> decide +kernel

/-- P4: the ninth access is refused, and the machine's source and destination bytes are separate. -/
theorem witness_RefusedAccessHaltsThere :
    kernelOf .convV = some .conv32 ∧ narrow.codeLatched .conv32 ∧ narrow.cfg.wf ∧ narrow.resetAfter = none ∧
    narrow.tapsWritten .conv32 ∧
    narrow.accesses .conv32 = (narrow.accesses .conv32).take 8 ++ rd 0x1010 4 :: (narrow.accesses .conv32).drop 9 ∧
    narrow.grants ((narrow.accesses .conv32).take 8) ∧ (rd 0x1010 4).answered narrow.cfg = true ∧
    (rd 0x1010 4).backed narrow.cfg = false ∧ narrow.separate .conv32 ∧
    aOut narrow.params 0 15 ∈ writtenBytes ((narrow.accesses .conv32).take 8) :=
  ⟨rfl, by decide, by decide, rfl, by decide, by decide +kernel, by decide +kernel, by decide +kernel, by decide +kernel,
    separate_of_check (by decide +kernel) (by decide +kernel), by decide +kernel⟩

/-- P4, second variant: the machine on a platform that backs only 0x2000 to 0x2007 for writes. -/
def narrowOut : State := { narrow with cfg := { Config.default with writable := [⟨0x2000, 8⟩] } }

/-- P4, second variant: the sixth access, a write, is refused. -/
theorem witness_RefusedAccessHaltsThere_write :
    kernelOf .convV = some .conv32 ∧ narrowOut.codeLatched .conv32 ∧ narrowOut.cfg.wf ∧ narrowOut.resetAfter = none ∧
    narrowOut.tapsWritten .conv32 ∧
    narrowOut.accesses .conv32 = (narrowOut.accesses .conv32).take 5 ++ wr 0x2008 4 :: (narrowOut.accesses .conv32).drop 6 ∧
    narrowOut.grants ((narrowOut.accesses .conv32).take 5) ∧ (wr 0x2008 4).answered narrowOut.cfg = true ∧
    (wr 0x2008 4).backed narrowOut.cfg = false ∧ narrowOut.separate .conv32 ∧
    aOut narrowOut.params 0 7 ∈ writtenBytes ((narrowOut.accesses .conv32).take 5) :=
  ⟨rfl, by decide, by decide, rfl, by decide, by decide +kernel, by decide +kernel, by decide +kernel, by decide +kernel,
    separate_of_check (by decide +kernel) (by decide +kernel), by decide +kernel⟩

/-- Four accesses in, the first block is written and the second is not. -/
theorem witness_ResetAbandonsTheOperation :
    kernelOf .convV = some .conv32 ∧ (interrupted 4).codeLatched .conv32 ∧ (interrupted 4).cfg.wf ∧
    (interrupted 4).tapsWritten .conv32 ∧
    (interrupted 4).accesses .conv32 =
      ((interrupted 4).accesses .conv32).take 4 ++ rd 0x1003 1 :: ((interrupted 4).accesses .conv32).drop 5 ∧
    (interrupted 4).grants (((interrupted 4).accesses .conv32).take 4) ∧
    (interrupted 4).resetAfter = some (((interrupted 4).accesses .conv32).take 4).length ∧
    (interrupted 4).separate .conv32 ∧ aOut (interrupted 4).params 0 3 ∈ writtenBytes (((interrupted 4).accesses .conv32).take 4) ∧
    aOut (interrupted 4).params 0 4 ∉ writtenBytes (((interrupted 4).accesses .conv32).take 4) :=
  ⟨rfl, by decide, by decide, by decide, by decide +kernel, by decide +kernel, by decide +kernel,
    separate_of_check (by decide +kernel) (by decide +kernel), by decide +kernel, by decide +kernel⟩

/-- The blur on a platform that never answers at 0x1005. -/
def mute : State := { blur with cfg := { Config.default with silent := [⟨0x1005, 1⟩] } }

theorem witness_UnansweredAccessSticks :
    kernelOf .convV = some .conv32 ∧ mute.codeLatched .conv32 ∧ mute.cfg.wf ∧ mute.resetAfter = none ∧
    mute.tapsWritten .conv32 ∧
    mute.accesses .conv32 = (mute.accesses .conv32).take 6 ++ rd 0x1005 1 :: (mute.accesses .conv32).drop 7 ∧
    mute.grants ((mute.accesses .conv32).take 6) ∧ (rd 0x1005 1).answered mute.cfg = false := by
  and_intros <;> decide +kernel

/-- P1: 0x1005 is the last byte `CONV.V` reads, 0x100A the last one `CONV.F` reads. -/
theorem witness_ReadFootprint :
    Kernel.conv32 ≠ .conv16 ∧ 0x1005#32 ∈ readBytes (blur.accesses .conv32) ∧
    0x1006#32 ∉ readBytes (blur.accesses .conv32) ∧ blur.cfg.load8 = 16 ∧ blur.cfg.load2 = 8 ∧ blur.cfg.load1 = 4 ∧
    0x100A#32 ∈ readBytes (blur.accesses .conv16) ∧ 0x100B#32 ∉ readBytes (blur.accesses .conv16) := by
  and_intros <;> decide +kernel

theorem witness_LaneCountChangesNoByte :
    blur.cfg.wf ∧ blur.resetAfter = none ∧ blur.tapsWritten .conv32 ∧ blur.separate .conv32 ∧
    State.grants { blur with cap := ⟨true, 0#3⟩ } (State.accesses { blur with cap := ⟨true, 0#3⟩ } .conv32) ∧
    State.grants { blur with cap := ⟨true, 6#3⟩ } (State.accesses { blur with cap := ⟨true, 6#3⟩ } .conv32) :=
  ⟨by decide, rfl, by decide, separate_of_check (by decide +kernel) (by decide +kernel), by decide +kernel, by decide +kernel⟩

theorem witness_PoliciesAgreeUnderInv16 :
    blur.cfg.wf ∧ blur.cap.valid = true ∧ blur.resetAfter = none ∧ blur.tapsWritten .conv32 ∧
    blur.grants (blur.accesses .conv32) ∧ blur.grants (blur.accesses .conv16) ∧ blur.separate .conv32 ∧
    blur.inv16 (bias blur.params.e) :=
  ⟨by decide, rfl, rfl, by decide, by decide +kernel, by decide +kernel, separate_of_check (by decide +kernel) (by decide +kernel),
    by decide +kernel⟩

theorem witness_MergeStrategyIsUnobservable :
    (∃ t, exec .convV blur = .next t) ∧ (∃ f, exec .convV mute = .fault f) := ⟨⟨_, rfl⟩, ⟨_, rfl⟩⟩

theorem witness_ConvolutionsIgnoreWidthAndConvFIgnoresCap :
    (kernelOf .convF).isSome = true ∧ (∃ t, exec .convF blur = .next t) := ⟨rfl, ⟨_, rfl⟩⟩

/-- The reduction again, with other values in everything it does not read. -/
def otherMeans : State :=
  { means with
    params := { means.params with outStride := 9, rectLeft := 8, rectTop := 7, rectWidth := 6, rectHeight := 5, outOffset := 4, exponent := 3 }
    cap := ⟨true, 5#3⟩
    taps := means.taps.map fun x => { x with off := 77, offWritten := true }
    cmds := [0#64] }

theorem witness_ReductionReadsOnlyItsOperands :
    (otherMeans.cfg = means.cfg ∧ otherMeans.mem = means.mem ∧ otherMeans.bus = means.bus ∧
      otherMeans.fault = means.fault ∧ otherMeans.resetAfter = means.resetAfter ∧ otherMeans.free = means.free ∧
      otherMeans.params.outBase = means.params.outBase ∧ otherMeans.params.inBase = means.params.inBase ∧
      otherMeans.params.inStride = means.params.inStride ∧ otherMeans.params.ne = means.params.ne ∧
      otherMeans.params.nnz = means.params.nnz) ∧
    (∀ j : Nat, (otherMeans.tapAt j).mant = (means.tapAt j).mant ∧
      (otherMeans.tapAt j).mantWritten = (means.tapAt j).mantWritten) ∧
    (∃ t, exec .redv256 means = .next t) := by
  refine ⟨by decide, fun j => ?_, ⟨_, rfl⟩⟩
  match j with
  | 0 => exact ⟨rfl, rfl⟩
  | 1 => exact ⟨rfl, rfl⟩
  | _ + 2 => exact ⟨rfl, rfl⟩

/-- Both ways of having nothing to do: heights 0 and -1, and no columns. -/
theorem witness_EmptyOperationTouchesNothing :
    kernelOf .convV = some .conv32 ∧ blur.codeLatched .conv32 ∧
    (Kernel.conv32 ≠ .redv ∧ State.reset.params.rectHeight.toInt ≤ 0 ∧ (0xFFFFFFFF#32).toInt ≤ 0) ∧
    State.reset.params.ne = 0#32 := by
  and_intros <;> decide +kernel

/-- S10: no taps, `e` = 5. -/
def noTaps : State := { blur with params := { blur.params with nnz := 0, exponent := 5, outOffset := 77 } }

theorem witness_NoTapsWriteTheClampedOffset :
    kernelOf .convV = some .conv32 ∧ noTaps.codeLatched .conv32 ∧ noTaps.cfg.wf ∧ noTaps.resetAfter = none ∧
    noTaps.params.exponent.toNat ≤ 31 ∧ noTaps.params.nnz = 0#32 ∧ noTaps.grants (noTaps.accesses .conv32) ∧
    noTaps.outputs .conv32 0x2004#32 := by
  refine ⟨by decide, by decide, by decide, rfl, by decide, rfl, by decide +kernel, ?_⟩
  exact ⟨noTaps.params.rowY 0, List.mem_map_of_mem (by decide), 4, by decide, by decide⟩

/-- The blur with more bytes of memory written, none of them a source byte. -/
def moreMemory : State := { blur with mem := row 0 [1, 2, 3] ++ blur.mem ++ row 0x3000 [9, 9] }

theorem witness_ResultsDependOnlyOnSourceBytes :
    kernelOf .convF = some .conv16 ∧ blur.codeLatched .conv16 ∧ blur.cfg.wf ∧ blur.resetAfter = none ∧
    moreMemory.resetAfter = none ∧ moreMemory.cfg = blur.cfg ∧ moreMemory.params = blur.params ∧
    moreMemory.cap = blur.cap ∧ moreMemory.taps = blur.taps ∧ blur.tapsWritten .conv16 ∧
    blur.grants (blur.accesses .conv16) ∧ blur.separate .conv16 ∧
    (∀ y ∈ blur.rowsOf .conv16, ∀ x < blur.params.columns, ∀ j < blur.params.tapCount,
      moreMemory.byteAt (blur.srcAddr .conv16 y x j) = blur.byteAt (blur.srcAddr .conv16 y x j)) := by
  have h : everyColumn blur .conv16 (fun y x => (List.range blur.params.tapCount).all fun j =>
      decide (moreMemory.byteAt (blur.srcAddr .conv16 y x j) = blur.byteAt (blur.srcAddr .conv16 y x j))) = true := by
    decide +kernel
  simp only [everyColumn_iff, List.all_eq_true, List.mem_range, decide_eq_true_eq] at h
  exact ⟨rfl, by decide, by decide, rfl, rfl, rfl, rfl, rfl, rfl, by decide, by decide +kernel,
    separate_of_check (by decide +kernel) (by decide +kernel), h⟩

/-- The same for CONV.V. -/
theorem witness_ResultsDependOnlyOnSourceBytes_convV :
    kernelOf .convV = some .conv32 ∧ blur.codeLatched .conv32 ∧ blur.tapsWritten .conv32 ∧
    blur.grants (blur.accesses .conv32) ∧ blur.separate .conv32 ∧
    (∀ y ∈ blur.rowsOf .conv32, ∀ x < blur.params.columns, ∀ j < blur.params.tapCount,
      moreMemory.byteAt (blur.srcAddr .conv32 y x j) = blur.byteAt (blur.srcAddr .conv32 y x j)) := by
  have h : everyColumn blur .conv32 (fun y x => (List.range blur.params.tapCount).all fun j =>
      decide (moreMemory.byteAt (blur.srcAddr .conv32 y x j) = blur.byteAt (blur.srcAddr .conv32 y x j))) = true := by
    decide +kernel
  simp only [everyColumn_iff, List.all_eq_true, List.mem_range, decide_eq_true_eq] at h
  exact ⟨rfl, by decide, by decide, by decide +kernel, separate_of_check (by decide +kernel) (by decide +kernel), h⟩

/-- The reduction with one more byte of memory written, no source byte. -/
def moreMeans : State := { means with mem := means.mem ++ row 0x6000 [9] }

/-- The same for the reduction. -/
theorem witness_ResultsDependOnlyOnSourceBytes_redv :
    kernelOf .redv256 = some .redv ∧ means.codeLatched .redv ∧ means.cfg.wf ∧ means.resetAfter = none ∧
    moreMeans.resetAfter = none ∧ moreMeans.cfg = means.cfg ∧ moreMeans.params = means.params ∧
    moreMeans.cap = means.cap ∧ moreMeans.taps = means.taps ∧ means.tapsWritten .redv ∧
    means.grants (means.accesses .redv) ∧ means.separate .redv ∧
    (∀ y ∈ means.rowsOf .redv, ∀ x < means.params.columns, ∀ j < means.params.tapCount,
      moreMeans.byteAt (means.srcAddr .redv y x j) = means.byteAt (means.srcAddr .redv y x j)) := by
  have h : everyColumn means .redv (fun y x => (List.range means.params.tapCount).all fun j =>
      decide (moreMeans.byteAt (means.srcAddr .redv y x j) = means.byteAt (means.srcAddr .redv y x j))) = true := by
    decide +kernel
  simp only [everyColumn_iff, List.all_eq_true, List.mem_range, decide_eq_true_eq] at h
  exact ⟨rfl, by decide, by decide, rfl, rfl, rfl, rfl, rfl, rfl, by decide, by decide +kernel,
    separate_of_check (by decide +kernel) (by decide +kernel), h⟩

theorem witness_ShiftRoundsHalfUp : 1 ≤ 1 := le_rfl

/-- One tap `2^e` at offset 0, and the sample `b`. -/
def identity (e b : Nat) : State :=
  machine { Params.reset with inBase := 0x1000, nnz := 1, exponent := BitVec.ofNat 32 e } ⟨true, 0#3⟩ [tap 0 (2 ^ e)]
    (row 0x1000 [b])

/-- L2: both sides of the boundary at `e` = 8, and the ends of the ranges of `e`. -/
theorem witness_IdentityConvolution :
    ((identity 7 255).params.tapCount = 1 ∧ (identity 7 255).mantAt 0 = 2 ^ (identity 7 255).params.e ∧
      (identity 7 255).offAt 0 = 0#32 ∧ (identity 7 255).params.outOffset = 0#32 ∧ 1 ≤ (identity 7 255).params.e ∧
      (identity 7 255).params.e ≤ 7) ∧
    ((identity 14 255).mantAt 0 = 2 ^ (identity 14 255).params.e ∧ (identity 14 255).params.e ≤ 14) ∧
    ((identity 8 127).mantAt 0 = 2 ^ (identity 8 127).params.e ∧ 8 ≤ (identity 8 127).params.e ∧
      ((identity 8 127).byteAt (aIn (identity 8 127).params 0 0)).toNat < 2 ^ (15 - (identity 8 127).params.e)) ∧
    ((identity 8 128).mantAt 0 = 2 ^ (identity 8 128).params.e ∧ 8 ≤ (identity 8 128).params.e ∧
      2 ^ (15 - (identity 8 128).params.e) ≤ ((identity 8 128).byteAt (aIn (identity 8 128).params 0 0)).toNat) := by
  and_intros <;> decide +kernel

theorem witness_IdentityReduction :
    (identity 12 200).cfg.wf ∧ (identity 12 200).params.tapCount = 1 ∧
    (identity 12 200).mantAt 0 = 2 ^ (identity 12 200).cfg.interpolateShift := by
  and_intros <;> decide +kernel

theorem witness_AccumulatorsDoNotWrapUnderInv32 :
    0 ≤ bias blur.params.e ∧ blur.inv32 (bias blur.params.e) ∧ blur.cfg.wf ∧
    State.reset.params.tapCount ≤ 256 ∧ (256#32).toNat ≤ 256 := by
  and_intros <;> decide +kernel

/-- A legal word, an illegal word of each kind, a first SETCAP, a reset, a step that raises the halt, a halted step. -/
theorem witness_StatusPortFollowsTheEngine :
    ((presented 0x0200000800000005#64).takes 0x0200000800000005#64 ∧
      decode Config.default 0x0200000800000005#64 = .legal (.setp .ne 5#32)) ∧
    ((presented 0x0600000000000000#64).takes 0x0600000000000000#64 ∧
      decode Config.default 0x0600000000000000#64 = .illegal .illegalCommand) ∧
    ((presented 0x0200000900000101#64).takes 0x0200000900000101#64 ∧
      decode Config.default 0x0200000900000101#64 = .illegal .illegalOperand) ∧
    ((presented 0x0100000000000006#64).takes 0x0100000000000006#64 ∧
      decode Config.default 0x0100000000000006#64 = .legal (.setcap 6#3) ∧
      (presented 0x0100000000000006#64).status.capValid = false) ∧
    (interrupted 0).resetAfter = some 0 ∧
    (∃ t, step (presented 0x0600000000000000#64) = .next t ∧ t.status.halted = true) ∧
    (∃ t, step (presented 0x0100000000000006#64) = .next t ∧ t.status.capValid = true) ∧
    (∃ t, step (State.reset.raise .busRead 0#64) = .next t) ∧ blur.status.capValid = true ∧ (∃ t, step blur = .next t) :=
  ⟨by decide, by decide, by decide, by decide, rfl, ⟨_, rfl, by decide⟩, ⟨_, rfl, by decide⟩, ⟨_, rfl⟩, rfl, ⟨_, rfl⟩⟩

theorem witness_EveryStepKeepsTheInvariant : (presented 0x0200000800000005#64).Inv ∧
    ∃ t, step (presented 0x0200000800000005#64) = .next t :=
  ⟨⟨by decide, rfl, List.length_replicate, by decide, by decide, by decide, fun _ => rfl, fun _ => rfl, by decide, rfl⟩,
    ⟨_, rfl⟩⟩

end Sys2Proof.Tests
end

section
/-! PROOFS. The scope of a step (spec/00_scope.md R8): which steps are refused, and that a command, run whole, ends in a
next state or at a memory port that never answers (spec/93_implementation_defined.md U12). -/

namespace Sys2Proof.Machine

/-- An early end is a next state (a bus fault, a reset) or a silent port, never a refusal. -/
theorem EarlyEnd.next_or_silent {u : State} {o : Host.Outcome State Fault Refusal} (h : EarlyEnd u o) :
    (∃ t, o = .next t) ∨ o = .fault .portNeverAnswers := by
  cases h with
  | busFault x _ _ => exact .inl ⟨_, rfl⟩
  | reset _ => exact .inl ⟨_, rfl⟩
  | silent x _ => exact .inr rfl

theorem OperationEnds.next_or_silent {A : Addr → Prop} {s : State} {o : Host.Outcome State Fault Refusal}
    (h : OperationEnds A s o) : (∃ t, o = .next t) ∨ o = .fault .portNeverAnswers := by
  obtain ⟨u, -, rfl | he⟩ := h
  · exact .inl ⟨u.retire, rfl⟩
  · exact he.next_or_silent

theorem exec_setup_next {i : Instr} (hk : kernelOf i = none) (s : State) : ∃ t, exec i s = .next t := by
  obtain ⟨u, hu, -⟩ | ⟨l, -, -, -, hr⟩ := exec_setup_ends hk s
  · exact ⟨_, hu⟩
  · exact ⟨_, hr⟩

theorem exec_operation_next_or_silent {i : Instr} {k : Kernel} (hk : kernelOf i = some k) (s : State) :
    (∃ t, exec i s = .next t) ∨ exec i s = .fault .portNeverAnswers := by
  obtain ho | ⟨-, -, hc⟩ := exec_operation_ends hk s
  · exact ho.next_or_silent
  · exact .inl ⟨_, hc⟩

/-- Only an operation command can meet a silent port: a setup command makes no access (R199). -/
theorem exec_next_or_silent (i : Instr) (s : State) :
    (∃ t, exec i s = .next t) ∨ ((kernelOf i).isSome = true ∧ exec i s = .fault .portNeverAnswers) := by
  cases hk : kernelOf i with
  | none => exact .inl (exec_setup_next hk s)
  | some k => exact (exec_operation_next_or_silent hk s).imp_right fun hf => ⟨rfl, hf⟩

theorem exec_ne_refused (i : Instr) (s : State) (r : Refusal) : exec i s ≠ .refused r := by
  obtain ⟨t, ht⟩ | ⟨-, hf⟩ := exec_next_or_silent i s
  · simp [ht]
  · simp [hf]

/-- The second case of `step_cases` is the only refusal; in each other case the step is a next state or a command's own
end, and the state is not in the middle of an operation or the reset input is asserted. -/
theorem step_refused_iff (s : State) (r : Refusal) :
    step s = .refused r ↔ s.seq.busy = true ∧ s.resetAfter ≠ some 0 ∧ r = .operationInProgress := by
  obtain ⟨hr, he⟩ | ⟨hr, hb, he⟩ | ⟨-, hb, -, he⟩ | ⟨w, e, ⟨-, hb, -, -⟩, -, he⟩ | ⟨w, i, ⟨-, hb, -, -⟩, -, he⟩ :=
    step_cases s
  · simp [he, hr]
  · simp [he, hr, hb, eq_comm]
  · simp [he, hb]
  · simp [he, hb]
  · simp [he, hb, exec_ne_refused]

/-- Settles O13: from everything a step can do (`step_cases`) and every way a command ends (`exec_setup_ends`,
`exec_operation_ends`). -/
theorem onlyABusyStepIsRefused : Obligations.OnlyABusyStepIsRefused :=
  ⟨step_refused_iff, exec_next_or_silent⟩

end Sys2Proof.Machine
end

section
/-! PROOFS. What a step can do to the whole state, said once: what each command writes, and the three ways it ends. -/

namespace Sys2Proof.Machine

/-! ### What a command writes -/

theorem decode_wf {cfg : Config} {w : CmdWord} {i : Instr} (h : decode cfg w = .legal i) : i.wf cfg = true := by
  obtain ⟨c, -, hb, -, ho⟩ := decode_legal h
  obtain ⟨-, -, -, hwf⟩ := decodeOperands_legal hb ho
  exact hwf

/-- `u` is `s` with what the command `i` may write: each clause names the only commands that change its part (R22, R24,
R25, R50). -/
structure Wrote (i : Instr) (s u : State) : Prop where
  cfg : u.cfg = s.cfg
  cmds : u.cmds = s.cmds
  fault : u.fault = s.fault
  reset : s.resetAfter = none → u.resetAfter = none
  params : u.params = s.params ∨ ∃ k v, i = .setp k v ∧ u.params = s.params.set k v
  cap : u.cap = s.cap ∨ ∃ l, i = .setcap l ∧ s.cap.valid = false ∧ u.cap = { valid := true, logn := l }
  taps : u.taps = s.taps ∨ i.command = .setoff ∨ i.command = .setmant ∨ i.command = .setmant2
  tapsLength : u.taps.length = s.taps.length
  port : (u.bus = s.bus ∧ u.mem = s.mem) ∨ (kernelOf i).isSome = true
  wf : Memory.wf s.mem = true → Memory.wf u.mem = true

/-- The ways the command `i` ends in a next state, from a state `u`: it retires, it raises a fault, or the reset input
abandons it. -/
inductive CommandEnd (i : Instr) (u : State) : State → Prop where
  | retires : CommandEnd i u u.retire
  | raises (c : Cause) (v : BitVec 64)
      (h : (kernelOf i).isSome = true → c = .capUnset ∨ c = .busRead ∨ c = .busWrite) : CommandEnd i u (u.raise c v)
  | resets (h : u.resetAfter = some 0) : CommandEnd i u u.engineReset

theorem Frame.wrote {A : Addr → Prop} {s u : State} {i : Instr} {k : Kernel} (hk : kernelOf i = some k)
    (h : Frame A s u) : Wrote i s u where
  cfg := h.cfg
  cmds := h.cmds
  fault := h.fault
  reset := h.reset
  params := .inl h.params
  cap := .inl h.cap
  taps := .inl h.taps
  tapsLength := by rw [h.taps]
  port := .inr (by rw [hk]; rfl)
  wf := h.wf

theorem EarlyEnd.commandEnd {u t : State} (h : EarlyEnd u (.next t)) (i : Instr) : CommandEnd i u t := by
  cases h with
  | busFault x _ _ => exact .raises _ _ fun _ => by cases x.kind <;> simp [busCause]
  | reset h => exact .resets h

theorem exec_operation_next {i : Instr} {k : Kernel} {s t : State} (hk : kernelOf i = some k)
    (h : exec i s = .next t) : ∃ u, Frame (s.outputs k) s u ∧ CommandEnd i u t := by
  obtain ⟨u, hu, hr | he⟩ | ⟨-, -, hc⟩ := exec_operation_ends hk s
  · obtain rfl : t = u.retire := by simpa [h] using hr
    exact ⟨u, hu, .retires⟩
  · exact ⟨u, hu, EarlyEnd.commandEnd (h ▸ he) i⟩
  · obtain rfl : t = s.raise .capUnset (encode .convV) := by simpa [h] using hc
    exact ⟨s, Frame.refl _ s, .raises _ _ fun _ => .inl rfl⟩

theorem exec_setup_next_wrote {i : Instr} {s t : State} (hk : kernelOf i = none) (h : exec i s = .next t) :
    ∃ u, Wrote i s u ∧ CommandEnd i u t := by
  cases i <;> simp only [kernelOf, reduceCtorEq] at hk
  case setcap l =>
    simp only [exec, execSetcap] at h
    split at h
    · cases h
      exact ⟨_, by constructor <;> simp_all, .retires⟩
    · split at h <;> cases h
      · exact ⟨s, by constructor <;> simp, .retires⟩
      · exact ⟨s, by constructor <;> simp, .raises _ _ fun h => by cases h⟩
  all_goals
    cases h
    exact ⟨_, by constructor <;> simp [Instr.command], .retires⟩

theorem exec_next {i : Instr} {s t : State} (h : exec i s = .next t) : ∃ u, Wrote i s u ∧ CommandEnd i u t := by
  cases hk : kernelOf i with
  | none => exact exec_setup_next_wrote hk h
  | some k =>
    obtain ⟨u, hu, he⟩ := exec_operation_next hk h
    exact ⟨u, hu.wrote hk, he⟩

/-- Every next state of a step: the reset state, the same state, the halt on an illegal word, or a command's end. -/
theorem step_next {s t : State} (h : step s = .next t) :
    (s.resetAfter = some 0 ∧ t = s.engineReset) ∨
    (s.seq.busy = false ∧ t = s) ∨
    (∃ w e, s.takes w ∧ decode s.cfg w = .illegal e ∧ t = s.takeWord.raise (causeOfDecode e) w) ∨
    (∃ w i u, s.takes w ∧ decode s.cfg w = .legal i ∧ Wrote i (s.accept i) u ∧ CommandEnd i u t) := by
  obtain ⟨hr, he⟩ | ⟨-, -, he⟩ | ⟨-, hb, -, he⟩ | ⟨w, e, ht, hd, he⟩ | ⟨w, i, ht, hd, he⟩ := step_cases s
  · exact .inl ⟨hr, by simpa [h] using he⟩
  · simp [h] at he
  · exact .inr (.inl ⟨hb, by simpa [h] using he⟩)
  · exact .inr (.inr (.inl ⟨w, e, ht, hd, by simpa [h] using he⟩))
  · obtain ⟨u, hu, hend⟩ := exec_next (he ▸ h)
    exact .inr (.inr (.inr ⟨w, i, u, ht, hd, hu, hend⟩))

/-- A reset inside a command was pending when the command began. -/
theorem Wrote.reset_pending {i : Instr} {s u : State} (h : Wrote i s u) (hr : u.resetAfter = some 0) :
    s.resetAfter.isSome = true := by
  by_contra hn
  have hnone : u.resetAfter = none := h.reset (by simpa using hn)
  simp [hr] at hnone

theorem CommandEnd.busy {i : Instr} {u t : State} (h : CommandEnd i u t) : t.seq.busy = false := by
  cases h <;> rfl

/-- With the reset input released a command's end touches the fault record and `SEQ.BUSY` only (R81, R218). -/
theorem CommandEnd.released {i : Instr} {u t : State} (h : CommandEnd i u t) (hr : u.resetAfter = none) :
    ∃ f, t = { u with fault := f, seq := { u.seq with busy := false } } := by
  cases h with
  | retires => exact ⟨u.fault, rfl⟩
  | raises c v _ => exact ⟨{ halted := true, cause := c.code, info := v }, rfl⟩
  | resets h => simp [hr] at h

end Sys2Proof.Machine
end

section
/-! PROOFS. The invariant (spec/10_state.md R24, R27, R37; spec/44_dispatch_and_setup.md R195). In the middle of a command it
holds but for `SEQ.BUSY`, that is, of `u.retire`. -/

namespace Sys2Proof.Machine

theorem Params.nnz_set {cfg : Config} {k : Param} {v : Word} {p : Params} (h : k.legal cfg v = true)
    (hp : p.nnz.toNat ≤ cfg.tapsMax) : (p.set k v).nnz.toNat ≤ cfg.tapsMax := by
  cases k
  case nnz => simpa [Param.legal, Params.set] using h
  all_goals exact hp

theorem Params.exponent_set {cfg : Config} {k : Param} {v : Word} {p : Params} (h : k.legal cfg v = true)
    (hp : p.exponent.toNat ≤ 31) : (p.set k v).exponent.toNat ≤ 31 := by
  cases k
  case exponent => simpa [Param.legal, Params.set] using h
  all_goals exact hp

theorem State.Inv.raise {u : State} (h : u.retire.Inv) (c : Cause) (v : BitVec 64) : (u.raise c v).Inv :=
  { h with
    fault_empty := by simp
    fault_cause := fun _ => c.code_range }

/-- The reset values meet every limit (R37). -/
theorem State.Inv.engineReset {u : State} (hcfg : u.cfg.wf) (hmem : Memory.wf u.mem = true) : u.engineReset.Inv where
  cfg_wf := hcfg
  mem_wf := hmem
  taps_length := List.length_replicate
  nnz_le := Nat.zero_le _
  exponent_le := Nat.zero_le _
  logn_le := Nat.zero_le _
  cap_unset _ := rfl
  fault_empty _ := rfl
  fault_cause := nofun
  idle := rfl

theorem CommandEnd.keeps_inv {i : Instr} {u t : State} (h : CommandEnd i u t) (hu : u.retire.Inv) : t.Inv := by
  cases h with
  | retires => exact hu
  | raises c v _ => exact hu.raise c v
  | resets _ => exact State.Inv.engineReset hu.cfg_wf hu.mem_wf

/-- What a legal command writes is inside the limits the decoder checks (R85, R195). -/
theorem Wrote.keeps_inv {i : Instr} {s u : State} (h : Wrote i s u) (hwf : i.wf s.cfg = true) (hs : s.retire.Inv) :
    u.retire.Inv := by
  obtain ⟨hcfg, -, hfault, -, hparams, hcap, -, hlen, -, hmem⟩ := h
  have hlimits : u.params.nnz.toNat ≤ s.cfg.tapsMax ∧ u.params.exponent.toNat ≤ 31 := by
    obtain hp | ⟨k, v, rfl, hp⟩ := hparams <;> rw [hp]
    · exact ⟨hs.nnz_le, hs.exponent_le⟩
    · exact ⟨Params.nnz_set hwf hs.nnz_le, Params.exponent_set hwf hs.exponent_le⟩
  have hcode : u.cap.logn.toNat ≤ maxLogn ∧ (u.cap.valid = false → u.cap.logn = 0#3) := by
    obtain hc | ⟨l, rfl, -, hc⟩ := hcap <;> rw [hc]
    · exact ⟨hs.logn_le, hs.cap_unset⟩
    · exact ⟨by simpa [Instr.wf] using hwf, nofun⟩
  constructor <;> simp only [State.retire_cfg, State.retire_params, State.retire_cap, State.retire_taps,
    State.retire_fault, State.retire_mem, State.retire_seq, hcfg, hfault, hlen]
  case cfg_wf => exact hs.cfg_wf
  case mem_wf => exact hmem hs.mem_wf
  case taps_length => exact hs.taps_length
  case nnz_le => exact hlimits.1
  case exponent_le => exact hlimits.2
  case logn_le => exact hcode.1
  case cap_unset => exact hcode.2
  case fault_empty => exact hs.fault_empty
  case fault_cause => exact hs.fault_cause

/-- Settles O52: from everything a step can do (`step_next`); a command begins with the invariant but for `SEQ.BUSY`, writes
inside the limits, and ends idle. -/
theorem everyStepKeepsTheInvariant : Obligations.EveryStepKeepsTheInvariant := by
  intro s t hs h
  obtain ⟨-, rfl⟩ | ⟨-, rfl⟩ | ⟨w, e, -, -, rfl⟩ | ⟨w, i, u, -, hd, hw, he⟩ := step_next h
  · exact State.Inv.engineReset hs.cfg_wf hs.mem_wf
  · exact hs
  · exact State.Inv.raise (u := s.takeWord) { hs with idle := rfl } _ _
  · exact he.keeps_inv (hw.keeps_inv (decode_wf hd) { hs with idle := rfl })

/-- Settles O51: the state after reset is its own reset, on the default parameters and an empty memory. -/
theorem invariantHoldsAtReset : Obligations.InvariantHoldsAtReset :=
  State.Inv.engineReset (u := State.reset) (by decide) rfl

end Sys2Proof.Machine
end

section
/-! PROOFS. Who writes what (spec/10_state.md R22, R24, R25, R36; spec/20_memory.md R50; spec/40_tap_model_and_primitives.md
R109). -/

namespace Sys2Proof.Machine

/-- Settles O21: a step that takes no legal word writes none of this, and a command writes its own part only (`Wrote`). -/
theorem eachKindOfStateHasItsWriters : Obligations.EachKindOfStateHasItsWriters := by
  intro s t h hr
  obtain ⟨hr', -⟩ | ⟨-, rfl⟩ | ⟨w, e, -, -, rfl⟩ | ⟨w, i, u, ht, hd, hw, he⟩ := step_next h
  · simp [hr] at hr'
  · simp [hr]
  · simp [hr]
  · have hur : u.resetAfter = none := hw.reset hr
    obtain ⟨f, rfl⟩ := he.released hur
    refine ⟨hw.cfg, hur, .inr hw.cmds, fun hp => ?_, fun hc => ?_, fun hp => ?_, fun hp => ?_⟩
    · obtain ⟨k, v, rfl, hk⟩ := hw.params.resolve_left hp
      exact ⟨w, k, v, ht, hd, hk⟩
    · obtain ⟨l, rfl, hv, hl⟩ := hw.cap.resolve_left hc
      exact ⟨w, l, ht, hd, hv, hl⟩
    · exact ⟨w, i, ht, hd, hw.taps.resolve_left hp⟩
    · exact ⟨w, i, ht, hd, hw.port.resolve_left fun hsame => hp.elim (· hsame.1) (· hsame.2)⟩

/-- `CAP` after a step: kept, cleared by a reset, or latched by the first SETCAP (R24). -/
theorem step_cap {s t : State} (h : step s = .next t) :
    t.cap = s.cap ∨ (s.resetAfter.isSome = true ∧ t.cap = Cap.reset) ∨
    (∃ w l, s.takes w ∧ decode s.cfg w = .legal (.setcap l) ∧ s.cap.valid = false ∧
      t.cap = { valid := true, logn := l }) := by
  obtain ⟨hr, rfl⟩ | ⟨-, rfl⟩ | ⟨w, e, -, -, rfl⟩ | ⟨w, i, u, ht, hd, hw, he⟩ := step_next h
  · exact .inr (.inl ⟨by simp [hr], rfl⟩)
  · exact .inl rfl
  · exact .inl rfl
  · have hu : u.cap = s.cap ∨ (∃ w l, s.takes w ∧ decode s.cfg w = .legal (.setcap l) ∧ s.cap.valid = false ∧
        u.cap = { valid := true, logn := l }) :=
      hw.cap.imp_right fun ⟨l, hi, hv, hl⟩ => ⟨w, l, ht, hi ▸ hd, hv, hl⟩
    cases he with
    | retires => exact hu.imp_right .inr
    | raises c v _ => exact hu.imp_right .inr
    | resets hr => exact .inr (.inl ⟨hw.reset_pending hr, rfl⟩)

/-- Settles O22: the third case of `step_cap` needs a `CAP` that is not valid. -/
theorem capIsWriteOnce : Obligations.CapIsWriteOnce := by
  intro s t h hv
  obtain hc | ⟨hr, -⟩ | ⟨w, l, -, -, hn, -⟩ := step_cap h
  · exact .inl hc
  · exact .inr hr
  · simp [hv] at hn

/-- Settles O23: an operation ends from a state inside the frame of its destinations (`exec_operation_next`). -/
theorem operationFrame : Obligations.OperationFrame := by
  intro s t i k hk hr h
  obtain ⟨u, hu, he⟩ := exec_operation_next hk h
  have hur : u.resetAfter = none := hu.reset hr
  have hfault : t.fault = s.fault ∨
      (t.fault.halted = true ∧ (t.fault.cause = 3#4 ∨ t.fault.cause = 5#4 ∨ t.fault.cause = 6#4)) := by
    cases he with
    | retires => exact .inl hu.fault
    | raises c v hc =>
      obtain rfl | rfl | rfl := hc (by simp [hk])
      · exact .inr ⟨rfl, .inl rfl⟩
      · exact .inr ⟨rfl, .inr (.inl rfl)⟩
      · exact .inr ⟨rfl, .inr (.inr rfl)⟩
    | resets h0 => simp [hur] at h0
  obtain ⟨f, rfl⟩ := he.released hur
  exact ⟨hu.cfg, hu.params, hu.cap, hu.taps, hu.cmds, hur, hu.op, rfl, hfault,
    fun a ha => (State.byteAt_congr rfl a).trans (hu.bytes a ha)⟩

end Sys2Proof.Machine
end

section
/-! PROOFS. Reset and the status port (spec/10_state.md R28, R37; spec/70_reset_and_hazards.md R240, R242). -/

namespace Sys2Proof.Machine

/-! ### Reset -/

theorem step_of_reset {s : State} (h : s.resetAfter = some 0) : step s = .next s.engineReset := by
  simp [step, arrival, h]

theorem Params.get_reset (k : Param) : Params.reset.get k = 0#32 := by cases k <;> rfl

/-- A table of unwritten entries has no written half, inside its length or past it. -/
theorem State.tapAt_of_replicate {s : State} {n : Nat} (h : s.taps = List.replicate n Tap.unwritten) (i : Nat) :
    s.tapAt i = Tap.unwritten := by
  rw [State.tapAt, h, List.getElem?_replicate]
  split <;> rfl

/-- Settles O12: `State.engineReset` field by field. -/
theorem resetRestoresTheResetValues : Obligations.ResetRestoresTheResetValues := by
  have htaps : ∀ {s : State} {n : Nat}, s.taps = List.replicate n Tap.unwritten →
      ∀ i : Nat, (s.tapAt i).offWritten = false ∧ (s.tapAt i).mantWritten = false := by
    intro s n h i
    simp [State.tapAt_of_replicate h, Tap.unwritten]
  refine ⟨fun s hr => ⟨s.engineReset, step_of_reset hr, ?_⟩, ?_⟩
  · exact ⟨Params.get_reset, rfl, rfl, rfl, rfl, List.length_replicate, htaps rfl, rfl, rfl, rfl, rfl⟩
  · exact ⟨Params.get_reset, rfl, rfl, rfl, htaps rfl⟩

/-! ### The status port -/

theorem step_of_legal {s : State} {w : CmdWord} {i : Instr} (ht : s.takes w) (hd : decode s.cfg w = .legal i) :
    step s = exec i (s.accept i) := by
  simp [step, arrival_of_takes ht, arrivalOfWord, hd]

theorem step_of_illegal {s : State} {w : CmdWord} {e : DecodeError} (ht : s.takes w)
    (hd : decode s.cfg w = .illegal e) : step s = .next (s.takeWord.raise (causeOfDecode e) w) := by
  simp [step, arrival_of_takes ht, arrivalOfWord, hd]

/-- The first SETCAP latches its code (R191). -/
theorem exec_setcap_first {s : State} (l : BitVec 3) (h : s.cap.valid = false) :
    exec (.setcap l) s = .next { s with cap := { valid := true, logn := l } }.retire := by
  simp [exec, execSetcap, h]

theorem step_busy {s t : State} (h : step s = .next t) : t.seq.busy = false := by
  obtain ⟨-, rfl⟩ | ⟨hb, rfl⟩ | ⟨w, e, -, -, rfl⟩ | ⟨w, i, u, -, -, -, he⟩ := step_next h
  · rfl
  · exact hb
  · rfl
  · exact he.busy

/-- The fault record after a step: kept, cleared by a reset, or entered by a word the engine took (R27, R221). A reset inside
a command finds an engine that was not halted. -/
theorem step_fault {s t : State} (h : step s = .next t) :
    t.fault = s.fault ∨
    (s.resetAfter.isSome = true ∧ (s.resetAfter = some 0 ∨ s.fault.halted = false) ∧ t.fault = FaultRecord.reset) ∨
    (∃ w c v, s.takes w ∧ t.fault = { halted := true, cause := Cause.code c, info := v }) := by
  obtain ⟨hr, rfl⟩ | ⟨-, rfl⟩ | ⟨w, e, ht, -, rfl⟩ | ⟨w, i, u, ht, -, hw, he⟩ := step_next h
  · exact .inr (.inl ⟨by simp [hr], .inl hr, rfl⟩)
  · exact .inl rfl
  · exact .inr (.inr ⟨w, _, _, ht, rfl⟩)
  · cases he with
    | retires => exact .inl hw.fault
    | raises c v _ => exact .inr (.inr ⟨w, c, v, ht, rfl⟩)
    | resets hr =>
      obtain ⟨-, -, hhalt, -⟩ := ht
      exact .inr (.inl ⟨hw.reset_pending hr, .inr hhalt, rfl⟩)

theorem step_halted {s t : State} (h : step s = .next t) (hs : s.fault.halted = true) :
    t.fault.halted = true ∨ s.resetAfter = some 0 := by
  obtain hf | ⟨-, hr | hn, -⟩ | ⟨w, c, v, -, hf⟩ := step_fault h
  · exact .inl (by rw [hf, hs])
  · exact .inr hr
  · simp [hs] at hn
  · exact .inl (by rw [hf])

theorem step_enters_halt {s t : State} (h : step s = .next t) (hs : s.fault.halted = false)
    (ht : t.fault.halted = true) : (∃ w, s.takes w) ∧ 1 ≤ t.fault.cause.toNat ∧ t.fault.cause.toNat ≤ 6 := by
  obtain hf | ⟨-, -, hf⟩ | ⟨w, c, v, hw, hf⟩ := step_fault h
  · simp [hf, hs] at ht
  · simp [hf, FaultRecord.reset] at ht
  · exact ⟨⟨w, hw⟩, by rw [hf]; exact c.code_range⟩

/-- Entry needs an engine that is not halted and leaves one that is, so a kept halt is a kept record. -/
theorem step_fault_of_halted_eq {s t : State} (h : step s = .next t) (hr : s.resetAfter = none)
    (hh : t.fault.halted = s.fault.halted) : t.fault = s.fault := by
  obtain hf | ⟨hr', -, -⟩ | ⟨w, c, v, ⟨-, -, hs, -⟩, hf⟩ := step_fault h
  · exact hf
  · simp [hr] at hr'
  · simp [hf, hs] at hh

theorem step_capValid {s t : State} (h : step s = .next t) (hs : s.cap.valid = true) :
    t.cap.valid = true ∨ s.resetAfter.isSome = true :=
  (capIsWriteOnce s t h hs).imp_left fun hc => by rw [hc, hs]

theorem step_latches_cap {s t : State} (h : step s = .next t) (hs : s.cap.valid = false) (ht : t.cap.valid = true) :
    ∃ w, s.takes w ∧ decode s.cfg w = .legal (.setcap t.cap.logn) := by
  obtain hc | ⟨-, hc⟩ | ⟨w, l, hw, hd, -, hc⟩ := step_cap h
  · simp [hc, hs] at ht
  · simp [hc, Cap.reset] at ht
  · exact ⟨w, hw, by rw [hc]; exact hd⟩

/-- Settles O53: the outputs at acceptance, at each decode fault, at the first SETCAP and at a reset, then the rules of a whole
step (`step_fault`, `step_cap`). -/
theorem statusPortFollowsTheEngine : Obligations.StatusPortFollowsTheEngine := by
  intro s
  refine ⟨rfl, fun w i ht hd => ⟨step_of_legal ht hd, rfl⟩, fun w e ht hd => ?illegal, fun w l ht hd hc => ?latch,
    fun hr => ⟨_, step_of_reset hr, rfl⟩, fun t h => ?step⟩
  case illegal =>
    have ⟨_, hb, _⟩ := ht
    refine ⟨_, step_of_illegal ht hd, ?_⟩
    cases e <;> simp [State.status, hb, causeOfDecode, Cause.code]
  case latch =>
    have ⟨_, hb, _⟩ := ht
    refine ⟨_, (step_of_legal ht hd).trans (exec_setcap_first l hc), ?_⟩
    simp [State.status, hb]
  case step =>
    refine ⟨step_busy h, step_halted h, step_enters_halt h, fun hr hh => ?_, step_capValid h, step_latches_cap h⟩
    have hf := step_fault_of_halted_eq h hr hh
    exact ⟨congrArg FaultRecord.cause hf, congrArg FaultRecord.info hf⟩

end Sys2Proof.Machine
end

section
/-! PROOFS. An operation does not see the registers it does not read (spec/10_state.md R23; spec/42_conv_fixed.md R150): two
runs from states that differ there stay in step. -/

namespace Sys2Proof.Machine

/-! ### Two runs in step -/

/-- Both outcomes are next states that `R` relates, or the same fault. -/
inductive OutcomeAlike (R : State → State → Prop) :
    Host.Outcome State Fault Refusal → Host.Outcome State Fault Refusal → Prop where
  | next {t t' : State} (h : R t t') : OutcomeAlike R (.next t) (.next t')
  | fault (f : Fault) : OutcomeAlike R (.fault f) (.fault f)

/-- Both parts go on with the same value from states that `R` relates, or both end the command, alike. -/
inductive Flow.Alike (R : State → State → Prop) {α : Type} : Flow α → Flow α → Prop where
  | go (a : α) {t t' : State} (h : R t t') : Flow.Alike R (.go a t) (.go a t')
  | stop {o o' : Host.Outcome State Fault Refusal} (h : OutcomeAlike R o o') : Flow.Alike R (.stop o) (.stop o')

section
variable {R : State → State → Prop}

theorem Flow.Alike.andThen {α β : Type} {f f' : Flow α} {k k' : α → State → Flow β} (hf : Flow.Alike R f f')
    (hk : ∀ a t t', R t t' → Flow.Alike R (k a t) (k' a t')) : Flow.Alike R (f.andThen k) (f'.andThen k') := by
  cases hf with
  | go a h => exact hk a _ _ h
  | stop h => exact .stop h

theorem Flow.Alike.each {β : Type} {body body' : β → State → Flow Unit}
    (hb : ∀ b t t', R t t' → Flow.Alike R (body b t) (body' b t')) :
    ∀ (l : List β) {s s' : State}, R s s' → Flow.Alike R (Flow.each l body s) (Flow.each l body' s')
  | [], _, _, h => .go () h
  | b :: l, _, _, h => (hb b _ _ h).andThen fun _ _ _ ht => Flow.Alike.each hb l ht

theorem Flow.Alike.finish {f f' : Flow Unit} (hf : Flow.Alike R f f') (hR : ∀ t t', R t t' → R t.retire t'.retire) :
    OutcomeAlike R f.finish f'.finish := by
  cases hf with
  | go _ h => exact .next (hR _ _ h)
  | stop h => exact h

theorem OutcomeAlike.next_left {o o' : Host.Outcome State Fault Refusal} {t : State} (h : OutcomeAlike R o o')
    (ho : o = .next t) : ∃ t', o' = .next t' ∧ R t t' := by
  subst ho
  cases h with
  | next h => exact ⟨_, rfl, h⟩

end

/-! ### States that differ in registers only -/

/-- `s` with other parameter registers and another `CAP`. -/
def State.withRegisters (s : State) (p : Params) (c : Cap) : State := { s with params := p, cap := c }

/-- `s'` is `s` but for the parameter registers and `CAP`. -/
def SameButRegisters (s s' : State) : Prop := ∃ p c, s' = s.withRegisters p c

section
variable {s s' : State} (h : SameButRegisters s s')
include h

/-- An update that neither reads nor writes the registers. -/
theorem SameButRegisters.map (g : State → State)
    (hg : ∀ s p c, g (s.withRegisters p c) = (g s).withRegisters p c) : SameButRegisters (g s) (g s') := by
  obtain ⟨p, c, rfl⟩ := h
  exact ⟨p, c, hg s p c⟩

/-- A value that the registers do not enter. -/
theorem SameButRegisters.get {α : Type} (f : State → α) (hf : ∀ s p c, f (s.withRegisters p c) = f s) : f s' = f s := by
  obtain ⟨p, c, rfl⟩ := h
  exact hf s p c

theorem SameButRegisters.mem_bus_fault : s'.mem = s.mem ∧ s'.bus = s.bus ∧ s'.fault = s.fault := by
  obtain ⟨p, c, rfl⟩ := h
  exact ⟨rfl, rfl, rfl⟩

/-- A reset clears the registers, so the two states meet. -/
theorem SameButRegisters.engineReset : SameButRegisters s.engineReset s'.engineReset := by
  obtain ⟨p, c, rfl⟩ := h
  exact ⟨Params.reset, Cap.reset, rfl⟩

theorem SameButRegisters.storeBytes (a : Addr) (bs : List Byte) :
    SameButRegisters (storeBytes a bs s) (storeBytes a bs s') := by
  induction bs generalizing a s s' with
  | nil => exact h
  | cons b bs ih => exact ih (h.map (·.storeByte a b) fun _ _ _ => rfl) (a + 1#32)

end

theorem readOff_withRegisters (i : Nat) (s : State) (p : Params) (c : Cap) :
    readOff i (s.withRegisters p c) = ((readOff i s).1, (readOff i s).2.withRegisters p c) := by
  have htap : (s.withRegisters p c).tapAt i = s.tapAt i := rfl
  unfold readOff
  rw [htap]
  split <;> rfl

theorem readMant_withRegisters (i : Nat) (s : State) (p : Params) (c : Cap) :
    readMant i (s.withRegisters p c) = ((readMant i s).1, (readMant i s).2.withRegisters p c) := by
  have htap : (s.withRegisters p c).tapAt i = s.tapAt i := rfl
  unfold readMant
  rw [htap]
  split <;> rfl

theorem readMantPair_withRegisters (i : Nat) (s : State) (p : Params) (c : Cap) :
    readMantPair i (s.withRegisters p c) = ((readMantPair i s).1, (readMantPair i s).2.withRegisters p c) := by
  simp only [readMantPair, readMantw, readMant_withRegisters]

theorem tapSrc_withRegisters (k : Kernel) (q : Params) (y : BitVec 32) (x i : Nat) (s : State) (p : Params) (c : Cap) :
    k.tapSrc q y x i (s.withRegisters p c) = ((k.tapSrc q y x i s).1, (k.tapSrc q y x i s).2.withRegisters p c) := by
  cases k
  · simp only [Kernel.tapSrc, readOff_withRegisters]
  · simp only [Kernel.tapSrc, readOff_withRegisters]
  · rfl

/-! ### The parts of an operation, run from states that differ in registers only -/

section
variable {s s' : State} (h : SameButRegisters s s')
include h

theorem issue_alike (x : Access) : Flow.Alike SameButRegisters (issue x s) (issue x s') := by
  have hlog := h.map (·.logAccess x) fun _ _ _ => rfl
  unfold issue
  rw [h.get State.resetAfter fun _ _ _ => rfl, h.get State.cfg fun _ _ _ => rfl]
  split
  · exact .stop (.next h.engineReset)
  · split
    · exact .stop (.fault _)
    · split
      · exact .stop (.next (hlog.map (·.raise _ _) fun _ _ _ => rfl))
      · exact .go () hlog

theorem memRead_alike (a : Addr) (n : Nat) : Flow.Alike SameButRegisters (memRead a n s) (memRead a n s') := by
  refine (issue_alike h _).andThen fun _ t t' ht => ?_
  rw [ht.get State.byteAt fun _ _ _ => rfl]
  exact .go _ ht

theorem memWrite_alike (a : Addr) (bs : List Byte) :
    Flow.Alike SameButRegisters (memWrite a bs s) (memWrite a bs s') :=
  (issue_alike h _).andThen fun _ _ _ ht => .go () (ht.storeBytes a bs)

theorem tapPair_alike (k : Kernel) (p : Params) (y : BitVec 32) (b : Block) (i : Nat) :
    Flow.Alike SameButRegisters (tapPair k p y b i s) (tapPair k p y b i s') := by
  obtain ⟨q, c, rfl⟩ := h
  unfold tapPair
  simp only [tapSrc_withRegisters]
  refine (memRead_alike ⟨q, c, rfl⟩ _ _).andThen fun v0 t t' ht => ?_
  obtain ⟨q, c, rfl⟩ := ht
  simp only [tapSrc_withRegisters]
  refine (memRead_alike ⟨q, c, rfl⟩ _ _).andThen fun v1 u u' hu => ?_
  obtain ⟨q, c, rfl⟩ := hu
  simp only [readMantPair_withRegisters]
  exact .go () ⟨q, c, rfl⟩

theorem tapSingle_alike (k : Kernel) (p : Params) (y : BitVec 32) (b : Block) (i : Nat) :
    Flow.Alike SameButRegisters (tapSingle k p y b i s) (tapSingle k p y b i s') := by
  obtain ⟨q, c, rfl⟩ := h
  unfold tapSingle
  simp only [tapSrc_withRegisters]
  refine (memRead_alike ⟨q, c, rfl⟩ _ _).andThen fun v t t' ht => ?_
  obtain ⟨q, c, rfl⟩ := ht
  simp only [readMant_withRegisters]
  exact .go () ⟨q, c, rfl⟩

end

theorem runTaps_alike (k : Kernel) (p : Params) (y : BitVec 32) (b : Block) :
    ∀ (n i : Nat) {s s' : State}, SameButRegisters s s' →
      Flow.Alike SameButRegisters (runTaps k p y b n i s) (runTaps k p y b n i s')
  | 0, _, _, _, h => .go () h
  | 1, i, _, _, h => tapSingle_alike h k p y b i
  | n + 2, i, _, _, h => (tapPair_alike h k p y b i).andThen fun _ _ _ ht => runTaps_alike k p y b n (i + 2) ht

theorem runBlock_alike (k : Kernel) (p : Params) (y : BitVec 32) (b : Block) {s s' : State}
    (h : SameButRegisters s s') : Flow.Alike SameButRegisters (runBlock k p y b s) (runBlock k p y b s') := by
  have hbegin := h.map (·.beginBlock k p b) fun _ _ _ => rfl
  refine (runTaps_alike k p y b p.tapCount 0 hbegin).andThen fun _ t t' ht => ?_
  have hbytes : k.results t'.cfg p t'.acc = k.results t.cfg p t.acc :=
    ht.get (fun t => k.results t.cfg p t.acc) fun _ _ _ => rfl
  rw [hbytes]
  exact (memWrite_alike ht _ _).andThen fun _ _ _ hu => .go () (hu.map (·.endBlock b) fun _ _ _ => rfl)

theorem runRow_alike (k : Kernel) (p : Params) (blocks : List Block) (r : Nat) {s s' : State}
    (h : SameButRegisters s s') : Flow.Alike SameButRegisters (runRow k p blocks r s) (runRow k p blocks r s') :=
  (Flow.Alike.each (fun b _ _ => runBlock_alike k p (p.rowY r) b) blocks
    (h.map (·.beginRow p r) fun _ _ _ => rfl)).andThen
      fun _ _ _ ht => .go () (ht.map (·.endRow r) fun _ _ _ => rfl)

/-! ### `RECT_WIDTH` enters no address, no count and no value (R23) -/

section
variable (k : Kernel) (p : Params) (v : Word)

theorem runTaps_rectWidth (y : BitVec 32) (b : Block) :
    ∀ (n i : Nat) (s : State), runTaps k { p with rectWidth := v } y b n i s = runTaps k p y b n i s
  | 0, _, _ => rfl
  | 1, _, _ => rfl
  | n + 2, i, s =>
    congrArg (Flow.andThen (tapPair k p y b i s)) (funext₂ fun _ t => runTaps_rectWidth y b n (i + 2) t)

theorem runBlock_rectWidth : runBlock k { p with rectWidth := v } = runBlock k p := by
  funext y b s
  unfold runBlock
  rw [runTaps_rectWidth]
  rfl

theorem runRow_rectWidth (blocks : List Block) : runRow k { p with rectWidth := v } blocks = runRow k p blocks := by
  funext r s
  unfold runRow
  rw [runBlock_rectWidth]
  rfl

end

/-! ### Whole operations -/

theorem runConvolution_alike (k : Kernel) (blocks : List Block) (s : State) (v : Word) (c : Cap) :
    OutcomeAlike SameButRegisters (runConvolution k blocks s)
      (runConvolution k blocks (s.withRegisters { s.params with rectWidth := v } c)) := by
  have hstart : SameButRegisters (s.beginOperation (s.params.rowY 0))
      ((s.withRegisters { s.params with rectWidth := v } c).beginOperation (s.params.rowY 0)) := ⟨_, c, rfl⟩
  have hrow : runRow k (s.withRegisters { s.params with rectWidth := v } c).params blocks = runRow k s.params blocks :=
    runRow_rectWidth k s.params v blocks
  unfold runConvolution
  rw [hrow]
  exact (Flow.Alike.each (fun r _ _ => runRow_alike k s.params blocks r) _ hstart).finish
    fun _ _ h => h.map State.retire fun _ _ _ => rfl

theorem runReduction_alike (s : State) (v : Word) (c : Cap) :
    OutcomeAlike SameButRegisters (runReduction s)
      (runReduction (s.withRegisters { s.params with rectWidth := v } c)) := by
  have hstart : SameButRegisters (s.beginOperation 0)
      ((s.withRegisters { s.params with rectWidth := v } c).beginOperation 0) := ⟨_, c, rfl⟩
  have hblock : runBlock .redv (s.withRegisters { s.params with rectWidth := v } c).params = runBlock .redv s.params :=
    runBlock_rectWidth .redv s.params v
  unfold runReduction
  rw [hblock]
  exact (Flow.Alike.each (fun b _ _ => runBlock_alike .redv s.params 0 b) _ hstart).finish
    fun _ _ h => h.map State.retire fun _ _ _ => rfl

theorem exec_alike_of_rectWidth {i : Instr} (hi : (kernelOf i).isSome = true) (s : State) (v : Word) :
    OutcomeAlike SameButRegisters (exec i s) (exec i (s.withRegisters { s.params with rectWidth := v } s.cap)) := by
  cases i <;> simp only [kernelOf, Option.isSome_none, Bool.false_eq_true] at hi
  case convV =>
    have hvalid : (s.withRegisters { s.params with rectWidth := v } s.cap).cap.valid = s.cap.valid := rfl
    simp only [exec, execConvV, hvalid]
    split
    · exact .next ⟨_, _, rfl⟩
    · exact runConvolution_alike .conv32 _ s v s.cap
  case convF => exact runConvolution_alike .conv16 _ s v s.cap
  case redv256 => exact runReduction_alike s v s.cap
  case redv128 => exact runReduction_alike s v s.cap

/-- CONV.F names its blocks without `CAP` (R152). -/
theorem exec_convF_alike (s : State) (c : Cap) :
    OutcomeAlike SameButRegisters (exec .convF s) (exec .convF (s.withRegisters s.params c)) :=
  runConvolution_alike .conv16 (blocks821 s.params.columns) s s.params.rectWidth c

/-- Settles O38: the two runs stay in step, and states that differ in registers only have the same memory, access log and fault
record. -/
theorem convolutionsIgnoreWidthAndConvFIgnoresCap : Obligations.ConvolutionsIgnoreWidthAndConvFIgnoresCap := by
  refine ⟨fun s t v i hi h => ?_, fun s t c h => ?_⟩
  · obtain ⟨t', ht', hs⟩ := (exec_alike_of_rectWidth hi s v).next_left h
    exact ⟨t', ht', hs.mem_bus_fault⟩
  · obtain ⟨t', ht', hs⟩ := (exec_convF_alike s c).next_left h
    exact ⟨t', ht', hs.mem_bus_fault⟩

end Sys2Proof.Machine
end

section
/-! PROOFS. Memory addressing and the access stream (spec/20_memory.md): the address functions as integer formulas, the bytes
the reads of an operation cover, and the order of its accesses. -/

namespace Sys2Proof.Machine

/-! ### Addresses as integers modulo 2^32 (R51 to R55) -/

/-- A register read as unsigned and reduced modulo 2^32 is the register. -/
theorem ofInt_toNat_32 (a : Word) : BitVec.ofInt 32 a.toNat = a := by
  rw [BitVec.ofInt_natCast, BitVec.ofNat_toNat, BitVec.setWidth_eq]

/-- R51: the operands' integer formula, reduced modulo 2^32 once at the end. -/
theorem regionAddr_ofInt (base stride : Word) (x y : Int) :
    regionAddr base stride (BitVec.ofInt 32 x) (BitVec.ofInt 32 y) =
      BitVec.ofInt 32 (base.toNat + y * stride.toNat + x) := by
  simp only [regionAddr, BitVec.ofInt_add, BitVec.ofInt_mul, ofInt_toNat_32]

theorem aIn_eq_ofInt (p : Params) (y : BitVec 32) (x : Nat) :
    aIn p y x = BitVec.ofInt 32 (p.inBase.toNat + y.toInt * p.inStride.toNat + (p.rectLeft.toInt + x)) := by
  rw [← regionAddr_ofInt, BitVec.ofInt_add, BitVec.ofInt_toInt, BitVec.ofInt_toInt, BitVec.ofInt_natCast, aIn]

theorem aOut_eq_ofInt (p : Params) (y : BitVec 32) (x : Nat) :
    aOut p y x = BitVec.ofInt 32 (p.outBase.toNat + y.toInt * p.outStride.toNat + x) := by
  rw [← regionAddr_ofInt, BitVec.ofInt_toInt, BitVec.ofInt_natCast, aOut]

theorem aRed_eq_ofInt (p : Params) (x r : Nat) :
    aRed p x r = BitVec.ofInt 32 (p.inBase.toNat + r * p.inStride.toNat + x) := by
  rw [← regionAddr_ofInt, BitVec.ofInt_natCast, BitVec.ofInt_natCast, aRed, regionAddr]

theorem aRedOut_eq_ofInt (p : Params) (x : Nat) : aRedOut p x = BitVec.ofInt 32 (p.outBase.toNat + x) := by
  rw [BitVec.ofInt_add, ofInt_toNat_32, BitVec.ofInt_natCast, aRedOut]

/-- R52: the offset of a tap is signed. -/
theorem srcAddr_conv32_eq_ofInt (s : State) (y : BitVec 32) (x i : Nat) :
    s.srcAddr .conv32 y x i = BitVec.ofInt 32 ((aIn s.params y x).toNat + (s.offAt i).toInt) := by
  rw [BitVec.ofInt_add, ofInt_toNat_32, BitVec.ofInt_toInt, State.srcAddr]

theorem rowY_toInt (p : Params) (r : Nat) : (p.rowY r).toInt = wrap32 (p.rectTop.toInt + r) := by
  rw [← toInt_ofInt_32, BitVec.ofInt_add, BitVec.ofInt_toInt, BitVec.ofInt_natCast, Params.rowY]

/-- Settles O49: each address function is the integer formula, since reduction modulo 2^32 commutes with `+` and `*`. -/
theorem addressFunctions : Obligations.AddressFunctions := fun s y x i r =>
  ⟨aIn_eq_ofInt s.params y x, srcAddr_conv32_eq_ofInt s y x i, aOut_eq_ofInt s.params y x, aRed_eq_ofInt s.params x r,
    aRedOut_eq_ofInt s.params x, rowY_toInt s.params r⟩

/-! ### The bytes an operation reads (R56, R69) -/

theorem readBytes_flatMap {β : Type} (l : List β) (f : β → List Access) :
    readBytes (l.flatMap f) = l.flatMap fun b => readBytes (f b) := by
  simp [readBytes, List.flatMap_assoc]

/-- A block reads, for each tap, the bytes of its load: the source bytes of the columns from its first one on. -/
theorem State.mem_readBytes_blockAccesses {s : State} {k : Kernel} {y : BitVec 32} {b : Block} {a : Addr} :
    a ∈ readBytes (s.blockAccesses k y b) ↔
      ∃ i < s.params.tapCount, ∃ c < k.loadBytes s.cfg b.w, s.srcAddr k y (b.x + c) i = a := by
  simp [State.blockAccesses, readBytes, List.flatMap_map, mem_span, byteAddr_srcAddr]

theorem State.mem_readBytes_accesses {s : State} {k : Kernel} {a : Addr} :
    a ∈ readBytes (s.accesses k) ↔
      ∃ y ∈ s.rowsOf k, ∃ b ∈ s.blocksOf k, ∃ i < s.params.tapCount, ∃ c < k.loadBytes s.cfg b.w,
        s.srcAddr k y (b.x + c) i = a := by
  simp only [State.accesses, State.accessesOf_rows, readBytes_flatMap, List.mem_flatMap,
    State.mem_readBytes_blockAccesses]

/-- Where every load covers its block's lanes, every source byte of a column is read. -/
theorem State.srcAddr_mem_readBytes {s : State} {k : Kernel} (hload : ∀ b ∈ s.blocksOf k, b.w ≤ k.loadBytes s.cfg b.w)
    {y : BitVec 32} (hy : y ∈ s.rowsOf k) {x : Nat} (hx : x < s.params.columns) {i : Nat} (hi : i < s.params.tapCount) :
    s.srcAddr k y x i ∈ readBytes (s.accesses k) := by
  obtain ⟨b, hb, hbx, hxb⟩ := blocksOf_covers (k := k) hx
  have hw := hload b hb
  exact State.mem_readBytes_accesses.mpr ⟨y, hy, b, hb, i, hi, x - b.x, by omega, by rw [Nat.add_sub_cancel' hbx]⟩

/-- Where no load passes its block's lanes by more than `m` bytes, no read byte lies more than `m` bytes past the source byte
of a column. -/
theorem State.near_srcAddr_of_mem_readBytes {s : State} {k : Kernel} {m : Nat}
    (hload : ∀ b ∈ s.blocksOf k, 0 < b.w ∧ k.loadBytes s.cfg b.w ≤ b.w + m) {a : Addr}
    (ha : a ∈ readBytes (s.accesses k)) :
    ∃ y ∈ s.rowsOf k, ∃ x < s.params.columns, ∃ i < s.params.tapCount, ∃ d ≤ m,
      a = s.srcAddr k y x i + BitVec.ofNat 32 d := by
  obtain ⟨y, hy, b, hb, i, hi, c, hc, rfl⟩ := State.mem_readBytes_accesses.mp ha
  obtain ⟨hpos, hw⟩ := hload b hb
  have hrow := blocksOf_in_row hb
  have hcol : b.x + c = b.x + min c (b.w - 1) + (c - (b.w - 1)) := by omega
  exact ⟨y, hy, b.x + min c (b.w - 1), by omega, i, hi, c - (b.w - 1), by omega,
    by rw [hcol, ← byteAddr_srcAddr, byteAddr]⟩

/-- The exact loads: a block of `CONV.V` or `REDV.*` fetches one byte per lane (R56). -/
theorem Kernel.loadBytes_exact {k : Kernel} (hk : k ≠ .conv16) (cfg : Config) (w : Nat) : k.loadBytes cfg w = w := by
  cases k with
  | conv32 => rfl
  | conv16 => exact absurd rfl hk
  | redv => rfl

theorem blocksOf_pos {s : State} {k : Kernel} {b : Block} (hb : b ∈ s.blocksOf k) : 0 < b.w := by
  have h821 : b ∈ blocks821 s.params.columns → 0 < b.w := fun h => by
    have := (mem_blocks821 h).2
    omega
  cases k with
  | conv32 =>
    have hn : 0 < s.cap.lanes := Nat.two_pow_pos _
    have := (mem_blocksV hb).2
    omega
  | conv16 => exact h821 hb
  | redv => exact h821 hb

/-- The load widths 16, 8, 4 cover the lanes of a block and pass them by at most 8 bytes (R56, R155). -/
theorem loadBytes_conv16_bounds {s : State} (h8 : s.cfg.load8 = 16) (h2 : s.cfg.load2 = 8) (h1 : s.cfg.load1 = 4)
    {b : Block} (hb : b ∈ s.blocksOf .conv16) :
    b.w ≤ Kernel.conv16.loadBytes s.cfg b.w ∧ Kernel.conv16.loadBytes s.cfg b.w ≤ b.w + 8 := by
  obtain ⟨-, hw | hw | hw⟩ := mem_blocks821 hb <;> simp [Kernel.loadBytes, hw, h8, h2, h1]

theorem mem_readBytes_iff_of_exact {s : State} {k : Kernel} (hk : k ≠ .conv16) {a : Addr} :
    a ∈ readBytes (s.accesses k) ↔
      ∃ y ∈ s.rowsOf k, ∃ x < s.params.columns, ∃ i < s.params.tapCount, s.srcAddr k y x i = a := by
  constructor
  · intro ha
    obtain ⟨y, hy, x, hx, i, hi, d, hd, rfl⟩ := State.near_srcAddr_of_mem_readBytes (m := 0)
      (fun b hb => ⟨blocksOf_pos hb, (Kernel.loadBytes_exact hk s.cfg b.w).le⟩) ha
    obtain rfl : d = 0 := Nat.le_zero.mp hd
    exact ⟨y, hy, x, hx, i, hi, (BitVec.add_zero _).symm⟩
  · rintro ⟨y, hy, x, hx, i, hi, rfl⟩
    exact State.srcAddr_mem_readBytes (fun b _ => (Kernel.loadBytes_exact hk s.cfg b.w).ge) hy hx hi

/-- Settles O34: a load of exactly the block's width reads the columns' source bytes and no other; the widths 16, 8, 4 read
those and stay within 8 bytes of the last lane. -/
theorem readFootprint : Obligations.ReadFootprint := by
  refine ⟨fun s k a hk => mem_readBytes_iff_of_exact hk, fun s a h8 h2 h1 => ⟨fun y hy x hx i hi => ?_, fun ha => ?_⟩⟩
  · exact State.srcAddr_mem_readBytes (fun b hb => (loadBytes_conv16_bounds h8 h2 h1 hb).1) hy hx hi
  · exact State.near_srcAddr_of_mem_readBytes
      (fun b hb => ⟨blocksOf_pos hb, (loadBytes_conv16_bounds h8 h2 h1 hb).2⟩) ha

/-! ### The order of the accesses (R61) -/

/-- Settles O30: an operation is a sequence of its accesses (`exec_operation`), and where the platform performs every one it
runs to its end. -/
theorem operationIssuesItsAccessesInOrder : Obligations.OperationIssuesItsAccessesInOrder := by
  intro s i k hi hcode hcfg hreset htaps hgrants
  obtain ⟨f, hexec, hf⟩ := exec_operation hi hcode hcfg htaps
  obtain ⟨u, rfl, hu, -⟩ := hf.completes hreset hgrants
  exact ⟨u.retire, hexec, hu.bus, hu.frame.fault, rfl⟩

end Sys2Proof.Machine
end

section
/-! PROOFS. The decoder and the encoder (spec/30_encoding.md R82 to R86): the four tests one lemma each, and that decoding
and encoding are inverse to each other. -/

namespace Sys2Proof

/-! ### The four tests of R86 -/

section
variable {cfg : Config} {w : CmdWord} {c : Command}

theorem decode_of_undefined_opcode (h : ∀ c : Command, c.opcode ≠ opField w) :
    decode cfg w = .illegal .illegalCommand := by
  have hn : Command.ofOpcode (opField w) = none :=
    Option.eq_none_iff_forall_ne_some.mpr fun c hc => h c (Command.opcode_of_ofOpcode hc)
  simp [decode, hn]

theorem decode_of_absent_variant (hc : c.opcode = opField w) (hb : cfg.builds c = false) :
    decode cfg w = .illegal .illegalCommand := by
  simp [decode, ← hc, hb]

theorem decode_of_rsv_ne_zero (hc : c.opcode = opField w) (hr : rsvField w ≠ 0#8) :
    decode cfg w = .illegal .illegalCommand := by
  simp [decode, ← hc, hr]

theorem decode_of_operands_none (hc : c.opcode = opField w) (hb : cfg.builds c = true) (hr : rsvField w = 0#8)
    (ho : decodeOperands cfg c (idxField w) (immField w) = none) : decode cfg w = .illegal .illegalOperand := by
  simp [decode, ← hc, hb, hr, ho]

theorem decode_of_operands_some {i : Instr} (hc : c.opcode = opField w) (hb : cfg.builds c = true)
    (hr : rsvField w = 0#8) (ho : decodeOperands cfg c (idxField w) (immField w) = some i) :
    decode cfg w = .legal i := by
  simp [decode, ← hc, hb, hr, ho]

end

/-! ### Decoding and encoding are inverse -/

/-- Settles O3: the fields of the word are those of the instruction, and a word is made of its fields. -/
theorem encodeOfDecode : Obligations.EncodeOfDecode := by
  intro cfg w i h
  obtain ⟨c, hop, hb, hrsv, ho⟩ := decode_legal h
  obtain ⟨rfl, hidx, himm, hwf⟩ := decodeOperands_legal hb ho
  exact ⟨by rw [encode, hop, ← hrsv, hidx, himm, formatF_fields], hwf⟩

theorem Instr.builds_of_wf {cfg : Config} {i : Instr} (h : i.wf cfg = true) : cfg.builds i.command = true := by
  cases i with
  | convF => exact h
  | redv256 => exact h
  | redv128 => exact h
  | _ => rfl

theorem Param.idx_toNat (k : Param) : (BitVec.ofNat 16 k.num).toNat = k.num :=
  Nat.mod_eq_of_lt (k.num_le.trans_lt (by norm_num))

theorem decodeSetp_of_legal {cfg : Config} {k : Param} {v : Word} (h : k.legal cfg v = true) :
    decodeSetp cfg (BitVec.ofNat 16 k.num) v = some (.setp k v) := by
  rw [decodeSetp, Param.idx_toNat, Param.ofNum_num]
  cases k <;> simp_all [Param.legal]

theorem extractLsb'_setWidth_low {m : Nat} (x : BitVec m) (h : m ≤ 32) : (x.setWidth 32).extractLsb' 0 m = x :=
  (BitVec.extractLsb'_setWidth_of_le (by omega)).trans BitVec.extractLsb'_eq_self

/-- A widened vector is zero above its own width. -/
theorem extractLsb'_setWidth_high {m k : Nat} (x : BitVec m) : (x.setWidth 32).extractLsb' m k = 0#k := by
  ext j hj
  simp

/-- The operand fields of a legal command decode to it: an index of a legal build fits in `idx` (R9, R85). -/
theorem decodeOperands_of_wf {cfg : Config} {i : Instr} (hcfg : cfg.wf) (h : i.wf cfg = true) :
    decodeOperands cfg i.command i.idx i.imm = some i := by
  obtain ⟨⟨-, hmax, -⟩, -, -⟩ := hcfg
  have hindex : ∀ n < cfg.tapsMax, (BitVec.ofNat 16 n).toNat = n := fun n hn => Nat.mod_eq_of_lt (hn.trans_le hmax)
  cases i with
  | setcap l =>
    have hlow : (l.setWidth 32).extractLsb' 0 3 = l := extractLsb'_setWidth_low l (by norm_num)
    have hhigh : (l.setWidth 32).extractLsb' 3 29 = 0#29 := extractLsb'_setWidth_high l
    have hl : l.toNat ≤ maxLogn := by simpa [Instr.wf] using h
    simp only [decodeOperands, Instr.command, Instr.idx, Instr.imm, hlow, hhigh, hl, and_self, if_true]
  | setp k v => exact decodeSetp_of_legal h
  | setoff n v =>
    have hn : n < cfg.tapsMax := by simpa [Instr.wf] using h
    simp [decodeOperands, Instr.command, Instr.idx, Instr.imm, hindex n hn, hn]
  | setmant n v =>
    have hn : n < cfg.tapsMax := by simpa [Instr.wf] using h
    have hlow : (v.setWidth 32).extractLsb' 0 16 = v := extractLsb'_setWidth_low v (by norm_num)
    have hhigh : (v.setWidth 32).extractLsb' 16 16 = 0#16 := extractLsb'_setWidth_high v
    simp only [decodeOperands, Instr.command, Instr.idx, Instr.imm, hlow, hhigh, hindex n hn, hn, and_self, if_true]
  | setmant2 n v0 v1 =>
    obtain ⟨hn, heven⟩ : n < cfg.tapsMax ∧ n % 2 = 0 := by simpa [Instr.wf] using h
    have hlow : (v1 ++ v0 : BitVec 32).extractLsb' 0 16 = v0 := Machine.pack_low v0 v1
    have hhigh : (v1 ++ v0 : BitVec 32).extractLsb' 16 16 = v1 := Machine.pack_high v0 v1
    simp only [decodeOperands, Instr.command, Instr.idx, Instr.imm, hlow, hhigh, hindex n hn, hn, heven, and_self, if_true]
  | convV => rfl
  | convF => rfl
  | redv256 => rfl
  | redv128 => rfl

/-- Settles O2: the encoding has the instruction's fields (R82), which pass the tests and decode to it. -/
theorem decodeOfEncode : Obligations.DecodeOfEncode := fun cfg i hcfg h =>
  decode_of_operands_some (c := i.command) (by simp [encode]) (Instr.builds_of_wf h) (by simp [encode])
    (by simpa [encode] using decodeOperands_of_wf hcfg h)

/-- Settles O1, by running the decoder on each word. -/
theorem specWordsDecode : Obligations.SpecWordsDecode := by
  and_intros <;> decide

end Sys2Proof
end

section
/-! PROOFS. The four tests on the fields of a word as numbers (spec/30_encoding.md R84 to R86). -/

namespace Sys2Proof.Machine

/-! ### The opcodes and the builds -/

/-- The defined opcodes are those of the nine commands (R84). -/
theorem mem_definedOpcodes_iff (op : BitVec 8) : op.toNat ∈ definedOpcodes ↔ ∃ c : Command, c.opcode = op := by
  constructor
  · intro h
    have hc : ∃ c : Command, c.opcode.toNat = op.toNat := by
      simp only [definedOpcodes, List.mem_cons, List.not_mem_nil, or_false] at h
      obtain h | h | h | h | h | h | h | h | h := h
      exacts [⟨.setcap, h.symm⟩, ⟨.setp, h.symm⟩, ⟨.setoff, h.symm⟩, ⟨.setmant, h.symm⟩,
        ⟨.setmant2, h.symm⟩, ⟨.convV, h.symm⟩, ⟨.convF, h.symm⟩, ⟨.redv256, h.symm⟩, ⟨.redv128, h.symm⟩]
    exact hc.imp fun _ => BitVec.eq_of_toNat_eq
  · rintro ⟨c, rfl⟩
    cases c <;> decide

theorem variantAbsent_opcode (cfg : Config) (c : Command) :
    variantAbsent cfg c.opcode.toNat ↔ cfg.builds c = false := by
  cases c <;> simp [variantAbsent, Command.opcode, Config.builds]

/-! ### The operand constraints of R85 -/

/-- The bits from bit `k` to the top are zero exactly if the quotient by `2 ^ k` is. -/
theorem extractLsb'_high_eq_zero_iff {n k len : Nat} (x : BitVec n) (h : n ≤ k + len) :
    x.extractLsb' k len = 0#len ↔ x.toNat / 2 ^ k = 0 := by
  have hlt : x.toNat / 2 ^ k < 2 ^ len := by
    rw [Nat.div_lt_iff_lt_mul (by positivity), ← Nat.pow_add, Nat.add_comm]
    exact x.isLt.trans_le (Nat.pow_le_pow_right (by norm_num) h)
  rw [← BitVec.toNat_inj, BitVec.extractLsb'_toNat, Nat.shiftRight_eq_div_pow, Nat.mod_eq_of_lt hlt, BitVec.toNat_zero]

/-- Of the twelve registers `SETP` checks two (R85, R195). -/
theorem decodeSetp_isSome (cfg : Config) (idx : BitVec 16) (imm : BitVec 32) :
    (decodeSetp cfg idx imm).isSome = true ↔
      idx.toNat ≤ 11 ∧ (idx.toNat = 9 → imm.toNat ≤ cfg.tapsMax) ∧ (idx.toNat = 11 → imm.toNat ≤ 31) := by
  unfold decodeSetp
  cases hk : Param.ofNum idx.toNat with
  | none =>
    have hlarge : ¬ idx.toNat ≤ 11 := fun hle => by
      generalize idx.toNat = n at hk hle
      interval_cases n <;> cases hk
    simp [hlarge]
  | some k =>
    rw [← Param.num_of_ofNum hk]
    cases k <;> simp [Param.num]

theorem decodeBare_isSome (i : Instr) (idx : BitVec 16) (imm : BitVec 32) :
    (decodeBare i idx imm).isSome = true ↔ idx.toNat = 0 ∧ imm.toNat = 0 := by
  simp [decodeBare, ← BitVec.toNat_inj]

/-- The operands of a command decode exactly where they meet the constraints of R85. -/
theorem decodeOperands_isSome (cfg : Config) (c : Command) (idx : BitVec 16) (imm : BitVec 32) :
    (decodeOperands cfg c idx imm).isSome = true ↔ operandsLegal cfg c.opcode.toNat idx.toNat imm.toNat := by
  cases c with
  | setcap =>
    have hhigh : imm.extractLsb' 3 29 = 0#29 ↔ imm.toNat / 8 = 0 := extractLsb'_high_eq_zero_iff imm le_rfl
    simp [decodeOperands, Command.opcode, operandsLegal, hhigh, ← BitVec.toNat_inj]
  | setp => exact decodeSetp_isSome cfg idx imm
  | setoff => simp [decodeOperands, Command.opcode, operandsLegal]
  | setmant =>
    have hhigh : imm.extractLsb' 16 16 = 0#16 ↔ imm.toNat / 2 ^ 16 = 0 := extractLsb'_high_eq_zero_iff imm le_rfl
    simp [decodeOperands, Command.opcode, operandsLegal, hhigh]
  | setmant2 => simp [decodeOperands, Command.opcode, operandsLegal]
  | convV => exact decodeBare_isSome .convV idx imm
  | convF => exact decodeBare_isSome .convF idx imm
  | redv256 => exact decodeBare_isSome .redv256 idx imm
  | redv128 => exact decodeBare_isSome .redv128 idx imm

/-- Settles O4: each clause is one of the four tests, on the fields read as numbers. -/
theorem decodeFollowsTheFourTests : Obligations.DecodeFollowsTheFourTests := by
  intro cfg w op rsv idx imm hop hrsv hidx himm
  rw [← opField_toNat] at hop
  rw [← rsvField_toNat] at hrsv
  rw [← idxField_toNat] at hidx
  rw [← immField_toNat] at himm
  subst hop hrsv hidx himm
  have hzero : (rsvField w).toNat = 0 ↔ rsvField w = 0#8 := by rw [← BitVec.toNat_inj]; rfl
  rw [mem_definedOpcodes_iff]
  refine ⟨fun h => decode_of_undefined_opcode (not_exists.mp h), ?_, ?_, ?_, ?_⟩ <;> rintro ⟨c, hc⟩ <;>
    rw [← hc, variantAbsent_opcode]
  · exact decode_of_absent_variant hc
  · exact fun _ hr => decode_of_rsv_ne_zero hc (mt hzero.mpr hr)
  · intro hb hr ho
    rw [← decodeOperands_isSome, Option.not_isSome_iff_eq_none] at ho
    exact decode_of_operands_none hc (by simpa using hb) (hzero.mp hr) ho
  · intro hb hr ho
    have hb : cfg.builds c = true := by simpa using hb
    rw [← decodeOperands_isSome, Option.isSome_iff_exists] at ho
    obtain ⟨i, hi⟩ := ho
    obtain ⟨hcommand, hidx, himm, -⟩ := decodeOperands_legal hb hi
    exact ⟨i, decode_of_operands_some hc hb (hzero.mp hr) hi, by rw [hcommand], by rw [hidx], by rw [himm]⟩

end Sys2Proof.Machine
end

section
/-! PROOFS. The mask and match columns of the opcode table (spec/30_encoding.md R84). -/

namespace Sys2Proof.Machine

/-! ### A word is its four fields -/

theorem word_eq_iff_fields (w t : CmdWord) :
    w = t ↔ opField w = opField t ∧ rsvField w = rsvField t ∧ idxField w = idxField t ∧ immField w = immField t := by
  refine ⟨fun h => by simp [h], fun ⟨hop, hrsv, hidx, himm⟩ => ?_⟩
  rw [← formatF_fields w, hop, hrsv, hidx, himm, formatF_fields]

/-- Masking acts on each field by itself. -/
theorem and_eq_iff_fields (w m t : CmdWord) :
    w &&& m = t ↔ opField w &&& opField m = opField t ∧ rsvField w &&& rsvField m = rsvField t ∧
      idxField w &&& idxField m = idxField t ∧ immField w &&& immField m = immField t := by
  rw [word_eq_iff_fields]
  simp only [opField, rsvField, idxField, immField, BitVec.extractLsb'_and]

/-! ### The columns -/

/-- A word meets a row exactly if it has the row's opcode, a zero `rsv`, and zeros where the row masks its operands. -/
theorem meets_row_iff (w : CmdWord) (c : Command) :
    w &&& opcodeMask c = opcodeMatch c ↔ opField w = c.opcode ∧ rsvField w = 0#8 ∧
      idxField w &&& idxField (opcodeMask c) = 0#16 ∧ immField w &&& immField (opcodeMask c) = 0#32 := by
  have hmask : opField (opcodeMask c) = BitVec.allOnes 8 ∧ rsvField (opcodeMask c) = BitVec.allOnes 8 := by
    cases c <;> decide
  have hmatch : opField (opcodeMatch c) = c.opcode ∧ rsvField (opcodeMatch c) = 0#8 ∧
      idxField (opcodeMatch c) = 0#16 ∧ immField (opcodeMatch c) = 0#32 := by
    cases c <;> decide
  obtain ⟨hop, hrsv⟩ := hmask
  obtain ⟨hop', hrsv', hidx', himm'⟩ := hmatch
  rw [and_eq_iff_fields, hop, hrsv, hop', hrsv', hidx', himm', BitVec.and_allOnes, BitVec.and_allOnes]

/-- A number below `2 ^ k` has no bit from bit `k` on. -/
theorem and_high_mask_eq_zero {n : Nat} {x : BitVec n} (k : Nat) (h : x.toNat < 2 ^ k) :
    x &&& (BitVec.allOnes n <<< k) = 0#n := by
  ext j hj
  by_cases hjk : j < k
  · simp [hjk]
  · have hx : x.toNat.testBit j = false :=
      Nat.testBit_lt_two_pow (h.trans_le (Nat.pow_le_pow_right (by norm_num) (not_lt.mp hjk)))
    simp [BitVec.getElem_eq_testBit_toNat, hx]

/-- An even number has a zero low bit. -/
theorem and_one_eq_zero {n : Nat} {x : BitVec n} (h : x.toNat % 2 = 0) : x &&& 1#n = 0#n := by
  apply BitVec.eq_of_toNat_eq
  cases n with
  | zero => simp [BitVec.of_length_zero]
  | succ n => simp [h]

theorem bare_operands_masked {idx m : BitVec 16} {imm m' : BitVec 32} (h : idx.toNat = 0 ∧ imm.toNat = 0) :
    idx &&& m = 0#16 ∧ imm &&& m' = 0#32 := by
  obtain ⟨hidx, himm⟩ := h
  obtain rfl : idx = 0#16 := BitVec.eq_of_toNat_eq hidx
  obtain rfl : imm = 0#32 := BitVec.eq_of_toNat_eq himm
  exact ⟨BitVec.zero_and, BitVec.zero_and⟩

/-- What R85 allows in the operands has zeros where the row masks them; 256 taps make an index of 8 bits. -/
theorem operands_masked {idx : BitVec 16} {imm : BitVec 32} (c : Command)
    (h : operandsLegal Config.default c.opcode.toNat idx.toNat imm.toNat) :
    idx &&& idxField (opcodeMask c) = 0#16 ∧ imm &&& immField (opcodeMask c) = 0#32 := by
  cases c with
  | setcap =>
    obtain ⟨hidx, himm, -⟩ := h
    exact ⟨and_high_mask_eq_zero 0 (by omega), and_high_mask_eq_zero 3 (by omega)⟩
  | setp =>
    obtain ⟨hidx, -⟩ := h
    exact ⟨and_high_mask_eq_zero 4 (by omega), BitVec.and_zero⟩
  | setoff => exact ⟨and_high_mask_eq_zero 8 h, BitVec.and_zero⟩
  | setmant =>
    obtain ⟨hidx, himm⟩ := h
    exact ⟨and_high_mask_eq_zero 8 hidx, and_high_mask_eq_zero 16 (by omega)⟩
  | setmant2 =>
    obtain ⟨hidx, heven⟩ := h
    have hmask : idxField (opcodeMask .setmant2) = BitVec.allOnes 16 <<< 8 ||| 1#16 := by decide
    rw [hmask, BitVec.and_or_distrib_left, and_high_mask_eq_zero 8 hidx, and_one_eq_zero heven]
    exact ⟨rfl, BitVec.and_zero⟩
  | convV => exact bare_operands_masked h
  | convF => exact bare_operands_masked h
  | redv256 => exact bare_operands_masked h
  | redv128 => exact bare_operands_masked h

theorem opcode_injective {c d : Command} (h : c.opcode = d.opcode) : c = d := by
  simpa [h] using (Command.ofOpcode_opcode c).symm

/-- Settles O5: a legal word has its row's opcode and zeros under its mask, and rows differ in their opcode. -/
theorem maskAndMatchSelectTheCommand : Obligations.MaskAndMatchSelectTheCommand := by
  refine ⟨fun w i h => ?_, fun w c d hc hd => ?_⟩
  · obtain ⟨c, hop, hb, hrsv, ho⟩ := decode_legal h
    obtain ⟨rfl, -⟩ := decodeOperands_legal hb ho
    have hlegal := (decodeOperands_isSome ..).mp (Option.isSome_of_eq_some ho)
    exact (meets_row_iff ..).mpr ⟨hop.symm, hrsv, operands_masked i.command hlegal⟩
  · obtain ⟨hopc, -⟩ := (meets_row_iff ..).mp hc
    obtain ⟨hopd, -⟩ := (meets_row_iff ..).mp hd
    exact opcode_injective (hopc.symm.trans hopd)

end Sys2Proof.Machine
end

section
/-! PROOFS. The assembler's lines and the pseudo-commands (spec/30_encoding.md R88, R89). -/

namespace Sys2Proof.Machine

/-! ### A line as a number -/

/-- Every opcode is below 0x80, so a command word read as a signed number is the sum of its fields (R82). -/
theorem asmWord_toInt (c : Command) {idx : Nat} (imm : BitVec 32) (h : idx < 2 ^ 16) :
    (asmWord c idx imm).toInt = c.opcode.toNat * 2 ^ 56 + idx * 2 ^ 32 + imm.toNat := by
  have hop : c.opcode.toNat < 0x80 := by cases c <;> decide
  have hnat : (asmWord c idx imm).toNat = c.opcode.toNat * 2 ^ 56 + idx * 2 ^ 32 + imm.toNat := by
    have hidx : (BitVec.ofNat 16 idx).toNat = idx := Nat.mod_eq_of_lt h
    simp only [asmWord, formatF_toNat, hidx, BitVec.toNat_zero, Nat.zero_mul, Nat.add_zero]
  rw [BitVec.toInt_eq_toNat_of_lt (by omega), hnat]
  norm_cast

theorem toNat_ofInt_emod (n : Nat) (v : Int) : ((BitVec.ofInt n v).toNat : Int) = v % 2 ^ n := by
  rw [BitVec.toNat_ofInt, Int.toNat_of_nonneg (Int.emod_nonneg _ (by positivity))]
  push_cast
  rfl

theorem pack_toNat (m0 m1 : Mant) : (pack m0 m1).toNat = m1.toNat * 2 ^ 16 + m0.toNat := by
  rw [pack, BitVec.toNat_append, ← Nat.shiftLeft_add_eq_or_of_lt m0.isLt, Nat.shiftLeft_eq]

/-- Settles O6: one word a line, read as the sum of its fields. -/
theorem assemblerLinesEncode : Obligations.AssemblerLinesEncode := by
  refine ⟨fun l hl => ?setcap, fun k v h => ?setp, fun i v h => ?setoff, fun i v h => ?setmant,
    fun i v0 v1 h => ?setmant2, rfl, rfl, rfl, rfl⟩ <;>
    rw [AsmLine.words, List.map_singleton, List.singleton_inj]
  case setcap =>
    rw [asmWord_toInt _ _ (by norm_num), BitVec.toNat_ofNat, Nat.mod_eq_of_lt hl]
    simp [Command.opcode]
  case setp =>
    have hk : k < 2 ^ 16 := by simpa [AsmLine.inRange] using h
    rw [asmWord_toInt _ _ hk, umod32, toNat_ofInt_emod]
    simp [Command.opcode]
  case setoff =>
    obtain ⟨hi, -⟩ : i < 2 ^ 16 ∧ _ := by simpa [AsmLine.inRange] using h
    rw [asmSetoff, asmWord_toInt _ _ hi, umod32, toNat_ofInt_emod]
    simp [Command.opcode]
  case setmant =>
    obtain ⟨hi, -⟩ : i < 2 ^ 16 ∧ _ := by simpa [AsmLine.inRange] using h
    rw [asmSetmant, asmWord_toInt _ _ hi, BitVec.toNat_setWidth_of_le (by norm_num), toNat_ofInt_emod]
    simp [Command.opcode]
  case setmant2 =>
    obtain ⟨⟨hi, -⟩, -⟩ : (i < 2 ^ 16 ∧ _) ∧ _ := by simpa [AsmLine.inRange] using h
    rw [asmWord_toInt _ _ hi, ← pack, pack_toNat]
    push_cast
    rw [toNat_ofInt_emod, toNat_ofInt_emod]
    simp [Command.opcode]

/-! ### The pseudo-commands -/

theorem default_wf : Config.default.wf := by decide

theorem decode_asmSetp {k : Param} {v : Int} (h : k.legal Config.default (BitVec.ofInt 32 v) = true) :
    decode Config.default (asmSetp k v) = .legal (.setp k (BitVec.ofInt 32 v)) :=
  decodeOfEncode _ (.setp k (BitVec.ofInt 32 v)) default_wf h

theorem decode_asmSetoff {i : Nat} (v : Int) (h : i < 256) :
    decode Config.default (asmSetoff i v) = .legal (.setoff i (BitVec.ofInt 32 v)) :=
  decodeOfEncode _ (.setoff i (BitVec.ofInt 32 v)) default_wf (decide_eq_true h)

theorem decode_asmSetmant {i : Nat} (v : Int) (h : i < 256) :
    decode Config.default (asmSetmant i v) = .legal (.setmant i (BitVec.ofInt 16 v)) :=
  decodeOfEncode _ (.setmant i (BitVec.ofInt 16 v)) default_wf (decide_eq_true h)

/-- Settles O7: each word of an expansion is the encoding of a well-formed command, which decodes to it (`decodeOfEncode`);
only the index of `settap` and the exponent of `setq` are checked. -/
theorem pseudoCommandsExpand : Obligations.PseudoCommandsExpand := by
  refine ⟨fun i o m hi _ _ => ?settap, fun b s => ?setin, fun b s => ?setout, fun l t w h => ?setrect,
    fun e o he he' => ?setq⟩ <;>
    simp only [AsmLine.words, List.map_cons, List.map_nil]
  case settap => rw [decode_asmSetoff o hi, decode_asmSetmant m hi]
  case setin => rw [decode_asmSetp rfl, decode_asmSetp rfl]
  case setout => rw [decode_asmSetp rfl, decode_asmSetp rfl]
  case setrect => rw [decode_asmSetp rfl, decode_asmSetp rfl, decode_asmSetp rfl, decode_asmSetp rfl]
  case setq =>
    have hexponent : (BitVec.ofInt 32 e).toNat ≤ 31 := by
      have hval := toNat_ofInt_emod 32 e
      omega
    rw [decode_asmSetp (k := .exponent) (decide_eq_true hexponent), decode_asmSetp rfl]

end Sys2Proof.Machine
end

section
/-! PROOFS. The command port (spec/30_encoding.md R81, R86; spec/60_exceptions.md R211). -/

namespace Sys2Proof.Machine

/-- Settles O8: `State.accept` written out. -/
theorem stepRunsTheDecodedCommand : Obligations.StepRunsTheDecodedCommand := fun _ _ _ ht hd => step_of_legal ht hd

theorem State.cmdReady_iff (s : State) : s.cmdReady = true ↔ s.seq.busy = false ∧ s.fault.halted = false := by
  simp [State.cmdReady]

theorem step_of_halted {s : State} (hr : s.resetAfter ≠ some 0) (hb : s.seq.busy = false)
    (hh : s.fault.halted = true) : step s = .next s := by
  obtain ⟨hr', -⟩ | ⟨-, hb', -⟩ | ⟨-, -, -, he⟩ | ⟨w, e, ⟨-, -, hh', -⟩, -⟩ | ⟨w, i, ⟨-, -, hh', -⟩, -⟩ := step_cases s
  · exact absurd hr' hr
  · simp [hb] at hb'
  · exact he
  · simp [hh] at hh'
  · simp [hh] at hh'

theorem CommandEnd.cmds {i : Instr} {u t : State} (h : CommandEnd i u t) : t.cmds = u.cmds := by
  cases h <;> rfl

/-- A halted engine takes no word, nor does one in the middle of an operation (R81). -/
theorem step_cmds_of_not_ready {s t : State} (h : step s = .next t) (hready : s.cmdReady = false) : t.cmds = s.cmds := by
  have hno : ∀ w, ¬ s.takes w := fun w ⟨_, hb, hh, _⟩ => by simp [State.cmdReady, hb, hh] at hready
  obtain ⟨-, rfl⟩ | ⟨-, rfl⟩ | ⟨w, e, ht, -⟩ | ⟨w, i, u, ht, -⟩ := step_next h
  · rfl
  · rfl
  · exact absurd ht (hno w)
  · exact absurd ht (hno w)

/-- A ready engine takes the presented word and no other; where none is presented the tail is empty too (R81). -/
theorem step_cmds_of_ready {s t : State} (h : step s = .next t) (hready : s.cmdReady = true)
    (hr : s.resetAfter ≠ some 0) : t.cmds = s.cmds.tail := by
  obtain ⟨hb, hh⟩ := s.cmdReady_iff.mp hready
  obtain ⟨hr', -⟩ | ⟨-, hb', -⟩ | ⟨-, -, hidle, he⟩ | ⟨w, e, -, -, he⟩ | ⟨w, i, -, -, he⟩ := step_cases s
  · exact absurd hr' hr
  · simp [hb] at hb'
  · obtain rfl : t = s := by simpa [h] using he
    simp [hidle.resolve_left (by simp [hh])]
  · obtain rfl : t = s.takeWord.raise (causeOfDecode e) w := by simpa [h] using he
    rfl
  · obtain ⟨u, hw, hend⟩ := exec_next (he ▸ h)
    rw [hend.cmds, hw.cmds]
    rfl

/-- Settles O9: a ready engine takes the presented word; what else a step does to the host's words is in the lemmas above. -/
theorem commandPortProtocol : Obligations.CommandPortProtocol := fun s =>
  ⟨s.cmdReady_iff,
    fun _ _ hr hready hw hd =>
      have ⟨hb, hh⟩ := s.cmdReady_iff.mp hready
      step_of_legal ⟨hr, hb, hh, hw⟩ hd,
    fun _ h => ⟨step_busy h, step_cmds_of_not_ready h, step_cmds_of_ready h⟩,
    step_of_halted⟩

/-- Settles O10: the four tests say what the word decodes to (`decodeFollowsTheFourTests`), and that what the step does. -/
theorem illegalWordHaltsWithoutEffect : Obligations.IllegalWordHaltsWithoutEffect := by
  intro s w op rsv idx imm ht hop hrsv hidx himm
  obtain ⟨hundefined, habsent, hreserved, hoperands, hlegal⟩ :=
    decodeFollowsTheFourTests s.cfg w op rsv idx imm hop hrsv hidx himm
  refine ⟨fun h => ?command, fun hdef hv hr ho => ?operand, fun hdef hv hr ho => ?legal⟩
  case command =>
    have hd : decode s.cfg w = .illegal .illegalCommand := by
      by_cases hdef : op ∈ definedOpcodes
      · by_cases hv : variantAbsent s.cfg op
        · exact habsent hdef hv
        · have hr : rsv ≠ 0 := (h.resolve_left (not_not_intro hdef)).resolve_left hv
          exact hreserved hdef hv hr
      · exact hundefined hdef
    exact step_of_illegal ht hd
  case operand => exact step_of_illegal ht (hoperands hdef hv hr ho)
  case legal =>
    obtain ⟨i, hd, -⟩ := hlegal hdef hv hr ho
    obtain ⟨hw, -⟩ := encodeOfDecode s.cfg w i hd
    exact ⟨i, hw, step_of_legal ht hd⟩

end Sys2Proof.Machine
end

section
/-! PROOFS. The arithmetic primitives (spec/40_tap_model_and_primitives.md R103 to R117): rounding, clamping, packing, and the
bounds under which no accumulator wraps or saturates. -/

namespace Sys2Proof.Machine

/-! ### Packing, clamping, rounding -/

/-- Settles O48, by `unpack_pack` and the pair as a number. -/
theorem packedPairUnpacks : Obligations.PackedPairUnpacks := fun m0 m1 => ⟨unpack_pack m0 m1, pack_toNat m0 m1⟩

theorem clampU8_eq_ite (v : Int) : clampU8 v = if v < 0 then 0 else if 255 < v then 255 else v := by
  unfold clampU8
  split_ifs <;> omega

/-- The byte range lies inside the 16-bit range, so the first narrowing moves no value across a clamp. -/
theorem clampU8_sat16 (v : Int) : clampU8 (sat16 v) = clampU8 v := by
  unfold clampU8 sat16
  omega

/-- Settles O44: the byte is `clampU8` (`toByte_toNat`), which is the stated case split. -/
theorem resultByteIsClamped : Obligations.ResultByteIsClamped :=
  ⟨fun v => (toByte_toNat v).trans (clampU8_eq_ite v), clampU8_sat16⟩

@[simp] theorem sra_zero (v : Int) : sra v 0 = v := by simp [sra]

/-- The bias is half the divisor: `(2^e + v) / 2^(e+1) = v / 2^(e+1) + 1/2` before the floor. -/
theorem sra_bias_succ_add (e : Nat) (v : Int) :
    sra (bias (e + 1) + v) (e + 1) = ⌊(v : ℚ) / 2 ^ (e + 1) + 1 / 2⌋ := by
  have hhalf : (v : ℚ) / 2 ^ (e + 1) + 1 / 2 = ((2 ^ e + v : Int) : ℚ) / ((2 ^ (e + 1) : Nat) : ℚ) := by
    push_cast
    field_simp
    ring
  rw [hhalf, Rat.floor_intCast_div_natCast, bias_succ, sra]
  norm_cast

/-- Settles O43: for `e` of 1 or more the bias is the half of `sra_bias_succ_add`; for 0 there is none. -/
theorem shiftRoundsHalfUp : Obligations.ShiftRoundsHalfUp := by
  refine ⟨fun e v he => ?_, fun v => by simp [bias_zero]⟩
  obtain ⟨n, rfl⟩ := Nat.exists_eq_add_of_le' he
  exact sra_bias_succ_add n v

/-! ### The weight of the taps bounds their sum (R105) -/

theorem sample_range (b : Byte) : 0 ≤ sample b ∧ sample b ≤ 255 := by
  have hb := b.isLt
  unfold sample
  omega

theorem abs_mul_sample_le (m : Int) (b : Byte) : |m * sample b| ≤ |m| * 255 := by
  obtain ⟨h0, h255⟩ := sample_range b
  rw [abs_mul, abs_of_nonneg h0]
  exact mul_le_mul_of_nonneg_left h255 (abs_nonneg m)

/-- The part of `State.mantWeight` that the taps `i`, …, `i + n - 1` contribute. -/
def State.partialWeight (s : State) (i n : Nat) : Int :=
  ((List.range' i n).map fun j => |s.mantAt j| * 255).sum

@[simp] theorem State.partialWeight_zero (s : State) (i : Nat) : s.partialWeight i 0 = 0 := rfl

theorem State.partialWeight_succ (s : State) (i n : Nat) :
    s.partialWeight i (n + 1) = |s.mantAt i| * 255 + s.partialWeight (i + 1) n := by
  simp [State.partialWeight, List.range'_succ]

@[simp] theorem State.partialSum_zero (s : State) (k : Kernel) (y : BitVec 32) (x i : Nat) :
    s.partialSum k y x i 0 = 0 := rfl

theorem State.partialSum_succ (s : State) (k : Kernel) (y : BitVec 32) (x i n : Nat) :
    s.partialSum k y x i (n + 1) = s.mantAt i * s.tapSample k y x i + s.partialSum k y x (i + 1) n := by
  simp [State.partialSum, List.range'_succ]

theorem State.partialWeight_all (s : State) : s.partialWeight 0 s.params.tapCount = s.mantWeight := by
  simp [State.partialWeight, State.mantWeight, List.range_eq_range']

theorem State.abs_partialSum_le (s : State) (k : Kernel) (y : BitVec 32) (x : Nat) :
    ∀ n i : Nat, |s.partialSum k y x i n| ≤ s.partialWeight i n
  | 0, _ => by simp
  | n + 1, i => by
    rw [State.partialSum_succ, State.partialWeight_succ]
    exact (abs_add_le _ _).trans (add_le_add (abs_mul_sample_le _ _) (State.abs_partialSum_le s k y x n (i + 1)))

theorem State.partialWeight_nonneg (s : State) (i n : Nat) : 0 ≤ s.partialWeight i n :=
  (abs_nonneg _).trans (s.abs_partialSum_le .conv32 0 0 n i)

theorem State.abs_weightedSum_le (s : State) (k : Kernel) (y : BitVec 32) (x : Nat) :
    |s.weightedSum k y x| ≤ s.mantWeight := by
  rw [← State.partialSum_all, ← State.partialWeight_all]
  exact s.abs_partialSum_le k y x _ 0

theorem State.mantWeight_nonneg (s : State) : 0 ≤ s.mantWeight := by
  rw [← State.partialWeight_all]
  exact s.partialWeight_nonneg _ _

/-- A mantissa is at least -2^15, so a tap weighs at most `2^15 * 255`. -/
theorem State.mantWeight_le (s : State) : s.mantWeight ≤ s.params.tapCount * 8355840 := by
  have htap : ∀ w ∈ (List.range s.params.tapCount).map (fun i => |s.mantAt i| * 255), w ≤ 8355840 := by
    intro w hw
    obtain ⟨i, -, rfl⟩ := List.mem_map.mp hw
    have hm : |s.mantAt i| ≤ 32768 :=
      abs_le.mpr ⟨BitVec.le_toInt (s.tapAt i).mant, (BitVec.toInt_lt (x := (s.tapAt i).mant)).le.trans (by norm_num)⟩
    omega
  simpa [State.mantWeight] using List.sum_le_card_nsmul _ _ htap

/-! ### 32-bit accumulators (R105, R111, R176) -/

theorem bias_range (e : Nat) : 0 ≤ bias e ∧ bias e < 2 ^ e := by
  cases e with
  | zero => decide
  | succ e =>
    rw [bias_succ]
    exact ⟨by positivity, pow_lt_pow_right₀ (by norm_num) (Nat.lt_succ_self e)⟩

theorem State.wrap32_weightedSum {s : State} {b : Int} (hb : 0 ≤ b) (h : s.inv32 b) (k : Kernel) (y : BitVec 32)
    (x : Nat) : wrap32 (b + s.weightedSum k y x) = b + s.weightedSum k y x := by
  obtain ⟨hlo, hhi⟩ := abs_le.mp (s.abs_weightedSum_le k y x)
  have hw : s.mantWeight + b ≤ 2147483647 := h
  exact wrap32_of_range (by omega) (by omega)

/-- 256 taps weigh at most `256 * 2^15 * 255 = 2139095040`, and the bias is below `2^14`. -/
theorem State.inv32_redvBias {s : State} (hc : s.cfg.wf) (hn : s.params.tapCount ≤ 256) : s.inv32 (redvBias s.cfg) := by
  obtain ⟨-, ⟨-, hshift⟩, -⟩ := hc
  have hbias : redvBias s.cfg < 2 ^ 14 :=
    (bias_range _).2.trans_le (pow_le_pow_right₀ (by norm_num) hshift)
  have hweight := s.mantWeight_le
  show s.mantWeight + redvBias s.cfg ≤ 2147483647
  omega

/-- Settles O47: the weight of the taps bounds their sum on both sides; 256 taps meet `INV32` with the reduction's bias. -/
theorem accumulatorsDoNotWrapUnderInv32 : Obligations.AccumulatorsDoNotWrapUnderInv32 :=
  ⟨fun _ k y x _ hb h => State.wrap32_weightedSum hb h k y x, fun _ x hc hn =>
    State.wrap32_weightedSum (bias_range _).1 (State.inv32_redvBias hc hn) .redv 0 x⟩

/-! ### 16-bit accumulators (R105, R112, R122) -/

theorem sat16_of_abs_le {v : Int} (h : |v| ≤ 32767) : sat16 v = v := by
  obtain ⟨hlo, hhi⟩ := abs_le.mp h
  exact sat16_of_range (by omega) hhi

/-- An accumulator with room for a pair sum saturates at neither step. -/
theorem sat16_add_sat16 {a p w : Int} (hp : |p| ≤ w) (h : |a| + w ≤ 32767) : sat16 (a + sat16 p) = a + p := by
  have ha := abs_nonneg a
  have hsum := abs_add_le a p
  rw [sat16_of_abs_le (by omega : |p| ≤ 32767), sat16_of_abs_le (by omega)]

/-- An accumulator with room for the weight of the remaining taps takes their exact sum. -/
theorem State.conv16Loop_exact (s : State) (y : BitVec 32) (x : Nat) :
    ∀ (n i : Nat) (a : Int), |a| + s.partialWeight i n ≤ 32767 →
      s.conv16Loop y x n i a = a + s.partialSum .conv16 y x i n
  | 0, i, a, _ => by simp [State.conv16Loop]
  | 1, i, a, h => by
    rw [State.partialWeight_succ, State.partialWeight_zero, add_zero] at h
    rw [State.partialSum_succ, State.partialSum_zero, add_zero]
    exact sat16_add_sat16 (abs_mul_sample_le _ _) h
  | n + 2, i, a, h => by
    rw [State.partialWeight_succ, State.partialWeight_succ, show i + 1 + 1 = i + 2 from rfl] at h
    have hpair : |s.mantAt i * s.tapSample .conv16 y x i + s.mantAt (i + 1) * s.tapSample .conv16 y x (i + 1)| ≤
        |s.mantAt i| * 255 + |s.mantAt (i + 1)| * 255 :=
      (abs_add_le _ _).trans (add_le_add (abs_mul_sample_le _ _) (abs_mul_sample_le _ _))
    have hrest := s.partialWeight_nonneg (i + 2) n
    have hsum := abs_add_le a
      (s.mantAt i * s.tapSample .conv16 y x i + s.mantAt (i + 1) * s.tapSample .conv16 y x (i + 1))
    rw [State.conv16Loop, sat16_add_sat16 hpair (by omega), State.conv16Loop_exact s y x n (i + 2) _ (by omega),
      State.partialSum_succ, State.partialSum_succ]
    ring

/-- Under `INV16` neither policy narrows an accumulator, so the two contracts are one (R122). -/
theorem State.conv16_eq_conv32 {s : State} (h : s.inv16 (bias s.params.e)) (y : BitVec 32) (x : Nat) :
    s.conv16 y x = s.conv32 y x := by
  have hw : s.mantWeight + bias s.params.e ≤ 32767 := h
  have hnonneg := s.mantWeight_nonneg
  have hb := (bias_range s.params.e).1
  have hstart : sat16 (bias s.params.e) = bias s.params.e := sat16_of_range (by omega) (by omega)
  have hnarrow : s.conv16Loop y x s.params.tapCount 0 (bias s.params.e) = bias s.params.e + s.weightedSum .conv16 y x := by
    rw [State.conv16Loop_exact, State.partialSum_all]
    rw [State.partialWeight_all, abs_of_nonneg hb]
    omega
  have hwide : wrap32 (bias s.params.e + s.weightedSum .conv32 y x) = bias s.params.e + s.weightedSum .conv32 y x :=
    State.wrap32_weightedSum hb (show s.mantWeight + bias s.params.e ≤ 2147483647 by omega) .conv32 y x
  rw [State.conv16, State.conv32, hstart, hnarrow, hwide]
  rfl

end Sys2Proof.Machine
end

section
/-! PROOFS. The identity convolution and the identity reduction (spec/40_tap_model_and_primitives.md R118, R124). -/

namespace Sys2Proof.Machine

theorem toByte_sample (b : Byte) : toByte (sample b) = b := by
  obtain ⟨h0, h255⟩ := sample_range b
  have hclamp : clampU8 (sample b) = sample b := by unfold clampU8; omega
  have hnat : ((toByte (sample b)).toNat : Int) = b.toNat := (toByte_toNat _).trans hclamp
  exact BitVec.eq_of_toNat_eq (by exact_mod_cast hnat)

/-- The bias of a multiple of `2^e` is shifted out whole. -/
theorem sra_bias_add_mul (e : Nat) (v : Int) : sra (bias e + 2 ^ e * v) e = v := by
  obtain ⟨h0, hlt⟩ := bias_range e
  rw [sra, Int.add_mul_ediv_left _ _ (by positivity), Int.ediv_eq_zero_of_lt h0 hlt, zero_add]

theorem State.weightedSum_of_one_tap {s : State} (h : s.params.tapCount = 1) (k : Kernel) (y : BitVec 32) (x : Nat) :
    s.weightedSum k y x = s.mantAt 0 * s.tapSample k y x 0 := by
  simp [State.weightedSum, h]

/-- A product `2^e * b` with its bias stays below `2^(e+8)`. -/
theorem bias_add_mul_sample_range (e : Nat) (b : Byte) :
    0 ≤ bias e + 2 ^ e * sample b ∧ bias e + 2 ^ e * sample b < 2 ^ e * 256 := by
  obtain ⟨h0, hlt⟩ := bias_range e
  obtain ⟨hs0, hs⟩ := sample_range b
  have hmul : (2 : Int) ^ e * sample b ≤ 2 ^ e * 255 := mul_le_mul_of_nonneg_left hs (by positivity)
  exact ⟨by positivity, by omega⟩

theorem wrap32_bias_add_mul_sample {e : Nat} (he : e ≤ 14) (b : Byte) :
    wrap32 (bias e + 2 ^ e * sample b) = bias e + 2 ^ e * sample b := by
  obtain ⟨h0, hlt⟩ := bias_add_mul_sample_range e b
  have hpow : (2 : Int) ^ e ≤ 2 ^ 14 := pow_le_pow_right₀ (by norm_num) he
  exact wrap32_of_range (by omega) (by omega)

/-! ### The reduction -/

/-- Settles O46: the one product fits 32 bits, and the shift undoes it. -/
theorem identityReduction : Obligations.IdentityReduction := by
  intro s x hc hn hm
  obtain ⟨-, ⟨-, hshift⟩, -⟩ := hc
  rw [State.redv, State.weightedSum_of_one_tap hn, hm, State.tapSample, redvBias, wrap32_bias_add_mul_sample hshift, outRed,
    sra_bias_add_mul]
  exact toByte_sample _

/-! ### The convolutions -/

/-- CONV.F's accumulator after one tap `2^e`: exact while it fits, else at the upper limit (R112). -/
theorem sat16_bias_add_mul_sample {e : Nat} (he : e ≤ 14) (b : Byte) :
    sat16 (sat16 (bias e) + sat16 (2 ^ e * sample b)) = min 32767 (bias e + 2 ^ e * sample b) := by
  obtain ⟨h0, hlt⟩ := bias_range e
  have hpow : (2 : Int) ^ e ≤ 2 ^ 14 := pow_le_pow_right₀ (by norm_num) he
  have hmul : 0 ≤ (2 : Int) ^ e * sample b := mul_nonneg (by positivity) (sample_range b).1
  unfold sat16
  omega

theorem two_pow_mul_two_pow_sub {e : Nat} (he : e ≤ 15) : (2 : Int) ^ e * 2 ^ (15 - e) = 32768 := by
  rw [← pow_add, Nat.add_sub_cancel' he]
  norm_num

theorem sra_max_sat16 {e : Nat} (he : e ≤ 15) : sra 32767 e = 2 ^ (15 - e) - 1 := by
  have hsplit := two_pow_mul_two_pow_sub he
  have hpos : (1 : Int) ≤ 2 ^ e := one_le_pow₀ (by norm_num)
  rw [sra, Int.ediv_eq_iff_of_pos (by positivity)]
  constructor <;> linarith

section
variable {s : State} {y : BitVec 32} {x : Nat} (hn : s.params.tapCount = 1) (hm : s.mantAt 0 = 2 ^ s.params.e)
  (ho : s.offAt 0 = 0#32) (hoff : s.params.outOffset = 0#32) (he : s.params.e ≤ 14)
include hn hm ho hoff he

theorem State.conv32_identity : s.conv32 y x = s.byteAt (aIn s.params y x) := by
  rw [State.conv32, State.weightedSum_of_one_tap hn, hm, State.tapSample, wrap32_bias_add_mul_sample he, outConv,
    sra_bias_add_mul]
  simp [State.srcAddr, ho, Params.off, hoff, toByte_sample]

/-- CONV.F shifts the exact value, or the upper limit of its accumulator where that is smaller. -/
theorem State.conv16_one_tap :
    s.conv16 y x =
      toByte (sra (min 32767 (bias s.params.e + 2 ^ s.params.e * sample (s.byteAt (aIn s.params y x)))) s.params.e) := by
  rw [State.conv16, hn]
  simp only [State.conv16Loop, hm, State.tapSample, State.srcAddr, ho, BitVec.add_zero]
  rw [sat16_bias_add_mul_sample he, outConv]
  simp [Params.off, hoff]

/-- Below `2^(15-e)` the accumulator does not saturate. -/
theorem State.conv16_identity (hb : sample (s.byteAt (aIn s.params y x)) < 2 ^ (15 - s.params.e)) :
    s.conv16 y x = s.byteAt (aIn s.params y x) := by
  have hsplit := two_pow_mul_two_pow_sub (e := s.params.e) (by omega)
  have hmul := mul_le_mul_of_nonneg_left (Int.add_one_le_of_lt hb) (by positivity : (0 : Int) ≤ 2 ^ s.params.e)
  have hbias := (bias_range s.params.e).2
  rw [State.conv16_one_tap hn hm ho hoff he, min_eq_right (by linarith), sra_bias_add_mul, toByte_sample]

/-- From `2^(15-e)` on the accumulator stands at 32767, whose quotient is `2^(15-e) - 1`. -/
theorem State.conv16_saturated (h8 : 8 ≤ s.params.e)
    (hb : 2 ^ (15 - s.params.e) ≤ sample (s.byteAt (aIn s.params y x))) :
    ((s.conv16 y x).toNat : Int) = 2 ^ (15 - s.params.e) - 1 := by
  have hsplit := two_pow_mul_two_pow_sub (e := s.params.e) (by omega)
  have hmul := mul_le_mul_of_nonneg_left hb (by positivity : (0 : Int) ≤ 2 ^ s.params.e)
  have hbias := (bias_range s.params.e).1
  have hlo : (1 : Int) ≤ 2 ^ (15 - s.params.e) := one_le_pow₀ (by norm_num)
  have hhi : (2 : Int) ^ (15 - s.params.e) ≤ 2 ^ 7 := pow_le_pow_right₀ (by norm_num) (by omega)
  rw [State.conv16_one_tap hn hm ho hoff he, min_eq_left (by linarith), sra_max_sat16 (by omega), toByte_toNat]
  unfold clampU8
  omega

end

/-- A byte is below `2^8`, which is at most `2^(15-e)` up to exponent 7. -/
theorem sample_lt_two_pow_of_le_seven {e : Nat} (he : e ≤ 7) (b : Byte) : sample b < 2 ^ (15 - e) :=
  (Int.lt_add_one_of_le (sample_range b).2).trans_le
    (show (2 : Int) ^ 8 ≤ 2 ^ (15 - e) from pow_le_pow_right₀ (by norm_num) (by omega))

/-- Settles O45: CONV.V never wraps on one such tap; CONV.F saturates exactly from `2^(15-e)` on. -/
theorem identityConvolution : Obligations.IdentityConvolution := by
  intro s y x hn hm ho hoff he
  refine ⟨State.conv32_identity hn hm ho hoff he, fun _ h7 => ?_, fun h8 hb => ?_, fun h8 hb => ?_⟩
  · exact State.conv16_identity hn hm ho hoff he (sample_lt_two_pow_of_le_seven h7 _)
  · exact State.conv16_identity hn hm ho hoff he (by unfold sample; exact_mod_cast hb)
  · have hb' : 2 ^ (15 - s.params.e) ≤ sample (s.byteAt (aIn s.params y x)) := by unfold sample; exact_mod_cast hb
    have hval := State.conv16_saturated hn hm ho hoff he h8 hb'
    unfold sample at hb'
    omega

end Sys2Proof.Machine
end

section
/-! PROOFS. What an operation leaves in memory (spec/40_tap_model_and_primitives.md R120, R122, R125): the contract's value at
every destination and the old byte elsewhere, which no lane count, no policy and no other byte of memory enters. -/

namespace Sys2Proof.Machine

/-! ### The memory an operation leaves -/

/-- `t` holds the contract's value at every destination of the operation begun in `s`, and every other byte of `s`. -/
structure StoresColumns (s : State) (k : Kernel) (t : State) : Prop where
  column : ∀ y ∈ s.rowsOf k, ∀ x < s.params.columns, t.byteAt (k.dst s.params y x) = s.column k y x
  other : ∀ a, ¬ s.outputs k a → t.byteAt a = s.byteAt a

theorem Mid.storesColumns {s u : State} {k : Kernel} (hs : s.separate k)
    (h : Mid (s.separate k) (s.outputs k) (s.outputValue k) s (s.accesses k) u) : StoresColumns s k u.retire where
  column _ hy _ hx := (h.vals hs _ (State.dst_written hy hx)).trans (State.outputValue_eq hs.2 hy hx)
  other a ha := h.frame.bytes a fun hm => ha (h.sub a hm)

/-- Under the premises of a result claim an operation command completes and stores its columns (R131, R151, R174). -/
theorem exec_storesColumns {s : State} {i : Instr} {k : Kernel} (hi : kernelOf i = some k) (hcode : s.codeLatched k)
    (hc : s.cfg.wf) (hr : s.resetAfter = none) (ht : s.tapsWritten k) (hg : s.grants (s.accesses k))
    (hs : s.separate k) : ∃ t, exec i s = .next t ∧ StoresColumns s k t := by
  obtain ⟨f, hexec, hf⟩ := exec_operation hi hcode hc ht
  obtain ⟨u, rfl, hu, -⟩ := hf.completes hr hg
  exact ⟨u.retire, hexec, hu.storesColumns hs⟩

theorem StoresColumns.byteAt_eq {s t u : State} {k : Kernel} (ht : StoresColumns s k t) (hu : StoresColumns s k u)
    (a : Addr) : t.byteAt a = u.byteAt a := by
  by_cases ha : s.outputs k a
  · obtain ⟨y, hy, x, hx, rfl⟩ := ha
    rw [ht.column y hy x hx, hu.column y hy x hx]
  · rw [ht.other a ha, hu.other a ha]

/-! ### Lane counts and policies -/

/-- The contract of CONV.V names no capability code (R120). -/
theorem StoresColumns.of_withCap {s t : State} {c : Cap} (h : StoresColumns { s with cap := c } .conv32 t) :
    StoresColumns s .conv32 t :=
  ⟨h.column, h.other⟩

/-- Settles O35: under either code the machine stores the columns of `s`, whose values name no code. -/
theorem laneCountChangesNoByte : Obligations.LaneCountChangesNoByte := by
  rintro s s1 s2 l1 l2 rfl rfl hc hr ht hg1 hg2 hs
  obtain ⟨t1, h1, hm1⟩ := exec_storesColumns (s := { s with cap := ⟨true, l1⟩ }) (i := .convV) rfl (fun _ => rfl) hc hr ht
    hg1 hs
  obtain ⟨t2, h2, hm2⟩ := exec_storesColumns (s := { s with cap := ⟨true, l2⟩ }) (i := .convV) rfl (fun _ => rfl) hc hr ht
    hg2 hs
  exact ⟨t1, t2, h1, h2, hm1.of_withCap.byteAt_eq hm2.of_withCap⟩

/-- The two convolutions write the same destinations, and under `INV16` the same values (R122). -/
theorem StoresColumns.conv32_of_conv16 {s t : State} (hinv : s.inv16 (bias s.params.e))
    (h : StoresColumns s .conv16 t) : StoresColumns s .conv32 t where
  column y hy x hx := (h.column y hy x hx).trans (State.conv16_eq_conv32 hinv y x)
  other := h.other

/-- Settles O36: under `INV16` the columns CONV.F stores are those of CONV.V. -/
theorem policiesAgreeUnderInv16 : Obligations.PoliciesAgreeUnderInv16 := by
  intro s hc hv hr ht hgV hgF hs hinv
  have htF : s.tapsWritten .conv16 := fun i hi => ⟨fun _ => (ht i hi).1 (by decide), (ht i hi).2⟩
  obtain ⟨t, hexecV, hmV⟩ := exec_storesColumns (i := .convV) rfl (fun _ => hv) hc hr ht hgV hs
  obtain ⟨u, hexecF, hmF⟩ := exec_storesColumns (i := .convF) rfl (fun h => by cases h) hc hr htF hgF hs
  exact ⟨t, u, hexecV, hexecF, hmV.byteAt_eq (hmF.conv32_of_conv16 hinv)⟩

/-! ### Determinism -/

/-- The same taps on the same samples give the same accumulator. -/
theorem State.colLoop_congr {s s' : State} {k : Kernel} {y : BitVec 32} {x : Nat}
    (hmant : ∀ j, s'.mantAt j = s.mantAt j) :
    ∀ (n i : Nat) (a : Int), (∀ j, j < i + n → s'.tapSample k y x j = s.tapSample k y x j) →
      s'.colLoop k y x n i a = s.colLoop k y x n i a
  | 0, _, _, _ => rfl
  | 1, i, a, h => by simp only [State.colLoop, hmant, h i (by omega)]
  | n + 2, i, a, h => by
    simp only [State.colLoop, hmant, h i (by omega), h (i + 1) (by omega)]
    exact State.colLoop_congr hmant n (i + 2) _ fun j hj => h j (by omega)

/-- A column's value depends on the parameters, the taps, the build and its own samples (R125). -/
theorem State.column_congr {s s' : State} {k : Kernel} {y : BitVec 32} {x : Nat} (hcfg : s'.cfg = s.cfg)
    (hparams : s'.params = s.params) (hmant : ∀ j, s'.mantAt j = s.mantAt j)
    (hsample : ∀ j < s.params.tapCount, s'.tapSample k y x j = s.tapSample k y x j) :
    s'.column k y x = s.column k y x := by
  rw [← State.out_colLoop, ← State.out_colLoop, hcfg, hparams,
    State.colLoop_congr hmant _ 0 _ fun j hj => hsample j (by omega)]

/-- The operands of `s`, everything else from `e`. -/
def State.withOperandsOf (e s : State) : State :=
  { e with cfg := s.cfg, params := s.params, cap := s.cap, taps := s.taps }

theorem State.eq_withOperandsOf {s s' : State} (hcfg : s'.cfg = s.cfg) (hparams : s'.params = s.params)
    (hcap : s'.cap = s.cap) (htaps : s'.taps = s.taps) : s' = s'.withOperandsOf s := by
  rw [State.withOperandsOf, ← hcfg, ← hparams, ← hcap, ← htaps]

/-- Settles O42: the second machine has the operands of `s`, so its addresses, accesses and premises are those of `s`; both
machines store their columns, which agree because their samples do. -/
theorem resultsDependOnlyOnSourceBytes : Obligations.ResultsDependOnlyOnSourceBytes := by
  intro s s' i k hi hcode hc hr hr' hcfg hparams hcap htaps ht hg hs hbytes
  obtain ⟨e, rfl⟩ : ∃ e : State, s' = e.withOperandsOf s := ⟨s', State.eq_withOperandsOf hcfg hparams hcap htaps⟩
  obtain ⟨t, hexec, hm⟩ := exec_storesColumns hi hcode hc hr ht hg hs
  obtain ⟨t', hexec', hm'⟩ := exec_storesColumns (s := e.withOperandsOf s) hi hcode hc hr' ht hg hs
  refine ⟨t, t', hexec, hexec', fun y hy x hx => ?_⟩
  have hcolumn : (e.withOperandsOf s).column k y x = s.column k y x :=
    State.column_congr rfl rfl (fun _ => rfl) fun j hj => congrArg sample (hbytes y hy x hx j hj)
  calc t'.byteAt (k.dst s.params y x) = (e.withOperandsOf s).column k y x := hm'.column y hy x hx
    _ = s.column k y x := hcolumn
    _ = t.byteAt (k.dst s.params y x) := (hm.column y hy x hx).symm

end Sys2Proof.Machine
end

section
/-! PROOFS. The loops of an operation (spec/41_conv_vector.md R132, R135, R136, R140; spec/42_conv_fixed.md R152, R158;
spec/43_reducev.md R172, R177): the columns of a row's blocks, an operation with nothing to do, and the number of accesses. -/

namespace Sys2Proof.Machine

/-! ### The columns of the blocks (R132, R152, R172) -/

/-- The columns of a block, left to right. -/
def Block.columns (b : Block) : List Nat := (List.range b.w).map (b.x + ·)

/-- A run of adjacent blocks covers consecutive columns. -/
theorem blocksFrom_columns (x w n : Nat) : (blocksFrom x w n).flatMap Block.columns = List.range' x (n * w) := by
  induction n with
  | zero => simp [blocksFrom]
  | succ n ih =>
    have hsplit : blocksFrom x w (n + 1) = blocksFrom x w n ++ [⟨x + n * w, w⟩] := by
      simp [blocksFrom, List.range_succ]
    rw [hsplit, List.flatMap_append, ih, Nat.succ_mul, ← List.range'_append_1]
    simp [Block.columns, List.range'_eq_map_range]

theorem blocksV_columns (n ne : Nat) : (blocksV n ne).flatMap Block.columns = List.range ne := by
  have htail := List.range'_append_1 (s := 0) (m := ne / n * n) (n := ne % n)
  rw [Nat.zero_add, Nat.div_add_mod'] at htail
  rw [blocksV, List.flatMap_append, blocksFrom_columns, blocksFrom_columns, Nat.mul_one, htail, List.range_eq_range']

theorem blocks821_columns (ne : Nat) : (blocks821 ne).flatMap Block.columns = List.range ne := by
  have hpairs := List.range'_append_1 (s := 0) (m := ne / 8 * 8) (n := ne % 8 / 2 * 2)
  have hlast := List.range'_append_1 (s := 0) (m := ne / 2 * 2) (n := ne % 2)
  rw [Nat.zero_add, show ne / 8 * 8 + ne % 8 / 2 * 2 = ne / 2 * 2 by omega] at hpairs
  rw [Nat.zero_add, Nat.div_add_mod'] at hlast
  rw [blocks821, List.flatMap_append, List.flatMap_append, blocksFrom_columns, blocksFrom_columns, blocksFrom_columns,
    Nat.mul_one, hpairs, hlast, List.range_eq_range']

/-- Settles O50: each width's blocks cover consecutive columns, and each run begins where the one before it ends. -/
theorem blocksPartitionTheRow : Obligations.BlocksPartitionTheRow :=
  ⟨fun c ne => blocksV_columns c.lanes ne, blocks821_columns⟩

/-! ### Nothing to do (R135, R136, R172) -/

/-- The part goes on and changes the sequencer position only. -/
def MovesOnly (s : State) (f : Flow Unit) : Prop := ∃ q : Seq, f = .go () { s with seq := q }

theorem MovesOnly.each {β : Type} {body : β → State → Flow Unit} (hb : ∀ b s, MovesOnly s (body b s)) :
    ∀ (l : List β) (s : State), MovesOnly s (Flow.each l body s)
  | [], s => ⟨s.seq, rfl⟩
  | b :: l, s => by
    obtain ⟨q, hq⟩ := hb b s
    rw [Flow.each, hq]
    exact MovesOnly.each hb l { s with seq := q }

/-- A row without blocks (R136). -/
theorem runRow_nil_movesOnly (k : Kernel) (p : Params) (r : Nat) (s : State) : MovesOnly s (runRow k p [] r s) :=
  ⟨_, rfl⟩

theorem blocksV_zero (n : Nat) : blocksV n 0 = [] := by simp [blocksV, blocksFrom]

theorem blocks821_zero : blocks821 0 = [] := rfl

theorem blocksOf_eq_nil {s : State} (h : s.params.ne = 0#32) (k : Kernel) : s.blocksOf k = [] := by
  have hc : s.params.columns = 0 := congrArg BitVec.toNat h
  cases k
  · rw [State.blocksOf, hc, blocksV_zero]
  · rw [State.blocksOf, hc, blocks821_zero]
  · rw [State.blocksOf, hc, blocks821_zero]

/-- A convolution without rows or without blocks. -/
theorem convolution_movesOnly (k : Kernel) {s : State}
    (h : s.params.rectHeight.toInt ≤ 0 ∨ s.params.ne = 0#32) :
    MovesOnly s
      (Flow.each (List.range s.params.rows) (runRow k s.params (s.blocksOf k)) (s.beginOperation (s.params.rowY 0))) := by
  obtain h | h := h
  · have hrows : s.params.rows = 0 := Int.toNat_of_nonpos h
    rw [hrows]
    exact ⟨_, rfl⟩
  · rw [blocksOf_eq_nil h]
    exact MovesOnly.each (runRow_nil_movesOnly k s.params) _ (s.beginOperation (s.params.rowY 0))

/-- A reduction without columns. -/
theorem reduction_movesOnly {s : State} (h : s.params.ne = 0#32) :
    MovesOnly s (Flow.each (s.blocksOf .redv) (runBlock .redv s.params 0) (s.beginOperation 0)) := by
  rw [blocksOf_eq_nil h]
  exact ⟨_, rfl⟩

theorem exec_convV_of_valid {s : State} (h : s.cap.valid = true) :
    exec .convV s = runConvolution .conv32 (s.blocksOf .conv32) s := by
  simp only [exec, execConvV, h, Bool.true_eq_false, if_false]
  rfl

theorem exec_movesOnly {s : State} {i : Instr} {k : Kernel} (hi : kernelOf i = some k) (hcode : s.codeLatched k)
    (h : (k ≠ .redv ∧ s.params.rectHeight.toInt ≤ 0) ∨ s.params.ne = 0#32) :
    ∃ f, exec i s = f.finish ∧ MovesOnly s f := by
  cases i <;> simp only [kernelOf, reduceCtorEq, Option.some.injEq] at hi <;> subst hi
  case convV => exact ⟨_, exec_convV_of_valid (hcode rfl), convolution_movesOnly .conv32 (h.imp_left And.right)⟩
  case convF => exact ⟨_, rfl, convolution_movesOnly .conv16 (h.imp_left And.right)⟩
  case redv256 => exact ⟨_, rfl, reduction_movesOnly (h.resolve_left fun h => h.1 rfl)⟩
  case redv128 => exact ⟨_, rfl, reduction_movesOnly (h.resolve_left fun h => h.1 rfl)⟩

/-- Settles O40: the loops have no row or no block to run, so only the sequencer position moves. -/
theorem emptyOperationTouchesNothing : Obligations.EmptyOperationTouchesNothing := by
  intro s i k hi hcode h
  obtain ⟨f, hexec, q, rfl⟩ := exec_movesOnly hi hcode h
  exact ⟨_, hexec, rfl, rfl, rfl, rfl, rfl, rfl, rfl, rfl, rfl⟩

/-! ### The number of accesses (R140, R158, R177) -/

/-- The command retires after `n` accesses, its fault record as it was. -/
def RetiresAfter (s : State) (n : Nat) (o : Host.Outcome State Fault Refusal) : Prop :=
  ∃ t, o = .next t ∧ t.seq.busy = false ∧ t.fault = s.fault ∧ t.bus.length = s.bus.length + n

theorem Goes.finish {s : State} {n : Nat} {f : Flow Unit} (h : Goes s n f) : RetiresAfter s n f.finish := by
  obtain ⟨_, t, rfl, hbus, -, -, hfault⟩ := h
  exact ⟨t.retire, rfl, rfl, hfault, hbus⟩

theorem runConvolution_retiresAfter (k : Kernel) (blocks : List Block) {s : State} (h : s.undisturbed) :
    RetiresAfter s (s.params.rows * blocks.length * (s.params.tapCount + 1)) (runConvolution k blocks s) := by
  have hrows := each_goes (runRow_goes k s.params blocks) (List.range s.params.rows) _
    (beginOperation_undisturbed (s.params.rowY 0) h)
  rw [List.length_range, ← Nat.mul_assoc] at hrows
  exact (hrows.start rfl rfl rfl).finish

theorem runReduction_retiresAfter {s : State} (h : s.undisturbed) :
    RetiresAfter s ((blocks821 s.params.columns).length * (s.params.tapCount + 1)) (runReduction s) := by
  have hblocks := each_goes (runBlock_goes .redv s.params 0) (blocks821 s.params.columns) _
    (beginOperation_undisturbed 0 h)
  exact (hblocks.start rfl rfl rfl).finish

/-- Settles O25: every block makes `nnz + 1` accesses, so an operation makes as many as its blocks do. -/
theorem operationsCompleteAfterTheirAccesses : Obligations.OperationsCompleteAfterTheirAccesses := by
  intro s hr hg
  have hconv := fun k => runConvolution_retiresAfter k (blocks821 s.params.columns) ⟨hr, hg⟩
  have hred := runReduction_retiresAfter (s := s) ⟨hr, hg⟩
  rw [blocks821_length] at hred
  simp only [blocks821_length] at hconv
  refine ⟨fun hv => ?_, hconv .conv16, hred, hred⟩
  have hvec := runConvolution_retiresAfter .conv32 (blocksV s.cap.lanes s.params.columns) ⟨hr, hg⟩
  rw [blocksV_length] at hvec
  rw [exec_convV_of_valid hv]
  exact hvec

end Sys2Proof.Machine
end

section
/-! PROOFS. What the convolutions leave in memory (spec/41_conv_vector.md R131, R137; spec/42_conv_fixed.md R157;
spec/43_reducev.md R176): the contract's value at every destination, and the clamped offset where there are no taps. -/

namespace Sys2Proof.Machine

/-! ### CONV.V (R131) -/

theorem rowY_mem_rowsOf_conv32 {s : State} {r : Nat} (hr : r < s.params.rows) : s.params.rowY r ∈ s.rowsOf .conv32 :=
  List.mem_map_of_mem (List.mem_range.mpr hr)

theorem not_outputs_conv32 {s : State} {a : Addr}
    (h : ∀ r < s.params.rows, ∀ x < s.params.columns, aOut s.params (s.params.rowY r) x ≠ a) : ¬ s.outputs .conv32 a := by
  rintro ⟨y, hy, x, hx, e⟩
  obtain ⟨r, hr, rfl⟩ := List.mem_map.mp hy
  exact h r (List.mem_range.mp hr) x hx e

/-- Settles O27: the operation is a sequence of its accesses that runs to its end, with the columns stored and the frame
kept. -/
theorem convVStoresConv32 : Obligations.ConvVStoresConv32 := by
  intro s hc hv hr ht hg hs
  obtain ⟨f, hexec, hf⟩ := exec_operation (i := .convV) rfl (fun _ => hv) hc ht
  obtain ⟨u, rfl, hu, -⟩ := hf.completes hr hg
  have hmem := hu.storesColumns hs
  exact ⟨u.retire, hexec, fun r hr x hx => hmem.column _ (rowY_mem_rowsOf_conv32 hr) x hx,
    fun a ha => hmem.other a (not_outputs_conv32 ha),
    hu.frame.cfg, hu.frame.params, hu.frame.cap, hu.frame.taps, hu.frame.fault, hu.frame.cmds, hu.free, rfl⟩

/-! ### An operation from its blocks -/

section
variable {D : Prop} {W : Addr → Prop} {V : Addr → Byte} {s : State} {k : Kernel}

/-- Every block of the operation makes its accesses in order, and leaves the values `V` at its destinations where `D` holds. -/
def BlocksCarry (D : Prop) (W : Addr → Prop) (V : Addr → Byte) (s : State) (k : Kernel) : Prop :=
  ∀ y ∈ s.rowsOf k, ∀ b ∈ s.blocksOf k, ∀ P u, Mid D W V s P u →
    Carries D W V s P (s.blockAccesses k y b) (fun _ _ => True) (runBlock k s.params y b u)

theorem BlocksCarry.row (hb : BlocksCarry D W V s k) {r : Nat} (hr : s.params.rowY r ∈ s.rowsOf k) {P : List Access}
    {u : State} (h : Mid D W V s P u) :
    Carries D W V s P ((s.blocksOf k).flatMap fun b => s.blockAccesses k (s.params.rowY r) b) (fun _ _ => True)
      (runRow k s.params (s.blocksOf k) r u) := by
  have hbegin : Mid D W V s P (u.beginRow s.params r) := h.move (fun A => Frame.beginRow A _ r u) rfl rfl rfl
  have hblocks := Carries.each _ P _ hbegin fun b hm P t ht => hb _ hr b hm P t ht
  rw [← List.append_nil (List.flatMap _ _)]
  exact hblocks.andThen fun _ t ht _ => Carries.pure (ht.move (fun A => Frame.endRow A r t) rfl rfl rfl) trivial

theorem BlocksCarry.convolution (hb : BlocksCarry D W V s k)
    (hk : s.rowsOf k = (List.range s.params.rows).map s.params.rowY) :
    Carries D W V s [] (s.accesses k) (fun _ _ => True)
      (Flow.each (List.range s.params.rows) (runRow k s.params (s.blocksOf k)) (s.beginOperation (s.params.rowY 0))) := by
  rw [State.accesses, State.accessesOf_rows, hk, List.flatMap_map]
  exact Carries.each _ [] _ (Mid.begin D W V _ s) fun r hr P t ht => hb.row (by rw [hk]; exact List.mem_map_of_mem hr) ht

theorem BlocksCarry.reduction (hb : BlocksCarry D W V s .redv) :
    Carries D W V s [] (s.accesses .redv) (fun _ _ => True)
      (Flow.each (s.blocksOf .redv) (runBlock .redv s.params 0) (s.beginOperation 0)) := by
  rw [State.accesses, State.accessesOf_rows, State.rowsOf, List.flatMap_singleton]
  exact Carries.each _ [] _ (Mid.begin D W V _ s) fun b hm P t ht => hb 0 (List.mem_singleton_self 0) b hm P t ht

theorem BlocksCarry.exec (hb : BlocksCarry D W V s k) {i : Instr} (hi : kernelOf i = some k) (hcode : s.codeLatched k) :
    ∃ f, exec i s = f.finish ∧ Carries D W V s [] (s.accesses k) (fun _ _ => True) f := by
  cases i <;> simp only [kernelOf, reduceCtorEq, Option.some.injEq] at hi <;> subst hi
  case convV => exact ⟨_, exec_convV_of_valid (hcode rfl), hb.convolution rfl⟩
  case convF => exact ⟨_, rfl, hb.convolution rfl⟩
  case redv256 => exact ⟨_, rfl, hb.reduction⟩
  case redv128 => exact ⟨_, rfl, hb.reduction⟩

end

/-! ### No taps (R137, R157, R176) -/

/-- The byte an operation without taps stores everywhere. -/
def State.noTapsByte (s : State) (k : Kernel) : Byte :=
  if k = .redv then 0#8 else toByte s.params.outOffset.toInt

/-- The shift by `e` takes away everything below `2^e`. -/
theorem sra_eq_zero {v : Int} {e : Nat} (h : 0 ≤ v) (h' : v < 2 ^ e) : sra v e = 0 := Int.ediv_eq_zero_of_lt h h'

theorem sra_wrap32_bias {e : Nat} (he : e ≤ 31) : sra (wrap32 (bias e)) e = 0 := by
  obtain ⟨h, h'⟩ := bias_range e
  have hmax : (2 : Int) ^ e ≤ 2 ^ 31 := pow_le_pow_right₀ (by decide) he
  rw [wrap32_of_range (by omega) (by omega)]
  exact sra_eq_zero h h'

theorem sra_sat16_bias (e : Nat) : sra (sat16 (bias e)) e = 0 := by
  obtain ⟨h, h'⟩ := bias_range e
  have hsat : 0 ≤ sat16 (bias e) ∧ sat16 (bias e) ≤ bias e := by unfold sat16; omega
  exact sra_eq_zero hsat.1 (by omega)

section
variable {s : State} (hn : s.params.nnz = 0#32)
include hn

theorem State.tapCount_eq_zero : s.params.tapCount = 0 := congrArg BitVec.toNat hn

theorem State.weightedSum_of_no_taps (k : Kernel) (y : BitVec 32) (x : Nat) : s.weightedSum k y x = 0 := by
  rw [State.weightedSum, State.tapCount_eq_zero hn]
  rfl

/-- Without taps a column is the output stage of the rounding bias alone, which the shift takes away. -/
theorem State.column_of_no_taps (hc : s.cfg.wf) (he : s.params.exponent.toNat ≤ 31) (k : Kernel) (y : BitVec 32)
    (x : Nat) : s.column k y x = s.noTapsByte k := by
  cases k
  · simp only [State.column, State.conv32, State.weightedSum_of_no_taps hn, add_zero, outConv]
    rw [sra_wrap32_bias (e := s.params.e) he, zero_add]
    rfl
  · simp only [State.column, State.conv16, State.tapCount_eq_zero hn, State.conv16Loop, outConv]
    rw [sra_sat16_bias, zero_add]
    rfl
  · obtain ⟨-, ⟨-, hshift⟩, -⟩ := hc
    simp only [State.column, State.redv, State.weightedSum_of_no_taps hn, add_zero, outRed, redvBias]
    rw [sra_wrap32_bias (by omega)]
    rfl

/-- Without taps nothing is read, so nothing is asked of the source bytes or of the destinations. -/
theorem blocksCarry_of_no_taps (hc : s.cfg.wf) (he : s.params.exponent.toNat ≤ 31) (k : Kernel) :
    BlocksCarry True (s.outputs k) (fun _ => s.noTapsByte k) s k := by
  intro y hy b hb P u h
  obtain ⟨hrow, hload⟩ := blocksOf_fit hc hb
  have hcolumns : s.params.columns < 2 ^ 32 := s.params.ne.isLt
  have hnone : ∀ j, ¬ j < s.params.tapCount := fun j => by rw [State.tapCount_eq_zero hn]; exact Nat.not_lt_zero j
  exact runBlock_carries hload (by omega) (fun j hj => (hnone j hj).elim) (fun _ j hj => (hnone j hj).elim)
    (fun c hc => ⟨y, hy, b.x + c, by omega, rfl⟩) (fun _ c _ => (State.column_of_no_taps hn hc he k y (b.x + c)).symm) h

theorem accesses_write_of_no_taps {k : Kernel} {x : Access} (hx : x ∈ s.accesses k) : x.kind = .write := by
  rw [State.accesses, State.accessesOf_rows] at hx
  simp only [State.blockAccesses, State.tapCount_eq_zero hn, List.range_zero, List.map_nil, List.nil_append,
    List.mem_flatMap, List.mem_singleton] at hx
  obtain ⟨_, _, _, _, rfl⟩ := hx
  rfl

end

/-- Settles O41: every block stores the same byte, so overlapping destinations do not matter, and its only access is its
write. -/
theorem noTapsWriteTheClampedOffset : Obligations.NoTapsWriteTheClampedOffset := by
  intro s i k hi hcode hc hr he hn hg
  obtain ⟨f, hexec, hf⟩ := (blocksCarry_of_no_taps hn hc he k).exec hi hcode
  obtain ⟨u, rfl, hu, -⟩ := hf.completes hr hg
  refine ⟨u.retire, hexec, fun a ha => ?_, _, hu.bus, fun x hx => accesses_write_of_no_taps hn (List.mem_reverse.mp hx)⟩
  obtain ⟨y, hy, x, hx, rfl⟩ := ha
  have hbyte : u.byteAt (k.dst s.params y x) = s.noTapsByte k := hu.vals trivial _ (State.dst_written hy hx)
  exact ⟨fun hk => hbyte.trans (if_neg hk), fun hk => hbyte.trans (if_pos hk)⟩

end Sys2Proof.Machine
end

section
/-! PROOFS. The merge strategy (spec/41_conv_vector.md R139): two runs from states that differ in it stay in step. -/

namespace Sys2Proof.Machine

/-! ### States that differ in the merge strategy only -/

/-- `s` in a build with the merge strategy `m`. -/
def State.withMerge (s : State) (m : MergeStrategy) : State := { s with cfg := { s.cfg with merge := m } }

/-- `s'` is `s` but for its merge strategy, which is `m`. -/
def SameButMerge (m : MergeStrategy) (s s' : State) : Prop := s' = s.withMerge m

section
variable (s : State) (m : MergeStrategy)

theorem storeBytes_withMerge (bs : List Byte) (a : Addr) :
    storeBytes a bs (s.withMerge m) = (storeBytes a bs s).withMerge m := by
  induction bs generalizing a s with
  | nil => rfl
  | cons b bs ih => exact ih (s.storeByte a b) (a + 1#32)

theorem readOff_withMerge (i : Nat) :
    readOff i (s.withMerge m) = ((readOff i s).1, (readOff i s).2.withMerge m) := by
  have htap : (s.withMerge m).tapAt i = s.tapAt i := rfl
  unfold readOff
  rw [htap]
  split <;> rfl

theorem readMant_withMerge (i : Nat) :
    readMant i (s.withMerge m) = ((readMant i s).1, (readMant i s).2.withMerge m) := by
  have htap : (s.withMerge m).tapAt i = s.tapAt i := rfl
  unfold readMant
  rw [htap]
  split <;> rfl

theorem readMantPair_withMerge (i : Nat) :
    readMantPair i (s.withMerge m) = ((readMantPair i s).1, (readMantPair i s).2.withMerge m) := by
  simp only [readMantPair, readMantw, readMant_withMerge]

theorem tapSrc_withMerge (k : Kernel) (p : Params) (y : BitVec 32) (x i : Nat) :
    k.tapSrc p y x i (s.withMerge m) = ((k.tapSrc p y x i s).1, (k.tapSrc p y x i s).2.withMerge m) := by
  cases k
  · simp only [Kernel.tapSrc, readOff_withMerge]
  · simp only [Kernel.tapSrc, readOff_withMerge]
  · rfl

theorem loadBytes_withMerge (k : Kernel) (w : Nat) : k.loadBytes (s.withMerge m).cfg w = k.loadBytes s.cfg w := by
  cases k <;> rfl

theorem beginBlock_withMerge (k : Kernel) (p : Params) (b : Block) :
    (s.withMerge m).beginBlock k p b = (s.beginBlock k p b).withMerge m := by
  cases k <;> rfl

/-- Either merge puts the lanes back in order (`mergeLanes_eq`): the one place that reads the strategy. -/
theorem results_withMerge (k : Kernel) (p : Params) (acc : AccFile) :
    k.results (s.withMerge m).cfg p acc = k.results s.cfg p acc := by
  cases k
  · simp only [Kernel.results, mergeLanes_eq]
    rfl
  · rfl
  · rfl

/-! ### The parts of an operation, run under either strategy -/

theorem issue_withMerge (x : Access) : Flow.Alike (SameButMerge m) (issue x s) (issue x (s.withMerge m)) := by
  have hr : (s.withMerge m).resetAfter = s.resetAfter := rfl
  have ha : x.answered (s.withMerge m).cfg = x.answered s.cfg := rfl
  have hb : x.backed (s.withMerge m).cfg = x.backed s.cfg := by
    obtain ⟨kind, _, _⟩ := x
    cases kind <;> rfl
  unfold issue
  rw [hr, ha, hb]
  split
  · exact .stop (.next rfl)
  · split
    · exact .stop (.fault _)
    · split
      · exact .stop (.next rfl)
      · exact .go () rfl

theorem memRead_withMerge (a : Addr) (n : Nat) :
    Flow.Alike (SameButMerge m) (memRead a n s) (memRead a n (s.withMerge m)) :=
  (issue_withMerge s m _).andThen fun _ _ _ ht => ht ▸ .go _ rfl

theorem memWrite_withMerge (a : Addr) (bs : List Byte) :
    Flow.Alike (SameButMerge m) (memWrite a bs s) (memWrite a bs (s.withMerge m)) :=
  (issue_withMerge s m _).andThen fun _ t _ ht => ht ▸ .go () (storeBytes_withMerge t m bs a)

theorem tapPair_withMerge (k : Kernel) (p : Params) (y : BitVec 32) (b : Block) (i : Nat) :
    Flow.Alike (SameButMerge m) (tapPair k p y b i s) (tapPair k p y b i (s.withMerge m)) := by
  unfold tapPair
  simp only [tapSrc_withMerge, loadBytes_withMerge]
  refine (memRead_withMerge _ m _ _).andThen ?_
  rintro v0 t _ rfl
  simp only [tapSrc_withMerge]
  refine (memRead_withMerge _ m _ _).andThen ?_
  rintro v1 u _ rfl
  simp only [readMantPair_withMerge]
  exact .go () rfl

theorem tapSingle_withMerge (k : Kernel) (p : Params) (y : BitVec 32) (b : Block) (i : Nat) :
    Flow.Alike (SameButMerge m) (tapSingle k p y b i s) (tapSingle k p y b i (s.withMerge m)) := by
  unfold tapSingle
  simp only [tapSrc_withMerge, loadBytes_withMerge]
  refine (memRead_withMerge _ m _ _).andThen ?_
  rintro v0 t _ rfl
  simp only [readMant_withMerge]
  exact .go () rfl

end

section
variable (m : MergeStrategy) {s s' : State} (h : SameButMerge m s s')
include h

theorem runTaps_alike_merge (k : Kernel) (p : Params) (y : BitVec 32) (b : Block) (n i : Nat) :
    Flow.Alike (SameButMerge m) (runTaps k p y b n i s) (runTaps k p y b n i s') := by
  induction n using Nat.twoStepInduction generalizing i s s' with
  | zero => exact .go () h
  | one => exact h ▸ tapSingle_withMerge s m k p y b i
  | more n ih _ => exact (h ▸ tapPair_withMerge s m k p y b i).andThen fun _ _ _ ht => ih ht (i + 2)

theorem runBlock_alike_merge (k : Kernel) (p : Params) (y : BitVec 32) (b : Block) :
    Flow.Alike (SameButMerge m) (runBlock k p y b s) (runBlock k p y b s') := by
  subst h
  refine (runTaps_alike_merge m (beginBlock_withMerge s m k p b) k p y b _ _).andThen ?_
  rintro _ t _ rfl
  rw [results_withMerge]
  exact (memWrite_withMerge t m _ _).andThen fun _ _ _ hu => hu ▸ .go () rfl

theorem runRow_alike_merge (k : Kernel) (p : Params) (blocks : List Block) (r : Nat) :
    Flow.Alike (SameButMerge m) (runRow k p blocks r s) (runRow k p blocks r s') := by
  subst h
  exact (Flow.Alike.each (fun b _ _ ht => runBlock_alike_merge m ht k p (p.rowY r) b) blocks rfl).andThen
    fun _ _ _ ht => ht ▸ .go () rfl

end

/-! ### Whole commands -/

section
variable (s : State) (m : MergeStrategy)

theorem SameButMerge.retire {m : MergeStrategy} (t t' : State) (h : SameButMerge m t t') :
    SameButMerge m t.retire t'.retire := h ▸ rfl

theorem runConvolution_withMerge (k : Kernel) (blocks : List Block) :
    OutcomeAlike (SameButMerge m) (runConvolution k blocks s) (runConvolution k blocks (s.withMerge m)) :=
  (Flow.Alike.each (fun r _ _ ht => runRow_alike_merge m ht k s.params blocks r) _ rfl).finish SameButMerge.retire

theorem runReduction_withMerge :
    OutcomeAlike (SameButMerge m) (runReduction s) (runReduction (s.withMerge m)) :=
  (Flow.Alike.each (fun b _ _ ht => runBlock_alike_merge m ht .redv s.params 0 b) _ rfl).finish SameButMerge.retire

theorem execConvV_withMerge : OutcomeAlike (SameButMerge m) (execConvV s) (execConvV (s.withMerge m)) := by
  have hcap : (s.withMerge m).cap = s.cap := rfl
  unfold execConvV
  rw [hcap]
  split
  · exact .next rfl
  · exact runConvolution_withMerge s m .conv32 _

theorem execSetcap_withMerge (l : BitVec 3) :
    OutcomeAlike (SameButMerge m) (execSetcap l s) (execSetcap l (s.withMerge m)) := by
  have hcap : (s.withMerge m).cap = s.cap := rfl
  unfold execSetcap
  rw [hcap]
  split
  · exact .next rfl
  · split <;> exact .next rfl

theorem exec_withMerge (i : Instr) : OutcomeAlike (SameButMerge m) (exec i s) (exec i (s.withMerge m)) := by
  cases i with
  | setcap l => exact execSetcap_withMerge s m l
  | setp k v => exact .next rfl
  | setoff i v => exact .next rfl
  | setmant i v => exact .next rfl
  | setmant2 i v0 v1 => exact .next rfl
  | convV => exact execConvV_withMerge s m
  | convF => exact runConvolution_withMerge s m .conv16 _
  | redv256 => exact runReduction_withMerge s m
  | redv128 => exact runReduction_withMerge s m

end

theorem OutcomeAlike.fault_left {R : State → State → Prop} {o o' : Host.Outcome State Fault Refusal} {f : Fault}
    (h : OutcomeAlike R o o') (ho : o = .fault f) : o' = .fault f := by
  subst ho
  cases h
  rfl

/-- Settles O37: only the output stage of CONV.V reads the strategy, and either merge gives the lanes in order. -/
theorem mergeStrategyIsUnobservable : Obligations.MergeStrategyIsUnobservable := by
  refine fun s m i => ⟨fun t ht => ?_, fun f hf => (exec_withMerge s m i).fault_left hf⟩
  obtain ⟨_, hexec, rfl⟩ := (exec_withMerge s m i).next_left ht
  exact hexec

end Sys2Proof.Machine
end

section
/-! PROOFS. What CONV.F leaves (spec/42_conv_fixed.md R150, R151, R153): the contract's value at every destination, and the
frame of an operation everywhere else. -/

namespace Sys2Proof.Machine

theorem mem_rowsOf_conv16 {s : State} {y : BitVec 32} :
    y ∈ s.rowsOf .conv16 ↔ ∃ r < s.params.rows, s.params.rowY r = y := by
  simp only [State.rowsOf, List.mem_map, List.mem_range]

theorem outputs_conv16 {s : State} {a : Addr} :
    s.outputs .conv16 a ↔ ∃ r < s.params.rows, ∃ x < s.params.columns, aOut s.params (s.params.rowY r) x = a := by
  constructor
  · rintro ⟨y, hy, hx⟩
    obtain ⟨r, hr, rfl⟩ := mem_rowsOf_conv16.mp hy
    exact ⟨r, hr, hx⟩
  · rintro ⟨r, hr, hx⟩
    exact ⟨s.params.rowY r, mem_rowsOf_conv16.mpr ⟨r, hr, rfl⟩, hx⟩

/-- Under the premises of a result claim an operation command retires with its columns stored (R131, R151, R174) and with
everything else a later command can see unchanged. -/
theorem exec_storesColumns_frame {s : State} {i : Instr} {k : Kernel} (hi : kernelOf i = some k) (hcode : s.codeLatched k)
    (hc : s.cfg.wf) (hr : s.resetAfter = none) (ht : s.tapsWritten k) (hg : s.grants (s.accesses k))
    (hs : s.separate k) :
    ∃ u, exec i s = .next u.retire ∧ StoresColumns s k u.retire ∧
      Frame (fun a => a ∈ writtenBytes (s.accesses k)) s u ∧ u.free = s.free := by
  obtain ⟨f, hexec, hf⟩ := exec_operation hi hcode hc ht
  obtain ⟨u, rfl, hu, -⟩ := hf.completes hr hg
  exact ⟨u, hexec, hu.storesColumns hs, hu.frame, hu.free⟩

/-- Settles O28: CONV.F needs no capability code (R150), so it completes with its columns stored and the rest framed. -/
theorem convFStoresConv16 : Obligations.ConvFStoresConv16 := by
  intro s hc hr ht hg hs
  have hcode : s.codeLatched .conv16 := fun h => nomatch h
  obtain ⟨u, hexec, hmem, hframe, hfree⟩ := exec_storesColumns_frame (i := .convF) rfl hcode hc hr ht hg hs
  refine ⟨u.retire, hexec, fun r hr x hx => hmem.column _ (mem_rowsOf_conv16.mpr ⟨r, hr, rfl⟩) x hx,
    fun a ha => hmem.other a fun hout => ?_,
    hframe.cfg, hframe.params, hframe.cap, hframe.taps, hframe.fault, hframe.cmds, hfree, rfl⟩
  obtain ⟨r, hr, x, hx, hdst⟩ := outputs_conv16.mp hout
  exact ha r hr x hx hdst

end Sys2Proof.Machine
end

section
/-! PROOFS. What the reductions leave (spec/43_reducev.md R170, R171, R174): `redv` at every destination, and the frame of an
operation everywhere else. -/

namespace Sys2Proof.Machine

section
variable {i : Instr} (hi : i = .redv256 ∨ i = .redv128)
include hi

theorem kernelOf_reduction : kernelOf i = some .redv := by
  obtain rfl | rfl := hi <;> rfl

/-- The two organisations run the same reduction (R171). -/
theorem exec_reduction (s : State) : exec i s = runReduction s := by
  obtain rfl | rfl := hi <;> rfl

end

theorem outputs_redv {s : State} {a : Addr} : s.outputs .redv a ↔ ∃ x < s.params.columns, aRedOut s.params x = a := by
  simp only [State.outputs, State.rowsOf, List.mem_singleton, exists_eq_left, Kernel.dst]

/-- Settles O29: a reduction needs no capability code and no offset (R170), so it completes with its columns stored and the
rest framed. -/
theorem redvStoresRedv : Obligations.RedvStoresRedv := by
  intro s i hi hc hr ht hg hs
  have hcode : s.codeLatched .redv := fun h => nomatch h
  obtain ⟨u, hexec, hmem, hframe, hfree⟩ := exec_storesColumns_frame (kernelOf_reduction hi) hcode hc hr ht hg hs
  exact ⟨u.retire, hexec, fun x hx => hmem.column 0 (List.mem_singleton_self 0) x hx,
    fun a ha => hmem.other a fun hout => let ⟨x, hx, hdst⟩ := outputs_redv.mp hout; ha x hx hdst,
    hframe.cfg, hframe.params, hframe.cap, hframe.taps, hframe.fault, hframe.cmds, hfree, rfl⟩

end Sys2Proof.Machine
end

section
/-! PROOFS. What the reduction reads (spec/43_reducev.md R170, spec/20_memory.md R54): two runs from states that agree on it stay
in step. -/

namespace Sys2Proof.Machine

/-! ### The registers a reduction reads -/

/-- `q` with the registers a reduction reads taken from `p`. -/
def Params.withReductionOperands (q p : Params) : Params :=
  { q with outBase := p.outBase, inBase := p.inBase, inStride := p.inStride, ne := p.ne, nnz := p.nnz }

theorem Params.eq_withReductionOperands {q p : Params} (hout : q.outBase = p.outBase) (hin : q.inBase = p.inBase)
    (hstride : q.inStride = p.inStride) (hne : q.ne = p.ne) (hnnz : q.nnz = p.nnz) : q = q.withReductionOperands p := by
  rw [Params.withReductionOperands, ← hout, ← hin, ← hstride, ← hne, ← hnnz]

section
variable (q p : Params)

theorem runTaps_reductionOperands (y : BitVec 32) (b : Block) :
    ∀ (n i : Nat) (s : State), runTaps .redv (q.withReductionOperands p) y b n i s = runTaps .redv p y b n i s
  | 0, _, _ => rfl
  | 1, _, _ => rfl
  | n + 2, i, s =>
    congrArg (Flow.andThen (tapPair .redv p y b i s)) (funext₂ fun _ t => runTaps_reductionOperands y b n (i + 2) t)

/-- No other register enters an address, a count or a value of a block (R54, R173). -/
theorem runBlock_reductionOperands : runBlock .redv (q.withReductionOperands p) = runBlock .redv p := by
  funext y b s
  unfold runBlock
  rw [runTaps_reductionOperands]
  rfl

end

/-! ### States that differ in what a reduction does not read -/

/-- The two states read every mantissa alike (R38). -/
def State.SameMants (s e : State) : Prop :=
  ∀ j, (e.tapAt j).mant = (s.tapAt j).mant ∧ (e.tapAt j).mantWritten = (s.tapAt j).mantWritten

/-- `s` with what a block of a reduction does not read taken from `e`: the registers, `CAP`, the tap table, the words the host
holds, `SEQ.BUSY` and `SEQ.OP`. -/
def State.withUnread (s e : State) : State :=
  { s with
    params := e.params
    cap := e.cap
    taps := e.taps
    cmds := e.cmds
    seq := { s.seq with busy := e.seq.busy, op := e.seq.op } }

/-- `s'` is `s` but for what a block of a reduction does not read; its mantissas are those of `s`. -/
def SameButUnread (s s' : State) : Prop := ∃ e, s.SameMants e ∧ s' = s.withUnread e

/-- The same, and the accumulators may differ too: between blocks they hold no value (R31). -/
def SameBetweenBlocks (s s' : State) : Prop := SameButUnread { s with acc := s'.acc } s'

section
variable {s s' : State} (h : SameButUnread s s')
include h

/-- An update that neither reads the unread part nor writes the tap table. -/
theorem SameButUnread.map (g : State → State) (hg : ∀ s e, g (s.withUnread e) = (g s).withUnread (g e))
    (htaps : ∀ s, (g s).taps = s.taps) : SameButUnread (g s) (g s') := by
  obtain ⟨e, hm, rfl⟩ := h
  refine ⟨g e, ?_, hg s e⟩
  simpa only [State.SameMants, State.tapAt, htaps] using hm

/-- A value that the unread part does not enter. -/
theorem SameButUnread.get {α : Type} (f : State → α) (hf : ∀ s e, f (s.withUnread e) = f s) : f s' = f s := by
  obtain ⟨e, -, rfl⟩ := h
  exact hf s e

/-- A reset marks every tap half never written, in both states alike. -/
theorem SameButUnread.engineReset : SameButUnread s.engineReset s'.engineReset := by
  obtain ⟨e, -, rfl⟩ := h
  exact ⟨(s.withUnread e).engineReset, fun _ => ⟨rfl, rfl⟩, rfl⟩

theorem SameButUnread.storeBytes (a : Addr) (bs : List Byte) :
    SameButUnread (storeBytes a bs s) (storeBytes a bs s') := by
  induction bs generalizing a s s' with
  | nil => exact h
  | cons b bs ih => exact ih (h.map (·.storeByte a b) (fun _ _ => rfl) fun _ => rfl) (a + 1#32)

theorem SameButUnread.betweenBlocks : SameBetweenBlocks s s' := by
  obtain ⟨e, hm, rfl⟩ := h
  exact ⟨e, hm, rfl⟩

theorem SameButUnread.readMant (i : Nat) :
    (readMant i s').1 = (readMant i s).1 ∧ SameButUnread (readMant i s).2 (readMant i s').2 := by
  obtain ⟨e, hm, rfl⟩ := h
  have hmant : ((s.withUnread e).tapAt i).mant = (s.tapAt i).mant := (hm i).1
  have hwritten : ((s.withUnread e).tapAt i).mantWritten = (s.tapAt i).mantWritten := (hm i).2
  unfold Machine.readMant
  rw [hmant, hwritten]
  split <;> exact ⟨rfl, e, hm, rfl⟩

theorem SameButUnread.readMantPair (i : Nat) :
    (readMantPair i s').1 = (readMantPair i s).1 ∧ SameButUnread (readMantPair i s).2 (readMantPair i s').2 := by
  obtain ⟨hlow, h⟩ := h.readMant (2 * (i / 2))
  obtain ⟨hhigh, h⟩ := h.readMant (2 * (i / 2) + 1)
  exact ⟨congrArg₂ (fun m0 m1 => unpack (pack m0 m1)) hlow hhigh, h⟩

end

/-! ### The parts of a reduction, run from states that differ in what it does not read -/

section
variable {s s' : State} (h : SameButUnread s s')
include h

theorem issue_alike_unread (x : Access) : Flow.Alike SameButUnread (issue x s) (issue x s') := by
  have hlog := h.map (·.logAccess x) (fun _ _ => rfl) fun _ => rfl
  unfold issue
  rw [h.get State.resetAfter fun _ _ => rfl, h.get State.cfg fun _ _ => rfl]
  split
  · exact .stop (.next h.engineReset)
  · split
    · exact .stop (.fault _)
    · split
      · exact .stop (.next (hlog.map (·.raise _ _) (fun _ _ => rfl) fun _ => rfl))
      · exact .go () hlog

theorem memRead_alike_unread (a : Addr) (n : Nat) : Flow.Alike SameButUnread (memRead a n s) (memRead a n s') := by
  refine (issue_alike_unread h _).andThen fun _ t t' ht => ?_
  rw [ht.get State.byteAt fun _ _ => rfl]
  exact .go _ ht

theorem memWrite_alike_unread (a : Addr) (bs : List Byte) :
    Flow.Alike SameButUnread (memWrite a bs s) (memWrite a bs s') :=
  (issue_alike_unread h _).andThen fun _ _ _ ht => .go () (ht.storeBytes a bs)

theorem SameButUnread.afterTaps (acc : AccFile) (i : Nat) : SameButUnread (s.afterTaps acc i) (s'.afterTaps acc i) :=
  h.map (·.afterTaps acc i) (fun _ _ => rfl) fun _ => rfl

theorem tapPair_alike_unread (p : Params) (y : BitVec 32) (b : Block) (i : Nat) :
    Flow.Alike SameButUnread (tapPair .redv p y b i s) (tapPair .redv p y b i s') := by
  unfold tapPair
  rw [h.get State.acc fun _ _ => rfl]
  refine (memRead_alike_unread h _ _).andThen fun v0 t t' ht => ?_
  refine (memRead_alike_unread ht _ _).andThen fun v1 u u' hu => ?_
  obtain ⟨hmants, hm⟩ := hu.readMantPair i
  simp only [hmants]
  exact .go () (hm.afterTaps _ _)

theorem tapSingle_alike_unread (p : Params) (y : BitVec 32) (b : Block) (i : Nat) :
    Flow.Alike SameButUnread (tapSingle .redv p y b i s) (tapSingle .redv p y b i s') := by
  unfold tapSingle
  rw [h.get State.acc fun _ _ => rfl]
  refine (memRead_alike_unread h _ _).andThen fun v t t' ht => ?_
  obtain ⟨hmant, hm⟩ := ht.readMant i
  simp only [hmant]
  exact .go () (hm.afterTaps _ _)

end

theorem runTaps_alike_unread (p : Params) (y : BitVec 32) (b : Block) :
    ∀ (n i : Nat) {s s' : State}, SameButUnread s s' →
      Flow.Alike SameButUnread (runTaps .redv p y b n i s) (runTaps .redv p y b n i s')
  | 0, _, _, _, h => .go () h
  | 1, i, _, _, h => tapSingle_alike_unread h p y b i
  | n + 2, i, _, _, h =>
    (tapPair_alike_unread h p y b i).andThen fun _ _ _ ht => runTaps_alike_unread p y b n (i + 2) ht

theorem OutcomeAlike.mono {R Q : State → State → Prop} {o o' : Host.Outcome State Fault Refusal}
    (h : OutcomeAlike R o o') (hRQ : ∀ t t', R t t' → Q t t') : OutcomeAlike Q o o' := by
  cases h with
  | next h => exact .next (hRQ _ _ h)
  | fault f => exact .fault f

theorem Flow.Alike.mono {R Q : State → State → Prop} {α : Type} {f f' : Flow α} (h : Flow.Alike R f f')
    (hRQ : ∀ t t', R t t' → Q t t') : Flow.Alike Q f f' := by
  cases h with
  | go a h => exact .go a (hRQ _ _ h)
  | stop h => exact .stop (h.mono hRQ)

/-- A block sets its accumulators before it reads them (R173), so they may differ when it begins. -/
theorem runBlock_alike_unread (p : Params) (y : BitVec 32) (b : Block) {s s' : State} (h : SameBetweenBlocks s s') :
    Flow.Alike SameBetweenBlocks (runBlock .redv p y b s) (runBlock .redv p y b s') := by
  have hbegin : SameButUnread (s.beginBlock .redv p b) (s'.beginBlock .redv p b) :=
    SameButUnread.map h (·.beginBlock .redv p b) (fun _ _ => rfl) fun _ => rfl
  refine Flow.Alike.mono (R := SameButUnread) ?_ fun _ _ => SameButUnread.betweenBlocks
  refine (runTaps_alike_unread p y b p.tapCount 0 hbegin).andThen fun _ t t' ht => ?_
  rw [ht.get State.cfg fun _ _ => rfl, ht.get State.acc fun _ _ => rfl]
  exact (memWrite_alike_unread ht _ _).andThen fun _ _ _ hu => .go () (hu.map (·.endBlock b) (fun _ _ => rfl) fun _ => rfl)

/-! ### Whole reductions -/

/-- The states at the start of a reduction: it sets the sequencer position itself (R29). -/
theorem beginOperation_sameBetweenBlocks {s s' : State} (hcfg : s'.cfg = s.cfg) (hmem : s'.mem = s.mem)
    (hbus : s'.bus = s.bus) (hfault : s'.fault = s.fault) (hreset : s'.resetAfter = s.resetAfter)
    (hfree : s'.free = s.free) (hmants : s.SameMants s') (y : BitVec 32) :
    SameBetweenBlocks (s.beginOperation y) (s'.beginOperation y) := by
  refine ⟨s', hmants, ?_⟩
  simp only [State.beginOperation, State.withUnread, hcfg, hmem, hbus, hfault, hreset, hfree]

theorem runReduction_alike_unread {s s' : State} (hparams : s'.params = s'.params.withReductionOperands s.params)
    (hstart : SameBetweenBlocks (s.beginOperation 0) (s'.beginOperation 0)) :
    OutcomeAlike SameBetweenBlocks (runReduction s) (runReduction s') := by
  have hcolumns : s'.params.columns = s.params.columns := by rw [hparams]; rfl
  have hblock : runBlock .redv s'.params = runBlock .redv s.params := by rw [hparams, runBlock_reductionOperands]
  unfold runReduction
  rw [hcolumns, hblock]
  exact (Flow.Alike.each (fun b _ _ => runBlock_alike_unread s.params 0 b) _ hstart).finish
    fun _ _ h => SameButUnread.map h State.retire (fun _ _ => rfl) fun _ => rfl

theorem SameBetweenBlocks.observed {t t' : State} (h : SameBetweenBlocks t t') :
    t'.mem = t.mem ∧ t'.bus = t.bus ∧ t'.fault = t.fault ∧
      t'.seq.r = t.seq.r ∧ t'.seq.y = t.seq.y ∧ t'.seq.x = t.seq.x ∧ t'.seq.w = t.seq.w ∧ t'.seq.i = t.seq.i := by
  obtain ⟨e, -, heq⟩ := h
  rw [heq]
  exact ⟨rfl, rfl, rfl, rfl, rfl, rfl, rfl, rfl⟩

/-- Settles O39: the two runs stay in step, since no part of a reduction reads where the states differ. -/
theorem reductionReadsOnlyItsOperands : Obligations.ReductionReadsOnlyItsOperands := by
  intro s s' t i hi hcfg hmem hbus hfault hreset hfree hout hin hstride hne hnnz hmants hexec
  rw [exec_reduction hi] at hexec ⊢
  have hparams := Params.eq_withReductionOperands hout hin hstride hne hnnz
  have hstart := beginOperation_sameBetweenBlocks hcfg hmem hbus hfault hreset hfree hmants 0
  obtain ⟨t', hexec', hsame⟩ := (runReduction_alike_unread hparams hstart).next_left hexec
  exact ⟨t', hexec', hsame.observed⟩

end Sys2Proof.Machine
end

section
/-! PROOFS. The setup commands (spec/44_dispatch_and_setup.md R194 to R199): each writes its own entry of one table and retires
without a memory access. -/

namespace Sys2Proof.Machine

/-! ### One entry of the tap table -/

section
variable {s t : State} {i j : Nat} {e : Tap}

theorem State.tapAt_of_set_same (h : t.taps = s.taps.set i e) (hi : i < s.taps.length) : t.tapAt i = e := by
  simp [State.tapAt, h, hi]

theorem State.tapAt_of_set_ne (h : t.taps = s.taps.set i e) (hj : j ≠ i) : t.tapAt j = s.tapAt j := by
  simp [State.tapAt, h, List.getElem?_set_ne hj.symm]

theorem State.tapAt_writeOff_same (v : Word) (hi : i < s.taps.length) :
    (s.writeOff i v).tapAt i = { s.tapAt i with off := v, offWritten := true } :=
  State.tapAt_of_set_same rfl hi

theorem State.tapAt_writeOff_ne (v : Word) (hj : j ≠ i) : (s.writeOff i v).tapAt j = s.tapAt j :=
  State.tapAt_of_set_ne rfl hj

theorem State.tapAt_writeMant_same (v : Mant) (hi : i < s.taps.length) :
    (s.writeMant i v).tapAt i = { s.tapAt i with mant := v, mantWritten := true } :=
  State.tapAt_of_set_same rfl hi

theorem State.tapAt_writeMant_ne (v : Mant) (hj : j ≠ i) : (s.writeMant i v).tapAt j = s.tapAt j :=
  State.tapAt_of_set_ne rfl hj

/-- The two halves of an entry are apart: a mantissa's write leaves every offset (R197). -/
theorem State.writeMant_keeps_offsets (v : Mant) (hi : i < s.taps.length) (j : Nat) :
    (s.writeMant i v).offAt j = s.offAt j ∧ ((s.writeMant i v).tapAt j).offWritten = (s.tapAt j).offWritten := by
  obtain rfl | hj := eq_or_ne j i
  · simp [State.offAt, State.tapAt_writeMant_same v hi]
  · simp [State.offAt, State.tapAt_writeMant_ne v hj]

end

/-- Settles O17: SETOFF is one `State.writeOff`, in range since the decoder checks the index. -/
theorem setoffWritesOneOffset : Obligations.SetoffWritesOneOffset := by
  intro s i v hlen hwf
  have hi : i < s.taps.length := by simpa [hlen, Instr.wf] using hwf
  exact ⟨(s.writeOff i v).retire, rfl, State.tapAt_writeOff_same v hi, fun _ => State.tapAt_writeOff_ne v,
    List.length_set, rfl⟩

/-- Settles O18: SETMANT is one `State.writeMant`, in range since the decoder checks the index. -/
theorem setmantWritesOneMantissa : Obligations.SetmantWritesOneMantissa := by
  intro s i v hlen hwf
  have hi : i < s.taps.length := by simpa [hlen, Instr.wf] using hwf
  exact ⟨(s.writeMant i v).retire, rfl, State.tapAt_writeMant_same v hi, fun _ => State.tapAt_writeMant_ne v,
    List.length_set, rfl⟩

/-! ### A pair of mantissas -/

theorem pack_eq_ofNat (m0 m1 : Mant) : pack m0 m1 = BitVec.ofNat 32 (m1.toNat * 2 ^ 16 + m0.toNat) := by
  rw [← pack_toNat, BitVec.ofNat_toNat, BitVec.setWidth_eq]

/-- A pair of written mantissas reads as its packed word (R26). -/
theorem readMantw_written {i : Nat} {s : State} (hi : i % 2 = 0) (h0 : (s.tapAt i).mantWritten = true)
    (h1 : (s.tapAt (i + 1)).mantWritten = true) :
    readMantw (i / 2) s = (pack (s.tapAt i).mant (s.tapAt (i + 1)).mant, s) := by
  have heven : 2 * (i / 2) = i := by omega
  simp [readMantw, heven, readMant_written h0, readMant_written h1]

/-- Settles O19: SETMANT2 is two `State.writeMant`; the second is in range too, since the index and the table's length are
even (R9, R85). -/
theorem setmantPairIsTwoSetmants : Obligations.SetmantPairIsTwoSetmants := by
  intro s i v0 v1 hcfg hlen hwf
  obtain ⟨⟨-, -, hmax⟩, -, -⟩ := hcfg
  obtain ⟨hlt, heven⟩ : i < s.cfg.tapsMax ∧ i % 2 = 0 := by simpa [Instr.wf] using hwf
  have hi : i < s.taps.length := hlen ▸ hlt
  let u : State := s.writeMant i v0
  have hi' : i + 1 < u.taps.length := by simp only [u, State.writeMant_taps, List.length_set]; omega
  let t : State := (u.writeMant (i + 1) v1).retire
  have hlow : t.tapAt i = { s.tapAt i with mant := v0, mantWritten := true } :=
    (State.tapAt_writeMant_ne v1 (by omega)).trans (State.tapAt_writeMant_same v0 hi)
  have hhigh : t.tapAt (i + 1) = { u.tapAt (i + 1) with mant := v1, mantWritten := true } :=
    State.tapAt_writeMant_same v1 hi'
  refine ⟨t, u.retire, rfl, rfl, rfl, ?low, ?high, ?word, fun j => ?offsets, fun j hj hj' => ?others, rfl⟩
  case low => rw [State.mantAt, hlow]
  case high => rw [State.mantAt, hhigh]
  case word => rw [readMantw_written heven (by rw [hlow]) (by rw [hhigh]), hlow, hhigh, pack_eq_ofNat]
  case offsets =>
    obtain ⟨hoff, hwritten⟩ := State.writeMant_keeps_offsets v0 hi j
    obtain ⟨hoff', hwritten'⟩ := State.writeMant_keeps_offsets v1 hi' j
    exact ⟨hoff'.trans hoff, hwritten'.trans hwritten⟩
  case others => exact (State.tapAt_writeMant_ne v1 hj').trans (State.tapAt_writeMant_ne v0 hj)

/-! ### The parameter registers -/

theorem Params.get_set (p : Params) (k k' : Param) (v : Word) :
    (p.set k v).get k' = if k' = k then v else p.get k' := by
  cases k <;> cases k' <;> rfl

/-- Settles O15: SETP is one `Params.set`. -/
theorem setpWritesOneRegister : Obligations.SetpWritesOneRegister := fun s k v =>
  ⟨{ s with params := s.params.set k v }.retire, rfl, (Params.get_set ..).trans (if_pos rfl),
    fun _ hk => (Params.get_set ..).trans (if_neg hk), rfl⟩

theorem decodeSetp_of_not_legal {cfg : Config} {k : Param} {v : Word} (h : k.legal cfg v = false) :
    decodeSetp cfg (BitVec.ofNat 16 k.num) v = none := by
  rw [decodeSetp, Param.idx_toNat, Param.ofNum_num]
  cases k <;> simp_all [Param.legal]

/-- A SETP word of any build passes the first three tests of R86, so its value alone decides (R195). -/
theorem decode_encode_setp (cfg : Config) (k : Param) (v : Word) :
    decode cfg (encode (.setp k v)) =
      if k.legal cfg v = true then .legal (.setp k v) else .illegal .illegalOperand := by
  obtain ⟨hop, hrsv, hidx, himm⟩ := Laws.EncodeHeader.setp k v
  split
  case isTrue h =>
    refine decode_of_operands_some hop.symm rfl hrsv ?_
    rw [hidx, himm]
    exact decodeSetp_of_legal h
  case isFalse h =>
    refine decode_of_operands_none hop.symm rfl hrsv ?_
    rw [hidx, himm]
    exact decodeSetp_of_not_legal (Bool.eq_false_of_not_eq_true h)

theorem Param.legal_of_unchecked (cfg : Config) {k : Param} (v : Word) (hn : k ≠ .nnz) (he : k ≠ .exponent) :
    k.legal cfg v = true := by
  cases k with
  | nnz => exact absurd rfl hn
  | exponent => exact absurd rfl he
  | _ => rfl

/-- Settles O16: `Param.legal` decides, and names two registers only. -/
theorem setpChecksOnlyNnzAndExponent : Obligations.SetpChecksOnlyNnzAndExponent := fun cfg v =>
  ⟨by simpa [Param.legal] using decode_encode_setp cfg .nnz v,
    by simpa [Param.legal] using decode_encode_setp cfg .exponent v,
    fun k hn he => (decode_encode_setp cfg k v).trans (if_pos (Param.legal_of_unchecked cfg v hn he))⟩

/-! ### Every setup command -/

/-- Settles O20: a setup command retires with parameters, `CAP` or taps written and nothing else, or is a SETCAP of another
code (`exec_setup_ends`). -/
theorem setupCommandsRetireWithoutAccess : Obligations.SetupCommandsRetireWithoutAccess := by
  intro s i hk
  obtain ⟨u, hexec, hu, -⟩ | ⟨l, rfl, hvalid, hcode, hexec⟩ := exec_setup_ends hk s
  · refine ⟨u.retire, hexec, rfl, ?_⟩
    rw [hu]
    exact ⟨rfl, rfl, rfl, rfl, rfl, rfl, rfl, .inl rfl⟩
  · exact ⟨_, hexec, rfl, rfl, rfl, rfl, rfl, rfl, rfl, rfl, .inr ⟨rfl, l, rfl, hvalid, hcode⟩⟩

end Sys2Proof.Machine
end

section
/-! PROOFS. Faults (spec/60_exceptions.md R213 to R221): the first refused access halts an operation there, the two faults of
`CAP` halt before anything is written, and only the reset input leaves the halt. -/

namespace Sys2Proof.Machine

/-! ### The first refused access -/

/-- In the middle of an operation a column that has been written holds the contract's value (R66, R60). -/
theorem Mid.byteAt_dst {s u : State} {k : Kernel} {done : List Access}
    (h : Mid (s.separate k) (s.outputs k) (s.outputValue k) s done u) (hs : s.separate k) {y : BitVec 32}
    (hy : y ∈ s.rowsOf k) {c : Nat} (hc : c < s.params.columns) (hw : k.dst s.params y c ∈ writtenBytes done) :
    u.byteAt (k.dst s.params y c) = s.column k y c :=
  (h.vals hs _ hw).trans (State.outputValue_eq hs.2 hy hc)

/-- A refused access ends the operation in the fault of its kind, raised on the state the accesses before it left. -/
theorem exec_refused {s : State} {i : Instr} {k : Kernel} {done rest : List Access} {x : Access}
    (hi : kernelOf i = some k) (hcode : s.codeLatched k) (hcfg : s.cfg.wf) (hreset : s.resetAfter = none)
    (htaps : s.tapsWritten k) (hacc : s.accesses k = done ++ x :: rest) (hdone : s.grants done)
    (hanswered : x.answered s.cfg = true) (hbacked : x.backed s.cfg = false) :
    ∃ u, exec i s = .next ((u.logAccess x).raise (busCause x.kind) (x.addr.setWidth 64)) ∧
      Mid (s.separate k) (s.outputs k) (s.outputValue k) s done u := by
  obtain ⟨f, hexec, hf⟩ := exec_operation hi hcode hcfg htaps
  obtain ⟨u, rfl, hu⟩ := hf.refuses hreset hacc hdone hanswered hbacked
  exact ⟨u, hexec, hu⟩

/-- Settles O31: fault entry changes the fault record and `SEQ.BUSY` only (R218), so everything else is what the accesses
before the refused one left (`Mid`). -/
theorem refusedAccessHaltsThere : Obligations.RefusedAccessHaltsThere := by
  intro s i k done rest x hi hcode hcfg hreset htaps hacc hdone hanswered hbacked
  obtain ⟨u, hexec, hu⟩ := exec_refused hi hcode hcfg hreset htaps hacc hdone hanswered hbacked
  have hframe := hu.frame
  refine ⟨_, hexec, ?fault, rfl, congrArg (x :: ·) hu.bus, hframe.cfg, hframe.params, hframe.cap, hframe.taps, hframe.cmds,
    hframe.bytes, fun hs y hy c hc hw => hu.byteAt_dst hs hy hc hw⟩
  case fault =>
    obtain ⟨kind, addr, len⟩ := x
    cases kind <;> rfl

/-! ### The halt -/

/-- Settles O11: a halted engine takes no word, so the step is the reset or changes nothing (`step_next`). -/
theorem onlyResetLeavesTheHalt : Obligations.OnlyResetLeavesTheHalt := by
  intro s t h hhalted
  obtain ⟨hr, rfl⟩ | ⟨-, rfl⟩ | ⟨w, e, ⟨-, -, hready, -⟩, -⟩ | ⟨w, i, u, ⟨-, -, hready, -⟩, -⟩ := step_next h
  · have htap : ∀ i, s.engineReset.tapAt i = Tap.unwritten := State.tapAt_of_replicate rfl
    exact .inr ⟨hr, rfl, rfl, Params.get_reset, rfl, fun i => by simp [htap, Tap.unwritten]⟩
  · exact .inl rfl
  · simp [hhalted] at hready
  · simp [hhalted] at hready

/-! ### The two faults of `CAP` -/

/-- The word of a SETCAP as a number (R82, R83). -/
theorem encode_setcap (l : BitVec 3) : encode (.setcap l) = BitVec.ofNat 64 (0x0100000000000000 + l.toNat) := by
  have hl : l.toNat < 8 := l.isLt
  apply BitVec.eq_of_toNat_eq
  simp only [encode, formatF_toNat, Instr.command, Command.opcode, Instr.idx, Instr.imm, BitVec.toNat_ofNat,
    BitVec.toNat_setWidth]
  omega

/-- Settles O14: the three branches of SETCAP, the last one with the word of the command as `FAULT.INFO`. -/
theorem setcapLatchesOnce : Obligations.SetcapLatchesOnce := by
  intro s l
  refine ⟨exec_setcap_first l, fun hv hl => ?same, fun hv hl => ?other⟩
  case same =>
    simp only [exec, execSetcap, hv, hl, Bool.true_eq_false, if_false, if_true]
    rfl
  case other =>
    simp only [exec, execSetcap, hv, hl, Bool.true_eq_false, if_false, encode_setcap]
    rfl

/-- Settles O24: CONV.V tests `CAP.VALID` before it begins, so fault entry is all it does. -/
theorem convVWithoutCodeHalts : Obligations.ConvVWithoutCodeHalts := by
  intro s hv
  have hword : encode .convV = 0x1000000000000000#64 := by decide
  simp only [exec, execConvV, hv, if_true, hword]
  rfl

end Sys2Proof.Machine
end

section
/-! PROOFS. How an operation ends early (spec/70_reset_and_hazards.md R241, R251; spec/93_implementation_defined.md U12): the
reset input abandons it, a port that never answers sticks it, and where the port answers every command ends. -/

namespace Sys2Proof.Machine

/-! ### Every command ends (R251) -/

theorem OperationEnds.silent_access {A : Addr → Prop} {s : State} {f : Fault} (h : OperationEnds A s (.fault f)) :
    ∃ x : Access, x.answered s.cfg = false := by
  obtain ⟨u, hu, hr | he⟩ := h
  · cases hr
  · cases he with
    | silent x hx => exact ⟨x, hu.cfg ▸ hx⟩

/-- A command that ends in a fault of the model has met an access the memory port never answers (U12). -/
theorem exec_fault_silent_access {i : Instr} {s : State} {f : Fault} (h : exec i s = .fault f) :
    ∃ x : Access, x.answered s.cfg = false := by
  cases hk : kernelOf i with
  | none =>
    obtain ⟨t, ht⟩ := exec_setup_next hk s
    simp [h] at ht
  | some k =>
    obtain hends | ⟨-, -, hcap⟩ := exec_operation_ends hk s
    · exact (h ▸ hends).silent_access
    · simp [h] at hcap

/-- Settles O26: a command ends idle in a next state (`exec_next`) or at a silent access, and there is none. -/
theorem everyCommandEndsWhereThePortAnswers : Obligations.EveryCommandEndsWhereThePortAnswers := by
  intro s i hanswers
  obtain ⟨t, ht⟩ | ⟨-, hstuck⟩ := exec_next_or_silent i s
  · obtain ⟨u, -, hend⟩ := exec_next ht
    exact ⟨t, ht, hend.busy⟩
  · obtain ⟨x, hx⟩ := exec_fault_silent_access hstuck
    simp [hanswers x] at hx

/-! ### The reset input inside an operation (R241) -/

/-- The reset input asserted after the accesses `done` takes the engine's reset on the state they left. -/
theorem exec_reset_inside {s : State} {i : Instr} {k : Kernel} {done rest : List Access} {x : Access}
    (hi : kernelOf i = some k) (hcode : s.codeLatched k) (hcfg : s.cfg.wf) (htaps : s.tapsWritten k)
    (hacc : s.accesses k = done ++ x :: rest) (hdone : s.grants done) (hreset : s.resetAfter = some done.length) :
    ∃ u, exec i s = .next u.engineReset ∧ Mid (s.separate k) (s.outputs k) (s.outputValue k) s done u := by
  obtain ⟨f, hexec, hf⟩ := exec_operation hi hcode hcfg htaps
  obtain ⟨u, rfl, hu⟩ := hf.resets hacc hdone hreset
  exact ⟨u, hexec, hu⟩

theorem State.engineReset_tap_unwritten (u : State) (j : Nat) :
    (u.engineReset.tapAt j).offWritten = false ∧ (u.engineReset.tapAt j).mantWritten = false := by
  simp [State.tapAt_of_replicate (s := u.engineReset) rfl, Tap.unwritten]

theorem State.engineReset_taps_length (u : State) : u.engineReset.taps.length = u.cfg.tapsMax := List.length_replicate

/-- Settles O32: the engine's state is its reset state (`State.engineReset`), and memory and the access log are what the
accesses performed left (`Mid`). -/
theorem resetAbandonsTheOperation : Obligations.ResetAbandonsTheOperation := by
  intro s i k done rest x hi hcode hcfg htaps hacc hdone hreset
  obtain ⟨u, hexec, hu⟩ := exec_reset_inside hi hcode hcfg htaps hacc hdone hreset
  have hlength : u.engineReset.taps.length = s.cfg.tapsMax := hu.frame.cfg ▸ u.engineReset_taps_length
  exact ⟨u.engineReset, hexec, rfl, rfl, rfl, Params.get_reset, hlength, u.engineReset_tap_unwritten, rfl, hu.frame.cfg,
    rfl, hu.bus, hu.frame.bytes, fun hs y hy c hc hw => hu.byteAt_dst hs hy hc hw⟩

/-! ### An access the memory port never answers (U12) -/

/-- With the reset input released, a sequence of accesses whose first access not performed is `x` stops there. -/
theorem Carries.stops_at {D : Prop} {W : Addr → Prop} {V : Addr → Byte} {s : State} {L L1 L2 : List Access} {x : Access}
    {f : Flow Unit} {Q : Unit → State → Prop} (h : Carries D W V s [] L Q f) (hr : s.resetAfter = none)
    (hL : L = L1 ++ x :: L2) (hg : s.grants L1) (hx : x.granted s.cfg = false) :
    ∃ u o, f = .stop o ∧ Mid D W V s L1 u ∧ Blocked x u o := by
  obtain ⟨_, u, -, hm, -⟩ | ⟨M1, y, M2, u, o, hM, hm, hblocked, hf⟩ := h
  · have hxg := hm.granted x (by simp [hL])
    simp [hx] at hxg
  · have hy : y.granted s.cfg = false := Bool.eq_false_iff.mpr fun hy => hm.not_blocked hr hy hblocked
    obtain ⟨rfl, rfl⟩ := first_refused_unique (hM.symm.trans hL) hm.granted hy hg hx
    exact ⟨u, o, hf, hm, hblocked⟩

theorem Blocked.eq_fault_of_silent {x : Access} {u : State} {o : Host.Outcome State Fault Refusal} (h : Blocked x u o)
    (hr : u.resetAfter = none) (hx : x.answered u.cfg = false) : o = .fault .portNeverAnswers := by
  cases h with
  | reset hreset => simp [hr] at hreset
  | silent _ _ => rfl
  | refused _ hanswered _ => simp [hx] at hanswered

/-- Settles O33: the operation stops at the silent access (`Carries.stops_at`), which is neither a reset nor a refusal. -/
theorem unansweredAccessSticks : Obligations.UnansweredAccessSticks := by
  intro s i k done rest x hi hcode hcfg hreset htaps hacc hdone hsilent
  obtain ⟨f, hexec, hf⟩ := exec_operation hi hcode hcfg htaps
  have hx : x.granted s.cfg = false := by simp [Access.granted, hsilent]
  obtain ⟨u, o, rfl, hu, hblocked⟩ := hf.stops_at hreset hacc hdone hx
  exact hexec.trans (hblocked.eq_fault_of_silent (hu.frame.reset hreset) (hu.frame.cfg ▸ hsilent))

end Sys2Proof.Machine
end
